-- ==== Sys2Proof/Word.lean ====
section
/-! DEFINITION. The value types of the block: field elements, Relocatables, their union, curve points
(spec/20_memory.md R46 to R48, spec/41_field_arith.md R136, R137). -/

namespace Sys2Proof

/-- `u32` of R10: a Relocatable's segment or offset (R47), a signature-table key (R26). -/
abbrev U32 := BitVec 32

/-- A field element, by its residue. P is an argument of the model (R29), so the type cannot bound the residue by
it: that every Felt held is canonical (R11, R137) is `Felt.canonical`, kept by every step (log 8). -/
structure Felt where
  val : Nat
  deriving DecidableEq, Repr, Inhabited

/-- A canonical residue: in `[0, P)` (R11). -/
def Felt.canonical (P : Nat) (a : Felt) : Bool := decide (a.val < P)

/-- `felt(n)` of R11 for a natural: `n mod P`. -/
def Felt.ofNat (P n : Nat) : Felt := ⟨n % P⟩

/-- The reduction of a raw natural (R137). -/
def Felt.reduce (P : Nat) (a : Felt) : Felt := Felt.ofNat P a.val

/-- `felt(n)` of R11 for an integer of any sign: the residue in `[0, P)` (R10). -/
def Felt.ofInt (P : Nat) (n : Int) : Felt := ⟨(n % (P : Int)).toNat⟩

/-- `F(0)`, whatever P is. -/
def Felt.zero : Felt := ⟨0⟩

/-- A Relocatable `Rel(s, o)`, a pair of unsigned 32-bit numbers (R47). -/
structure Rel where
  seg : U32
  off : U32
  deriving DecidableEq, Repr, Inhabited

/-- "either a Relocatable or a field element" (R12, R46). Equality is R48's: constructors differ. -/
inductive MaybeRel where
  | rel (r : Rel)
  | felt (v : Felt)
  deriving DecidableEq, Repr

/-- `F(n)` for a natural. -/
def MaybeRel.ofNat (P n : Nat) : MaybeRel := .felt (Felt.ofNat P n)

/-- The reduction by whoever constructs a Felt from a raw natural (R137). -/
def MaybeRel.reduce (P : Nat) : MaybeRel → MaybeRel
  | .rel r => .rel r
  | .felt v => .felt (v.reduce P)

/-- A value that holds no residue out of `[0, P)`. -/
def MaybeRel.canonical (P : Nat) : MaybeRel → Bool
  | .rel _ => true
  | .felt v => v.canonical P

/-- An affine point, a pair of Felts (R173). -/
structure Point where
  x : Felt
  y : Felt
  deriving DecidableEq, Repr

/-- Both coordinates reduced (R137). -/
def Point.reduce (P : Nat) (p : Point) : Point := ⟨p.x.reduce P, p.y.reduce P⟩

/-- A pair of canonical Felts. -/
def Point.canonical (P : Nat) (p : Point) : Bool := p.x.canonical P && p.y.canonical P

end Sys2Proof
end

