-- ==== Sys2Proof/Syntax.lean ====
section
/-! DEFINITION. The typed instruction record (R93), one constructor of `Instr` per row of
spec/opcode_table.json, and the operands of a unit command (R105). The source names the flag fields' values; where
they stand in a word is the spec's decision D1 (log 37), which only Sys2Proof/Decode.lean relies on. -/

namespace Sys2Proof

/-- Base register of dst and op0 (R84). -/
inductive BaseReg where
  | ap | fp
  deriving DecidableEq, Repr

/-- op1 source (R85). -/
inductive Op1Src where
  | op0 | imm | fp | ap
  deriving DecidableEq, Repr

/-- Result logic (R86, R95). -/
inductive ResLogic where
  | op1 | add | mul | unconstrained
  deriving DecidableEq, Repr

/-- pc update (R87). -/
inductive PcUpdate where
  | regular | jump | jumpRel | jnz
  deriving DecidableEq, Repr

/-- ap update (R89, R96). -/
inductive ApUpdate where
  | regular | add | add1 | add2
  deriving DecidableEq, Repr

/-- fp update, a function of the opcode (R94; its three values are D1's, log 37). -/
inductive FpUpdate where
  | regular | apPlus2 | dst
  deriving DecidableEq, Repr

/-- The closed opcode set (R90, R98). -/
inductive Opcode where
  | noOp | call | ret | assertEq
  deriving DecidableEq, Repr

/-- The IDU's output record (R93). Offsets are `i16`, read with `BitVec.toInt`. -/
structure Instruction where
  offDst : BitVec 16
  offOp0 : BitVec 16
  offOp1 : BitVec 16
  dstReg : BaseReg
  op0Reg : BaseReg
  op1Src : Op1Src
  resLogic : ResLogic
  pcUpdate : PcUpdate
  apUpdate : ApUpdate
  fpUpdate : FpUpdate
  opcode : Opcode
  deriving DecidableEq, Repr

/-- The fields that no row of the opcode table fixes. -/
structure Fields where
  offDst : BitVec 16
  offOp0 : BitVec 16
  offOp1 : BitVec 16
  dstReg : BaseReg
  op0Reg : BaseReg
  op1Src : Op1Src
  resLogic : ResLogic
  deriving DecidableEq, Repr

/-- One constructor per row of spec/opcode_table.json. The first twelve are the forms of the 64-bit
word, the others the unit commands of R105. The table's `call` and `ret (any pc_update)` rows hold the
words that the more special rows leave (log 29). -/
inductive Instr where
  | assertEq (f : Fields) (pcu : PcUpdate) (apu : ApUpdate)
  | callAbs (f : Fields) (apu : ApUpdate)
  | callRel (f : Fields) (apu : ApUpdate)
  | call (f : Fields) (pcu : PcUpdate) (apu : ApUpdate)
  | ret (f : Fields) (apu : ApUpdate)
  | retAny (f : Fields) (pcu : PcUpdate) (apu : ApUpdate)
  | nop (f : Fields)
  | jmpAbs (f : Fields) (apu : ApUpdate)
  | jmpRel (f : Fields) (apu : ApUpdate)
  | jnz (f : Fields) (apu : ApUpdate)
  | apAdd (f : Fields)
  | nopApInc (f : Fields)
  | decode (w : BitVec 64)
  | encode (i : Instruction)
  | add (a b : MaybeRel)
  | sub (a b : MaybeRel)
  | mul (a b : MaybeRel)
  | neg (a : MaybeRel)
  | inv (a : MaybeRel)
  | div (a b : MaybeRel)
  | eq (a b : MaybeRel)
  | lt (a b : MaybeRel)
  | reduce (n : Int)
  | toUint (a : MaybeRel) (k : Nat)
  | toInt (a : MaybeRel) (k : Nat)
  | rcCheck (v : MaybeRel)
  | sigVerify (off : U32) (pk msg : MaybeRel)
  | sigSet (off : U32) (r s : BitVec 256)
  | ecOp (px py qx qy m : MaybeRel)
  deriving DecidableEq, Repr

/-- A unit command as the port holds it (R105): the code and every operand port. The spec types the
operands and gives them no bits; which port carries which operand is the model's (log 4). A width port
holds the width less one, so that every content is a legal width. -/
structure Request where
  code : BitVec 8
  v0 : MaybeRel
  v1 : MaybeRel
  v2 : MaybeRel
  v3 : MaybeRel
  v4 : MaybeRel
  word : BitVec 64
  record : Instruction
  n : Int
  widthLess1 : Nat
  off : U32
  r : BitVec 256
  s : BitVec 256
  deriving DecidableEq, Repr

/-- What an instruction is written as: a word of the 64-bit format, or a unit command. -/
inductive Encoded where
  | word (w : BitVec 64)
  | request (q : Request)
  deriving DecidableEq, Repr

end Sys2Proof
end

