-- ==== Sys2Proof/Machine/Outcome.lean ====
section
/-! DEFINITION. Failure kinds with their info, refusals, and the outcome of an operation
(spec/00_scope.md R14, spec/60_exceptions.md R241, R252). -/

namespace Sys2Proof.Machine

/-- The operand of a failed address computation (R50 to R54): an integer or a value. -/
inductive Addend where
  | int (k : Int)
  | val (v : MaybeRel)
  deriving DecidableEq, Repr

/-- Info of Overflow (R241, E10): address and operand, or value and width. -/
inductive OverflowInfo where
  | address (a : Rel) (k : Addend)
  | conversion (v : Felt) (width : Nat)
  deriving DecidableEq, Repr

/-- Info of UndefinedValue (R241, E20): the address, or the instruction's pc. -/
inductive UndefinedInfo where
  | cell (a : Rel)
  | instruction (pc : Rel)
  deriving DecidableEq, Repr

/-- The failure kinds of R241 with the info each carries. -/
inductive Failure where
  | reservedBitSet (w : Nat)
  | invalidOp1Source (w : Nat)
  | invalidResultLogic (w : Nat)
  | invalidPcUpdate (w : Nat)
  | invalidApUpdate (w : Nat)
  | invalidOpcode (w : Nat)
  | overflow (i : OverflowInfo)
  | underflow (a : Rel) (k : Addend)
  | forbiddenOperation (a b : MaybeRel)
  | divisionByZero (operands : List Felt)
  | segmentMismatch (a b : Rel)
  | undefinedValue (i : UndefinedInfo)
  | inconsistentMemory (a : Rel) (held written : MaybeRel)
  | immediateOffsetMismatch (off : Int)
  | op0Undefined
  | op0NotAddress (op0 : MaybeRel)
  | rangeCheckOutOfBounds (v : MaybeRel) (bound : Nat)
  | undefinedDictionary
  | undefinedSignature (off : U32)
  | invalidSignature (r s : Nat) (msg : Felt) (candidates : List Point)
  | ladderFailure (p q : Point) (m : Felt)
  | pointNotOnCurve (p : Point)
  deriving DecidableEq, Repr

/-! ### The Felts a failure carries -/

/-- The operand with its Felt reduced (R137). -/
def Addend.reduce (P : Nat) : Addend → Addend
  | .int k => .int k
  | .val v => .val (v.reduce P)

/-- The info with its Felts reduced (R137). -/
def OverflowInfo.reduce (P : Nat) : OverflowInfo → OverflowInfo
  | .address a k => .address a (k.reduce P)
  | .conversion v width => .conversion (v.reduce P) width

/-- The failure with every Felt of its info reduced, as whoever constructs a Felt from a raw natural does
(R137). -/
def Failure.reduce (P : Nat) : Failure → Failure
  | .reservedBitSet w => .reservedBitSet w
  | .invalidOp1Source w => .invalidOp1Source w
  | .invalidResultLogic w => .invalidResultLogic w
  | .invalidPcUpdate w => .invalidPcUpdate w
  | .invalidApUpdate w => .invalidApUpdate w
  | .invalidOpcode w => .invalidOpcode w
  | .overflow i => .overflow (i.reduce P)
  | .underflow a k => .underflow a (k.reduce P)
  | .forbiddenOperation a b => .forbiddenOperation (a.reduce P) (b.reduce P)
  | .divisionByZero operands => .divisionByZero (operands.map (Felt.reduce P))
  | .segmentMismatch a b => .segmentMismatch a b
  | .undefinedValue i => .undefinedValue i
  | .inconsistentMemory a held written => .inconsistentMemory a (held.reduce P) (written.reduce P)
  | .immediateOffsetMismatch off => .immediateOffsetMismatch off
  | .op0Undefined => .op0Undefined
  | .op0NotAddress op0 => .op0NotAddress (op0.reduce P)
  | .rangeCheckOutOfBounds v bound => .rangeCheckOutOfBounds (v.reduce P) bound
  | .undefinedDictionary => .undefinedDictionary
  | .undefinedSignature off => .undefinedSignature off
  | .invalidSignature r s msg candidates =>
    .invalidSignature r s (msg.reduce P) (candidates.map (Point.reduce P))
  | .ladderFailure p q m => .ladderFailure (p.reduce P) (q.reduce P) (m.reduce P)
  | .pointNotOnCurve p => .pointNotOnCurve (p.reduce P)

/-- A failure that carries canonical Felts only: reducing them changes nothing (R11). -/
def Failure.canonical (P : Nat) (f : Failure) : Bool := decide (f.reduce P = f)

/-- The number in the code of R241: `E01` is 1, `E45` is 45. The codes name and carry no meaning (R242). -/
def Failure.code : Failure → Nat
  | .reservedBitSet _ => 1
  | .invalidOp1Source _ => 2
  | .invalidResultLogic _ => 3
  | .invalidPcUpdate _ => 4
  | .invalidApUpdate _ => 5
  | .invalidOpcode _ => 6
  | .overflow _ => 10
  | .underflow _ _ => 11
  | .forbiddenOperation _ _ => 12
  | .divisionByZero _ => 13
  | .segmentMismatch _ _ => 14
  | .undefinedValue _ => 20
  | .inconsistentMemory _ _ _ => 21
  | .immediateOffsetMismatch _ => 30
  | .op0Undefined => 31
  | .op0NotAddress _ => 32
  | .rangeCheckOutOfBounds _ _ => 40
  | .undefinedDictionary => 41
  | .undefinedSignature _ => 42
  | .invalidSignature _ _ _ _ => 43
  | .ladderFailure _ _ _ => 44
  | .pointNotOnCurve _ => 45

/-- The refusals of R252. They are the spec's own record of an input it gives no meaning, kept in STATUS
or in a command's outcome, and are not the host's `Refusal`. -/
inductive Refuse where
  | badConfig
  | segmentSpaceExhausted
  | unallocatedSegment
  | feltAddress
  | notRepresentable
  | instructionNotFelt
  | unknownCommand
  | inactiveUnit
  | relocatableOperand
  | hostWriteDuringRun
  | ecOutputBeforeInputs
  | pcOutOfProgramSegment
  | fpOutOfExecutionSegment
  | callWithoutAdd2
  deriving DecidableEq, Repr

/-- R14: exactly one of `ok(v)`, `fail(K, info)`, `refused(R)`. -/
inductive Res (α : Type) where
  | ok (v : α)
  | fail (f : Failure)
  | refuse (r : Refuse)
  deriving DecidableEq, Repr

/-- Go on with the value; a failure or a refusal ends the operation (R13). -/
def Res.bind {α β : Type} (x : Res α) (k : α → Res β) : Res β :=
  match x with
  | .ok v => k v
  | .fail f => .fail f
  | .refuse r => .refuse r

/-- What a unit command answers on success (R105, column "result"). -/
inductive UnitValue where
  | unit
  | felt (v : Felt)
  | bool (b : Bool)
  | nat (n : Nat)
  | int (n : Int)
  | word (w : BitVec 64)
  | record (i : Instruction)
  | point (p : Point)
  deriving DecidableEq, Repr

/-- A unit's value that holds canonical Felts only (R11). -/
def UnitValue.canonical (P : Nat) : UnitValue → Bool
  | .unit => true
  | .felt v => v.canonical P
  | .bool _ => true
  | .nat _ => true
  | .int _ => true
  | .word _ => true
  | .record _ => true
  | .point p => p.canonical P

end Sys2Proof.Machine
end

