-- ==== Sys2Proof/Config.lean ====
section
/-! DEFINITION. What is fixed for a machine: the constants the spec chooses, the OPEN parameters and the
free values (spec/00_scope.md section 3, spec/10_state.md R29, spec/43_curve.md R171, R172). -/

namespace Sys2Proof

/-- FELT_OFFSET_MODE (R58). -/
inductive FeltOffsetMode where
  | unsigned32 | fieldWrap
  deriving DecidableEq, Repr, Inhabited

/-- SIG_VERIFY (R189): its default `ecdsaVerify` (R183), or any other predicate, by a number that
`Config.otherPredicate` reads (log 9). -/
inductive SigScheme where
  | starkEcdsa
  | other (id : Nat)
  deriving DecidableEq, Repr

/-- The constants of the curve, as naturals: α and β of R171, G and its order N of R172. -/
structure CurveParams where
  alpha : Nat
  beta : Nat
  genX : Nat
  genY : Nat
  order : Nat
  deriving DecidableEq, Repr

/-- The implementation parameters, the model's arguments: those of R29, `prime` being P (FIELD_PRIME, R136),
and the curve's constants (spec/93_implementation_defined.md I12; log 8). A claim holds for every value of the
OPEN ones (R8). -/
structure Params where
  strictJnzRes : Bool
  strictCallAp : Bool
  ecCheckOnCurve : Bool
  ecHeight : Nat
  feltOffsetMode : FeltOffsetMode
  sigScheme : SigScheme
  prime : Nat
  curve : CurveParams
  deriving DecidableEq, Repr

/-- What a hint may do (R210, R275, R62): write a cell, allocate a segment, raise a failure, signal a
halt. -/
inductive HintAction where
  | write (a v : MaybeRel)
  | alloc
  | raise (f : Machine.Failure)
  | halt
  deriving DecidableEq, Repr

/-- HINT_EFFECT of one hint (R210): a fixed list of actions, or host code that `Config.hostHint`
reads (log 11). -/
inductive HintEffect where
  | script (acts : List HintAction)
  | host (id : Nat)
  deriving DecidableEq, Repr

/-- A hint registered at a pc offset (R210). -/
structure Hint where
  offset : U32
  effect : HintEffect
  deriving DecidableEq, Repr

namespace Config

/-- STRICT_JNZ_RES, OPEN (R117): no value is chosen (log 7). -/
opaque strictJnzRes : Bool
/-- STRICT_CALL_AP, OPEN (R119): no value is chosen (log 7). -/
opaque strictCallAp : Bool
/-- EC_CHECK_ON_CURVE, OPEN (R198): no value is chosen (log 7). -/
opaque ecCheckOnCurve : Bool
/-- FELT_OFFSET_MODE, OPEN (R58): no value is chosen (log 7). -/
opaque feltOffsetMode : FeltOffsetMode

/-- EC_HEIGHT's default (R197; D19, log 8). -/
def ecHeight : Nat := 256

/-- FIELD_PRIME's default, `2^251 + 17 * 2^192 + 1` (R136; D2, log 8). -/
def fieldPrime : Nat := 0x0800000000000011000000000000000000000000000000000000000000000001

/-- The curve's defaults (R171, R172; D18, log 8). -/
def starkCurve : CurveParams where
  alpha := 1
  beta := 0x06f21413efbe40de150e596d72f7a8c5609ad26c15c915c1f4cdfcb99cee9e89
  genX := 0x01ef15c18599971b7beced415a40f0c7deacfd9b0d1819e03d723d8bc943cfca
  genY := 0x005668060aa49730b7be4801df46ec62de53ecd11abe43a32873000c36e8dc1f
  order := 0x0800000000000010ffffffffffffffffb781126dcae7b2321e66a241adc64d2f

/-- The parameters of the machine that `State.reset` is: open ones free, the others their defaults (R136, R171,
R172, R189, R197). -/
def params : Params where
  strictJnzRes := strictJnzRes
  strictCallAp := strictCallAp
  ecCheckOnCurve := ecCheckOnCurve
  ecHeight := ecHeight
  feltOffsetMode := feltOffsetMode
  sigScheme := .starkEcdsa
  prime := fieldPrime
  curve := starkCurve

/-- Free value: the n-th draw of R120 and R200 (log 10). -/
opaque draw : Nat → Nat

/-- Free value: what SIG_VERIFY answers under another predicate (R189; log 9). -/
opaque otherPredicate : (id : Nat) → (z : Felt) → (r s : Nat) → (q : Point) → Bool

/-- Free value: what host code number `id` does at its `n`-th hint run, from the registers and memory it
finds (R210; log 11). -/
opaque hostHint : (id n : Nat) → (pc ap fp : Rel) → (count : Nat) → (cells : List (Nat × MaybeRel)) →
  List HintAction

/-- ECDSA_BITS (R182; D15, log 8). -/
def ecdsaBits : Nat := 251

/-- The greatest legal RC_BOUND_EXP (R28). -/
def maxBoundExp : Nat := 251

end Config
end Sys2Proof
end

