-- ==== Sys2Proof/Machine/State.lean ====
section
/-! DEFINITION. The state (spec/10_state.md R21 to R38, spec/20_memory.md R61), its reset, and the host's
two stop reasons. -/

namespace Sys2Proof.Machine

/-- MEM (R61): `count` segments exist, numbered from 0; the filled cells, in one canonical form (log 14):
keys strictly rising, a key being `segment * 2^32 + offset`. An unlisted cell is empty. -/
structure Memory where
  count : Nat
  cells : List (Nat × MaybeRel)
  deriving DecidableEq, Repr

/-- A signature pair, each number below 2^256 (R26). -/
structure Sig where
  r : BitVec 256
  s : BitVec 256
  deriving DecidableEq, Repr

/-- STATUS (R36). -/
inductive Status where
  | running
  | halted
  | failed (f : Failure)
  | refused (r : Refuse)
  deriving DecidableEq, Repr

/-- The one outcome of a unit command (R14). -/
inductive UnitOutcome where
  | ok (v : UnitValue)
  | fail (f : Failure)
  | refused (r : Refuse)
  deriving DecidableEq, Repr

/-- Why a step stops without a next state. -/
inductive Fault where
  /-- Raised by `step` when STATUS is not `running` and no unit command is pending: no further step runs
  (R36). Safe: the machine has no such step, and the final state is the one before it (log 13). -/
  | runEnded
  deriving DecidableEq, Repr

/-- Why an instruction has no meaning in this model. -/
inductive Refusal where
  /-- Raised by an arm of `exec` for an instruction without a meaning yet. Safe. No arm raises it. -/
  | notModelled (mnemonic : String)
  deriving DecidableEq, Repr

/-- Everything the spec gives the machine, and the model's own fields `port`, `unitOut`, `draws` and
`hintRuns` (INVENTORY.md, State). -/
structure State where
  /-- CFG (R27). -/
  cfg : BitVec 16
  /-- SIG_TAB (R26): none is ⊥; entries by rising offset. -/
  sigTab : Option (List (Nat × Sig))
  /-- pc (R32). -/
  pc : Rel
  /-- ap (R33). -/
  ap : Rel
  /-- fp (R34). -/
  fp : Rel
  /-- MEM (R61). -/
  mem : Memory
  /-- STATUS (R36). -/
  status : Status
  /-- Boot step 7 of R272 is past (log 12). -/
  started : Bool
  /-- PROGRAM_END (R271, R274). -/
  programEnd : Rel
  /-- HINT_EFFECT: the registered hints in list order (R210, R279; log 11). -/
  hints : List Hint
  /-- The implementation parameters, P among them (R29; log 7, log 8). -/
  params : Params
  /-- The pending unit command (R105; log 1). -/
  port : Option Request
  /-- The outcome of the last unit command (R14; log 1). -/
  unitOut : Option UnitOutcome
  /-- Draws made so far: the index of the next free value (log 10). -/
  draws : Nat
  /-- Hints run so far: the index of the next host effect (log 11). -/
  hintRuns : Nat
  deriving DecidableEq, Repr

/-- The machine right after reset, when boot step 7 is past (R38, R272): every launch parameter at its default
(R271), the program empty because PROGRAM has no default (log 6). -/
def State.reset : State where
  cfg := 0x8000#16
  sigTab := none
  pc := ⟨0, 0⟩
  ap := ⟨1, 0⟩
  fp := ⟨1, 0⟩
  mem := { count := 2, cells := [] }
  status := .running
  started := true
  programEnd := ⟨0, 0⟩
  hints := []
  params := Config.params
  port := none
  unitOut := none
  draws := 0
  hintRuns := 0

end Sys2Proof.Machine
end

