-- ==== Sys2Proof/Machine/Flags.lean ====
section
/-! DEFINITION. The machine has no status flags, condition codes or predicates (spec/10_state.md R35). Its one
conditional test is JumpIfNotZero's, on the dst operand itself (spec/46_execution.md R230). -/

namespace Sys2Proof.Machine

/-- Whether JumpIfNotZero branches: only `F(0)` is zero, a Relocatable never is (R48, R230). -/
def jnzTaken (dst : MaybeRel) : Bool := decide (dst ≠ .felt Felt.zero)

end Sys2Proof.Machine
end

