-- ==== Sys2Proof/Decode.lean ====
section
/-! DEFINITION. The IDU: DECODE, ENCODE, the decoder of unit commands and the encoder of both
(spec/30_encoding.md R81 to R97, R105, spec/40_decoder.md R111 to R124). Every flag bit position and flag value code
in this file is the spec's decision D1 (spec/92_eei_decisions.md), which no source establishes (log 37). -/

namespace Sys2Proof

open Machine (Failure)

/-- `w[hi:lo]` of R9: the unsigned integer formed by bits hi down to lo. -/
def bits (w hi lo : Nat) : Nat := w / 2 ^ lo % 2 ^ (hi - lo + 1)

/-- A biased 16-bit field as an i16 (R83): the field less 2^15. -/
def unbias (n : Nat) : BitVec 16 := BitVec.ofNat 16 n - 0x8000#16

/-- The biased field of an i16 (R97). -/
def bias (off : BitVec 16) : Nat := (off + 0x8000#16).toNat

/-! ### DECODE -/

/-- w[48], w[49] (R84; D1, log 37). -/
def decReg (b : Nat) : BaseReg := if b = 1 then .fp else .ap

/-- R112: none is InvalidOp1Source. The codes are D1's (log 37). -/
def decOp1Src : Nat → Option Op1Src
  | 0 => some .op0
  | 1 => some .imm
  | 2 => some .fp
  | 4 => some .ap
  | _ => none

/-- R114: none is InvalidPcUpdate. The codes are D1's (log 37). -/
def decPc : Nat → Option PcUpdate
  | 0 => some .regular
  | 1 => some .jump
  | 2 => some .jumpRel
  | 4 => some .jnz
  | _ => none

/-- R116: none is InvalidOpcode. The codes are D1's (log 37). -/
def decOpcode : Nat → Option Opcode
  | 0 => some .noOp
  | 1 => some .call
  | 2 => some .ret
  | 4 => some .assertEq
  | _ => none

/-- R113 and R117: none is InvalidResultLogic. An invalid pcUpdate is no Jnz. The codes, and
Unconstrained without a code of its own (R95), are D1's (log 37). -/
def decRes (p : Params) (b : Nat) (pcu : Option PcUpdate) : Option ResLogic :=
  match b with
  | 0 => if pcu = some .jnz then some .unconstrained else some .op1
  | 1 => if pcu = some .jnz ∧ p.strictJnzRes = true then none else some .add
  | 2 => if pcu = some .jnz ∧ p.strictJnzRes = true then none else some .mul
  | _ => none

/-- R115 and R119: none is InvalidApUpdate. An invalid opcode is no Call. The codes, and Add2
without a code of its own (R96), are D1's (log 37). -/
def decAp (p : Params) (b : Nat) (opc : Option Opcode) : Option ApUpdate :=
  match b with
  | 0 => if opc = some .call then some .add2 else some .regular
  | 1 => if opc = some .call ∧ p.strictCallAp = true then none else some .add
  | 2 => if opc = some .call ∧ p.strictCallAp = true then none else some .add1
  | _ => none

/-- R94, R118: a function of the opcode; that the values are these three is D1's (log 37). -/
def decFp : Opcode → FpUpdate
  | .call => .apPlus2
  | .ret => .dst
  | .noOp => .regular
  | .assertEq => .regular

/-- The record of a word whose flag fields are all valid (R111). The offsets at bits 47:0 are the source's (R81), the
flag fields at bits 62:48 are at the positions of D1 (log 37). -/
def decodeFields (p : Params) (w : Nat) : Option Instruction :=
  let pcu := decPc (bits w 57 55)
  let opc := decOpcode (bits w 62 60)
  match decOp1Src (bits w 52 50), decRes p (bits w 54 53) pcu, pcu, decAp p (bits w 59 58) opc, opc with
  | some src, some res, some pcu, some apu, some opc =>
    some
      { offDst := unbias (bits w 15 0)
        offOp0 := unbias (bits w 31 16)
        offOp1 := unbias (bits w 47 32)
        dstReg := decReg (bits w 48 48)
        op0Reg := decReg (bits w 49 49)
        op1Src := src
        resLogic := res
        pcUpdate := pcu
        apUpdate := apu
        fpUpdate := decFp opc
        opcode := opc }
  | _, _, _, _, _ => none

/-- The set `E` of R111: the kinds that apply to the flag fields of `w`, at the positions of D1 (log 37). -/
def decodeErrors (p : Params) (w : Nat) : List Failure :=
  let pcu := decPc (bits w 57 55)
  let opc := decOpcode (bits w 62 60)
  (if decOp1Src (bits w 52 50) = none then [.invalidOp1Source w] else []) ++
  (if pcu = none then [.invalidPcUpdate w] else []) ++
  (if opc = none then [.invalidOpcode w] else []) ++
  (if decRes p (bits w 54 53) pcu = none then [.invalidResultLogic w] else []) ++
  (if decAp p (bits w 59 58) opc = none then [.invalidApUpdate w] else [])

/-- What DECODE finds: a record, or the failure kinds that apply (R120 lets any of them be reported). -/
inductive Decoded where
  | ok (i : Instruction)
  | bad (kinds : List Failure)
  deriving DecidableEq, Repr

/-- DECODE (R111). The operand is a natural, since a Felt at pc may exceed 64 bits (R126). -/
def decodeRecord (p : Params) (w : Nat) : Decoded :=
  if 2 ^ 63 ≤ w then .bad [.reservedBitSet w]
  else
    match decodeFields p w with
    | some i => .ok i
    | none => .bad (decodeErrors p w)

/-- The kind reported: the only one, or the `n`-th draw among several (R120; log 10). -/
def drawFailure (n w : Nat) : List Failure → Failure
  | [] => .reservedBitSet w
  | [f] => f
  | f :: fs => (f :: fs).getD (Config.draw n % (fs.length + 1)) f

/-! ### Records and rows -/

/-- The record of R93 from the free fields and the fixed ones; fpUpdate by R94. -/
def Fields.toRecord (f : Fields) (pcu : PcUpdate) (apu : ApUpdate) (opc : Opcode) : Instruction where
  offDst := f.offDst
  offOp0 := f.offOp0
  offOp1 := f.offOp1
  dstReg := f.dstReg
  op0Reg := f.op0Reg
  op1Src := f.op1Src
  resLogic := f.resLogic
  pcUpdate := pcu
  apUpdate := apu
  fpUpdate := decFp opc
  opcode := opc

/-- The fields of a record that no row fixes. -/
def Instruction.fields (i : Instruction) : Fields where
  offDst := i.offDst
  offOp0 := i.offOp0
  offOp1 := i.offOp1
  dstReg := i.dstReg
  op0Reg := i.op0Reg
  op1Src := i.op1Src
  resLogic := i.resLogic

/-- The row of the opcode table a record belongs to. A NoOp with pcUpdate Regular has one of three ap
updates (Add2 occurs only with Call, R96). -/
def Instruction.toInstr (i : Instruction) : Instr :=
  match i.opcode with
  | .assertEq => .assertEq i.fields i.pcUpdate i.apUpdate
  | .call =>
    match i.pcUpdate with
    | .jump => .callAbs i.fields i.apUpdate
    | .jumpRel => .callRel i.fields i.apUpdate
    | .regular => .call i.fields .regular i.apUpdate
    | .jnz => .call i.fields .jnz i.apUpdate
  | .ret =>
    match i.pcUpdate with
    | .jump => .ret i.fields i.apUpdate
    | .jumpRel => .retAny i.fields .jumpRel i.apUpdate
    | .regular => .retAny i.fields .regular i.apUpdate
    | .jnz => .retAny i.fields .jnz i.apUpdate
  | .noOp =>
    match i.pcUpdate with
    | .jump => .jmpAbs i.fields i.apUpdate
    | .jumpRel => .jmpRel i.fields i.apUpdate
    | .jnz => .jnz i.fields i.apUpdate
    | .regular =>
      match i.apUpdate with
      | .add => .apAdd i.fields
      | .add1 => .nopApInc i.fields
      | .regular => .nop i.fields
      | .add2 => .nop i.fields

/-- The record of an instruction of the 64-bit format; none for a unit command. -/
def Instr.record : Instr → Option Instruction
  | .assertEq f pcu apu => some (f.toRecord pcu apu .assertEq)
  | .callAbs f apu => some (f.toRecord .jump apu .call)
  | .callRel f apu => some (f.toRecord .jumpRel apu .call)
  | .call f pcu apu => some (f.toRecord pcu apu .call)
  | .ret f apu => some (f.toRecord .jump apu .ret)
  | .retAny f pcu apu => some (f.toRecord pcu apu .ret)
  | .nop f => some (f.toRecord .regular .regular .noOp)
  | .jmpAbs f apu => some (f.toRecord .jump apu .noOp)
  | .jmpRel f apu => some (f.toRecord .jumpRel apu .noOp)
  | .jnz f apu => some (f.toRecord .jnz apu .noOp)
  | .apAdd f => some (f.toRecord .regular .add .noOp)
  | .nopApInc f => some (f.toRecord .regular .add1 .noOp)
  | .decode _ => none
  | .encode _ => none
  | .add _ _ => none
  | .sub _ _ => none
  | .mul _ _ => none
  | .neg _ => none
  | .inv _ => none
  | .div _ _ => none
  | .eq _ _ => none
  | .lt _ _ => none
  | .reduce _ => none
  | .toUint _ _ => none
  | .toInt _ _ => none
  | .rcCheck _ => none
  | .sigVerify _ _ _ => none
  | .sigSet _ _ _ => none
  | .ecOp _ _ _ _ _ => none

/-- The instruction a word (or any Felt at pc) decodes to, if DECODE succeeds. -/
def decodeWord (p : Params) (w : Nat) : Option Instr :=
  match decodeRecord p w with
  | .ok i => some i.toInstr
  | .bad _ => none

/-- Cells an instruction occupies: 2 with an immediate, else 1 (R88). -/
def Instruction.size (i : Instruction) : Int := if i.op1Src = .imm then 2 else 1

/-! ### ENCODE: the flag codes and positions of D1 (log 37), as DECODE has them -/

def encReg : BaseReg → Nat
  | .ap => 0
  | .fp => 1

def encOp1Src : Op1Src → Nat
  | .op0 => 0
  | .imm => 1
  | .fp => 2
  | .ap => 4

def encRes : ResLogic → Nat
  | .op1 => 0
  | .unconstrained => 0
  | .add => 1
  | .mul => 2

def encPc : PcUpdate → Nat
  | .regular => 0
  | .jump => 1
  | .jumpRel => 2
  | .jnz => 4

def encAp : ApUpdate → Nat
  | .regular => 0
  | .add2 => 0
  | .add => 1
  | .add1 => 2

def encOpcode : Opcode → Nat
  | .noOp => 0
  | .call => 1
  | .ret => 2
  | .assertEq => 4

/-- The word of a record (R97): each field at its place, the flag fields at the positions of D1 (log 37), bit 63
zero. -/
def encodeRecord (i : Instruction) : Nat :=
  bias i.offDst + bias i.offOp0 * 2 ^ 16 + bias i.offOp1 * 2 ^ 32 +
  encReg i.dstReg * 2 ^ 48 + encReg i.op0Reg * 2 ^ 49 + encOp1Src i.op1Src * 2 ^ 50 +
  encRes i.resLogic * 2 ^ 53 + encPc i.pcUpdate * 2 ^ 55 + encAp i.apUpdate * 2 ^ 58 +
  encOpcode i.opcode * 2 ^ 60

/-- `representable(i)` of R97, conditions (a) to (g). -/
def representable (p : Params) (i : Instruction) : Bool :=
  (i.resLogic != .unconstrained || i.pcUpdate == .jnz) &&
  (i.pcUpdate != .jnz || i.resLogic != .op1) &&
  (i.apUpdate != .add2 || i.opcode == .call) &&
  (i.opcode != .call || i.apUpdate != .regular) &&
  (i.fpUpdate == decFp i.opcode) &&
  (!p.strictJnzRes || i.pcUpdate != .jnz || i.resLogic == .unconstrained) &&
  (!p.strictCallAp || i.opcode != .call || i.apUpdate == .add2)

/-! ### Unit commands (R105) -/

/-- The record of the word 0 (R111; D1, log 37): what a record port of zeros holds. -/
def zeroRecord : Instruction where
  offDst := 0x8000#16
  offOp0 := 0x8000#16
  offOp1 := 0x8000#16
  dstReg := .ap
  op0Reg := .ap
  op1Src := .op0
  resLogic := .op1
  pcUpdate := .regular
  apUpdate := .regular
  fpUpdate := .regular
  opcode := .noOp

/-- A command with every operand port zero. -/
def Request.zero (code : BitVec 8) : Request where
  code := code
  v0 := .felt Felt.zero
  v1 := .felt Felt.zero
  v2 := .felt Felt.zero
  v3 := .felt Felt.zero
  v4 := .felt Felt.zero
  word := 0
  record := zeroRecord
  n := 0
  widthLess1 := 0
  off := 0
  r := 0
  s := 0

/-- The command of a request (R105); none is an unknown code (`refuse UnknownCommand`). -/
def decodeRequest (q : Request) : Option Instr :=
  match q.code.toNat with
  | 0x01 => some (.decode q.word)
  | 0x02 => some (.encode q.record)
  | 0x10 => some (.add q.v0 q.v1)
  | 0x11 => some (.sub q.v0 q.v1)
  | 0x12 => some (.mul q.v0 q.v1)
  | 0x13 => some (.neg q.v0)
  | 0x14 => some (.inv q.v0)
  | 0x15 => some (.div q.v0 q.v1)
  | 0x16 => some (.eq q.v0 q.v1)
  | 0x17 => some (.lt q.v0 q.v1)
  | 0x18 => some (.reduce q.n)
  | 0x19 => some (.toUint q.v0 (q.widthLess1 + 1))
  | 0x1A => some (.toInt q.v0 (q.widthLess1 + 1))
  | 0x20 => some (.rcCheck q.v0)
  | 0x30 => some (.sigVerify q.off q.v0 q.v1)
  | 0x31 => some (.sigSet q.off q.r q.s)
  | 0x40 => some (.ecOp q.v0 q.v1 q.v2 q.v3 q.v4)
  | _ => none

/-- A unit command on the port; the unused ports hold zero. None for an instruction of the 64-bit
format. -/
def encodeRequest : Instr → Option Request
  | .decode w => some { Request.zero 0x01 with word := w }
  | .encode i => some { Request.zero 0x02 with record := i }
  | .add a b => some { Request.zero 0x10 with v0 := a, v1 := b }
  | .sub a b => some { Request.zero 0x11 with v0 := a, v1 := b }
  | .mul a b => some { Request.zero 0x12 with v0 := a, v1 := b }
  | .neg a => some { Request.zero 0x13 with v0 := a }
  | .inv a => some { Request.zero 0x14 with v0 := a }
  | .div a b => some { Request.zero 0x15 with v0 := a, v1 := b }
  | .eq a b => some { Request.zero 0x16 with v0 := a, v1 := b }
  | .lt a b => some { Request.zero 0x17 with v0 := a, v1 := b }
  | .reduce n => some { Request.zero 0x18 with n := n }
  | .toUint a k => some { Request.zero 0x19 with v0 := a, widthLess1 := k - 1 }
  | .toInt a k => some { Request.zero 0x1A with v0 := a, widthLess1 := k - 1 }
  | .rcCheck v => some { Request.zero 0x20 with v0 := v }
  | .sigVerify off pk msg => some { Request.zero 0x30 with off := off, v0 := pk, v1 := msg }
  | .sigSet off r s => some { Request.zero 0x31 with off := off, r := r, s := s }
  | .ecOp px py qx qy m =>
    some { Request.zero 0x40 with v0 := px, v1 := py, v2 := qx, v3 := qy, v4 := m }
  | .assertEq _ _ _ => none
  | .callAbs _ _ => none
  | .callRel _ _ => none
  | .call _ _ _ => none
  | .ret _ _ => none
  | .retAny _ _ _ => none
  | .nop _ => none
  | .jmpAbs _ _ => none
  | .jmpRel _ _ => none
  | .jnz _ _ => none
  | .apAdd _ => none
  | .nopApInc _ => none

/-! ### Both kinds together -/

/-- The encoder of every instruction. -/
def encode (i : Instr) : Encoded :=
  match i.record, encodeRequest i with
  | some r, _ => .word (BitVec.ofNat 64 (encodeRecord r))
  | none, some q => .request q
  | none, none => .word 0

/-- The decoder of every instruction. -/
def decode (p : Params) : Encoded → Option Instr
  | .word w => decodeWord p w.toNat
  | .request q => decodeRequest q

/-- The decoder on the opcode table's numbering: a row of at most 8 bits is a command code with zero
operands, any other an instruction word (log 5). -/
def decodeTableWord (nbits w : Nat) : Option Instr :=
  if nbits ≤ 8 then decodeRequest (Request.zero (BitVec.ofNat 8 w)) else decodeWord Config.params w

end Sys2Proof
end

