-- ==== Sys2Proof/Machine/Field.lean ====
section
/-! DEFINITION. The operations of the Field Arithmetic Unit over GF(P), P an argument
(spec/41_field_arith.md R136 to R148). -/

namespace Sys2Proof.Machine

/-- `acc * b ^ e mod m` by squaring, for `e < 2 ^ fuel`. -/
def powModAcc (m : Nat) : Nat → Nat → Nat → Nat → Nat
  | 0, _, _, acc => acc
  | fuel + 1, b, e, acc =>
    powModAcc m fuel (b * b % m) (e / 2) (if e % 2 = 1 then acc * b % m else acc)

/-- `b ^ e mod m`. -/
def powMod (m b e : Nat) : Nat := powModAcc m (Nat.log2 e + 1) b e (1 % m)

/-- Euclid's algorithm on remainders `r0`, `r1` with `t0 * s = r0` and `t1 * s = r1` modulo `m`: at the end the
cofactor of the greatest common divisor. -/
def euclid (m : Nat) : Nat → Nat → Nat → Nat → Nat → Nat
  | 0, _, _, t0, _ => t0
  | fuel + 1, r0, r1, t0, t1 =>
    if r1 = 0 then t0
    else euclid m fuel r1 (r0 % r1) t1 ((t0 + (m - r0 / r1 * t1 % m)) % m)

/-- The inverse of `s` modulo `m`, where there is one: two rounds at least halve the remainder. -/
def invMod (m s : Nat) : Nat := euclid m (2 * (Nat.log2 m + 1)) m (s % m) 0 1

namespace Fau

/-- ADD (R138). -/
def add (P : Nat) (a b : Felt) : Felt := Felt.ofNat P (a.val + b.val)

/-- SUB (R139): the non-negative residue of `a - b`. -/
def sub (P : Nat) (a b : Felt) : Felt := Felt.ofInt P ((a.val : Int) - b.val)

/-- MUL (R140). -/
def mul (P : Nat) (a b : Felt) : Felt := Felt.ofNat P (a.val * b.val)

/-- NEG (R141): `(P - a) mod P`. -/
def neg (P : Nat) (a : Felt) : Felt := Felt.ofInt P ((P : Int) - a.val)

/-- The value of INV for a non-zero operand: the x with `a * x mod P = 1` (R142). -/
def invValue (P : Nat) (a : Felt) : Felt := ⟨invMod P a.val⟩

/-- INV (R142). -/
def inv (P : Nat) (a : Felt) : Res Felt :=
  if a.val = 0 then .fail (.divisionByZero [a]) else .ok (invValue P a)

/-- DIV (R143). -/
def div (P : Nat) (a b : Felt) : Res Felt :=
  if b.val = 0 then .fail (.divisionByZero [a, b]) else .ok (mul P a (invValue P b))

/-- EQ (R144), on canonical values. -/
def eq (a b : Felt) : Bool := decide (a.val = b.val)

/-- LT (R145), on canonical values as naturals (D10). -/
def lt (a b : Felt) : Bool := decide (a.val < b.val)

/-- REDUCE (R146). -/
def reduce (P : Nat) (n : Int) : Felt := Felt.ofInt P n

/-- TO_UINT (R147). -/
def toUint (a : Felt) (k : Nat) : Res Nat :=
  if a.val ≤ 2 ^ k - 1 then .ok a.val else .fail (.overflow (.conversion a k))

/-- TO_INT (R148): the top `2^(k-1)` residues are negative (D11). -/
def toInt (P : Nat) (a : Felt) (k : Nat) : Res Int :=
  if a.val ≤ 2 ^ (k - 1) - 1 then .ok (a.val : Int)
  else if (P : Int) - 2 ^ (k - 1) ≤ (a.val : Int) then .ok ((a.val : Int) - P)
  else .fail (.overflow (.conversion a k))

end Fau
end Sys2Proof.Machine
end

