-- ==== Sys2Proof/Machine/Address.lean ====
section
/-! DEFINITION. Address arithmetic and the MaybeRel operators (spec/20_memory.md R49 to R58). -/

namespace Sys2Proof.Machine

/-- The number of offsets, and of segments: 2^32 (R47). -/
def u32Size : Nat := 4294967296

/-- `Rel(s, o)` with a computed offset known to lie in range. -/
def withOff (r : Rel) (o : Nat) : Rel := ⟨r.seg, BitVec.ofNat 32 o⟩

/-- addInt (R50): a signed integer added to an address, checked. -/
def addInt (r : Rel) (k : Int) : Res Rel :=
  if 0 ≤ k then
    if (r.off.toNat : Int) + k ≤ 4294967295 then .ok (withOff r (r.off.toNat + k.toNat))
    else .fail (.overflow (.address r (.int k)))
  else if -k ≤ (r.off.toNat : Int) then .ok (withOff r (r.off.toNat - (-k).toNat))
  else .fail (.underflow r (.int k))

/-- addFelt (R51), in the two readings of FELT_OFFSET_MODE (R58). -/
def addFelt (par : Params) (r : Rel) (v : Felt) : Res Rel :=
  match par.feltOffsetMode with
  | .unsigned32 =>
    if v.val < u32Size ∧ r.off.toNat + v.val < u32Size then .ok (withOff r (r.off.toNat + v.val))
    else .fail (.overflow (.address r (.val (.felt v))))
  | .fieldWrap =>
    if (r.off.toNat + v.val) % par.prime < u32Size then
      .ok (withOff r ((r.off.toNat + v.val) % par.prime))
    else .fail (.overflow (.address r (.val (.felt v))))

/-- The offset of subFelt in the reading FieldWrap (R52): `(offset - v) mod P`. -/
def wrapSub (P : Nat) (r : Rel) (v : Felt) : Nat := (Felt.ofInt P ((r.off.toNat : Int) - v.val)).val

/-- subFelt (R52), in the two readings of FELT_OFFSET_MODE (R58). -/
def subFelt (par : Params) (r : Rel) (v : Felt) : Res Rel :=
  match par.feltOffsetMode with
  | .unsigned32 =>
    if v.val < u32Size then
      if v.val ≤ r.off.toNat then .ok (withOff r (r.off.toNat - v.val))
      else .fail (.underflow r (.val (.felt v)))
    else .fail (.overflow (.address r (.val (.felt v))))
  | .fieldWrap =>
    if wrapSub par.prime r v < u32Size then .ok (withOff r (wrapSub par.prime r v))
    else .fail (.underflow r (.val (.felt v)))

/-- subRel (R54): the segment check comes first (D42). -/
def subRel (par : Params) (a b : Rel) : Res Felt :=
  if a.seg = b.seg then
    if b.off.toNat ≤ a.off.toNat then .ok (Felt.ofNat par.prime (a.off.toNat - b.off.toNat))
    else .fail (.underflow a (.val (.rel b)))
  else .fail (.segmentMismatch a b)

/-- `a ⊕ b` (R57). -/
def mrAdd (par : Params) (a b : MaybeRel) : Res MaybeRel :=
  match a, b with
  | .felt x, .felt y => .ok (.felt (Fau.add par.prime x y))
  | .rel r, .felt y => (addFelt par r y).bind fun t => .ok (.rel t)
  | .felt x, .rel r => (addFelt par r x).bind fun t => .ok (.rel t)
  | .rel _, .rel _ => .fail (.forbiddenOperation a b)

/-- `a ⊖ b` (R57). -/
def mrSub (par : Params) (a b : MaybeRel) : Res MaybeRel :=
  match a, b with
  | .felt x, .felt y => .ok (.felt (Fau.sub par.prime x y))
  | .rel r, .felt y => (subFelt par r y).bind fun t => .ok (.rel t)
  | .felt _, .rel _ => .fail (.forbiddenOperation a b)
  | .rel r, .rel t => (subRel par r t).bind fun v => .ok (.felt v)

/-- `a ⊗ b` (R57). -/
def mrMul (par : Params) (a b : MaybeRel) : Res MaybeRel :=
  match a, b with
  | .felt x, .felt y => .ok (.felt (Fau.mul par.prime x y))
  | _, _ => .fail (.forbiddenOperation a b)

/-- `a ⊘ b` (R57). -/
def mrDiv (par : Params) (a b : MaybeRel) : Res MaybeRel :=
  match a, b with
  | .felt x, .felt y => (Fau.div par.prime x y).bind fun v => .ok (.felt v)
  | _, _ => .fail (.forbiddenOperation a b)

end Sys2Proof.Machine
end

