-- ==== Sys2Proof/Machine/Cfg.lean ====
section
/-! DEFINITION. The fields of CFG (spec/10_state.md R27, R28), the builtin segments they give
(spec/20_memory.md R70), and the operand typing of the unit ports (spec/30_encoding.md R106). -/

namespace Sys2Proof.Machine

/-- CFG.RC_ACTIVE. -/
def rcActive (cfg : BitVec 16) : Bool := cfg.getLsbD 0

/-- CFG.SIG_ACTIVE. -/
def sigActive (cfg : BitVec 16) : Bool := cfg.getLsbD 1

/-- CFG.EC_ACTIVE. -/
def ecActive (cfg : BitVec 16) : Bool := cfg.getLsbD 2

/-- The reserved bits 7:3 of CFG. -/
def cfgReserved (cfg : BitVec 16) : BitVec 5 := cfg.extractLsb' 3 5

/-- CFG.RC_BOUND_EXP. -/
def rcBoundExp (cfg : BitVec 16) : Nat := (cfg.extractLsb' 8 8).toNat

/-- A CFG value the launch accepts (R28). -/
def cfgLegal (cfg : BitVec 16) : Bool :=
  decide (rcBoundExp cfg ≤ Config.maxBoundExp) && decide (cfgReserved cfg = 0)

/-- The RCU's segment (R70). -/
def rcSegment (cfg : BitVec 16) : Option Nat := if rcActive cfg then some 2 else none

/-- The SVU's segment (R70). -/
def sigSegment (cfg : BitVec 16) : Option Nat :=
  if sigActive cfg then some (2 + (rcActive cfg).toNat) else none

/-- The ECU's segment (R70). -/
def ecSegment (cfg : BitVec 16) : Option Nat :=
  if ecActive cfg then some (2 + (rcActive cfg).toNat + (sigActive cfg).toNat) else none

/-- Segments at the start of a run: 0, 1 and one per active builtin (R70). -/
def initialSegments (cfg : BitVec 16) : Nat :=
  2 + (rcActive cfg).toNat + (sigActive cfg).toNat + (ecActive cfg).toNat

/-- A Felt-only port (R106): a Relocatable on it is refused. -/
def feltPort (v : MaybeRel) : Res Felt :=
  match v with
  | .felt x => .ok x
  | .rel _ => .refuse .relocatableOperand

end Sys2Proof.Machine
end

