-- ==== Sys2Proof/Machine/Curve.lean ====
section
/-! DEFINITION. The curve shared by the SVU and the ECU, over the field and with the constants that the
parameters give (spec/43_curve.md R171 to R178; log 8). -/

namespace Sys2Proof.Machine

/-- α of R171. -/
def curveAlpha (par : Params) : Felt := Felt.ofNat par.prime par.curve.alpha

/-- β of R171. -/
def curveBeta (par : Params) : Felt := Felt.ofNat par.prime par.curve.beta

/-- G of R172. -/
def generator (par : Params) : Point :=
  ⟨Felt.ofNat par.prime par.curve.genX, Felt.ofNat par.prime par.curve.genY⟩

/-- ySquared (R178): `x^3 + α x + β`. -/
def ySquared (par : Params) (x : Felt) : Felt :=
  Fau.add par.prime
    (Fau.add par.prime (Fau.mul par.prime (Fau.mul par.prime x x) x) (Fau.mul par.prime (curveAlpha par) x))
    (curveBeta par)

/-- onCurve (R173). -/
def onCurve (par : Params) (p : Point) : Bool := decide (Fau.mul par.prime p.y p.y = ySquared par p.x)

/-- negate (R174). -/
def ecNegate (par : Params) (p : Point) : Point := ⟨p.x, Fau.neg par.prime p.y⟩

/-- ecAddDistinct (R175). It does not check that its inputs are on the curve; with equal x its division
fails. -/
def ecAddDistinct (par : Params) (p q : Point) : Res Point :=
  (Fau.div par.prime (Fau.sub par.prime q.y p.y) (Fau.sub par.prime q.x p.x)).bind fun l =>
    let x3 := Fau.sub par.prime (Fau.sub par.prime (Fau.mul par.prime l l) p.x) q.x
    .ok ⟨x3, Fau.sub par.prime (Fau.mul par.prime l (Fau.sub par.prime p.x x3)) p.y⟩

/-- The numerator of λ in R176. -/
def tangentRise (par : Params) (p : Point) : Felt :=
  Fau.add par.prime (Fau.mul par.prime (Felt.ofNat par.prime 3) (Fau.mul par.prime p.x p.x)) (curveAlpha par)

/-- The denominator of λ in R176. -/
def tangentRun (par : Params) (p : Point) : Felt := Fau.mul par.prime (Felt.ofNat par.prime 2) p.y

/-- ecDouble (R176): DivisionByZero if y = 0. -/
def ecDouble (par : Params) (p : Point) : Res Point :=
  (Fau.div par.prime (tangentRise par p) (tangentRun par p)).bind fun l =>
    let x3 := Fau.sub par.prime (Fau.mul par.prime l l) (Fau.mul par.prime (Felt.ofNat par.prime 2) p.x)
    .ok ⟨x3, Fau.sub par.prime (Fau.mul par.prime l (Fau.sub par.prime p.x x3)) p.y⟩

/-- A point of the group: none is O (R173). -/
abbrev GroupPoint := Option Point

/-- The group law (R177). -/
def groupAdd (par : Params) (a b : GroupPoint) : Res GroupPoint :=
  match a, b with
  | none, q => .ok q
  | p, none => .ok p
  | some p, some q =>
    if p.x = q.x then
      if q.y = Fau.neg par.prime p.y then .ok none
      else if q.y = p.y then (ecDouble par p).bind fun t => .ok (some t)
      else (ecAddDistinct par p q).bind fun t => .ok (some t)
    else (ecAddDistinct par p q).bind fun t => .ok (some t)

/-- `acc + k·q` for `k < 2 ^ fuel`, by doubling: the k-fold sum of R177 by the group law (log 19). -/
def groupMulAdd (par : Params) : Nat → Nat → GroupPoint → GroupPoint → Res GroupPoint
  | 0, _, _, acc => .ok acc
  | fuel + 1, k, q, acc =>
    if k = 0 then .ok acc
    else
      (if k % 2 = 1 then groupAdd par acc q else .ok acc).bind fun acc' =>
        (groupAdd par q q).bind fun q' => groupMulAdd par fuel (k / 2) q' acc'

/-- `k·Q` (R177; log 19). -/
def groupMul (par : Params) (k : Nat) (q : GroupPoint) : Res GroupPoint :=
  groupMulAdd par (Nat.log2 k + 1) k q none

/-! ### Square roots (log 20) -/

/-- `a ^ (2 ^ n)`. -/
def squareTimes (P : Nat) : Nat → Felt → Felt
  | 0, a => a
  | n + 1, a => squareTimes P n (Fau.mul P a a)

/-- One bit a round (Tonelli and Shanks): with `c` of order `2 ^ (n + 1)` and `t` of order dividing
`2 ^ n`, turn `r * r = a * t` into `r * r = a`. -/
def sqrtLoop (P : Nat) : Nat → Felt → Felt → Felt → Felt
  | 0, r, _, _ => r
  | n + 1, r, t, c =>
    let c2 := Fau.mul P c c
    if (squareTimes P n t).val = 1 then sqrtLoop P n r t c2
    else sqrtLoop P n (Fau.mul P r c) (Fau.mul P t c2) c2

/-- The greatest power of two that divides `P - 1`. -/
def twoPart (P : Nat) : Nat := Nat.gcd (P - 1) (2 ^ Nat.log2 (P - 1))

/-- The odd part of `P - 1`. -/
def oddPart (P : Nat) : Nat := (P - 1) / twoPart P

/-- The first number from `z` on that Euler's criterion shows to be no square modulo P, among `fuel` of them. -/
def nonResidue (P : Nat) : Nat → Nat → Nat
  | 0, z => z
  | fuel + 1, z => if powMod P z ((P - 1) / 2) = P - 1 then z else nonResidue P fuel (z + 1)

/-- A square root of `a` modulo the prime P if there is one; the loop's answer is checked, so a non-residue
gives none (R178; log 20). -/
def sqrt (P : Nat) (a : Felt) : Option Felt :=
  let r := sqrtLoop P (Nat.log2 (twoPart P) - 1)
    ⟨powMod P a.val ((oddPart P + 1) / 2)⟩ ⟨powMod P a.val (oddPart P)⟩
    ⟨powMod P (nonResidue P P 2) (oddPart P)⟩
  if Fau.mul P r r = a then some r else none

/-- candidates (R178): the points with this x, the smaller y first. -/
def candidates (par : Params) (x : Felt) : List Point :=
  match sqrt par.prime (ySquared par x) with
  | none => []
  | some y =>
    let z := Fau.neg par.prime y
    if y = z then [⟨x, y⟩]
    else if y.val < z.val then [⟨x, y⟩, ⟨x, z⟩]
    else [⟨x, z⟩, ⟨x, y⟩]

end Sys2Proof.Machine
end

