-- ==== Sys2Proof/Machine/EcOp.lean ====
section
/-! DEFINITION. The operation of the Elliptic-Curve Operation Unit (spec/45_ec_op.md R196 to R201). -/

namespace Sys2Proof.Machine

/-- The failure of a doubling with y = 0: the `n`-th draw between two kinds (R200; log 10). -/
def doublingFailure (par : Params) (n : Nat) (p q : Point) (m : Felt) (dbl : Point) : Failure :=
  if Config.draw n % 2 = 0 then .ladderFailure p q m
  else .divisionByZero [tangentRise par dbl, tangentRun par dbl]

/-- The iterations of R196 that remain: the partial sum, the doubled point and the remaining scalar. The
test on x is made at each, whatever the scalar's bit. -/
def ladder (par : Params) (n : Nat) (p q : Point) (m : Felt) : Nat → Point → Point → Nat → Res Point
  | 0, acc, _, k => if k = 0 then .ok acc else .fail (.ladderFailure p q m)
  | h + 1, acc, dbl, k =>
    if dbl.x = acc.x then .fail (.ladderFailure p q m)
    else
      (if k % 2 = 1 then ecAddDistinct par acc dbl else .ok acc).bind fun acc' =>
        if dbl.y.val = 0 then .fail (doublingFailure par n p q m dbl)
        else (ecDouble par dbl).bind fun dbl' => ladder par n p q m h acc' dbl' (k / 2)

/-- EC_OP (R196) on Felts, with the curve check and the height that the parameters give. -/
def ecOpFelts (par : Params) (n : Nat) (p q : Point) (m : Felt) : Res Point :=
  if par.ecCheckOnCurve ∧ ¬ onCurve par p then .fail (.pointNotOnCurve p)
  else if par.ecCheckOnCurve ∧ ¬ onCurve par q then .fail (.pointNotOnCurve q)
  else ladder par n p q m par.ecHeight p q m.val

/-- EC_OP (R196) at its port: inactive unit first (R246), then the operand typing (R106, R204; log 17). -/
def ecOp (cfg : BitVec 16) (par : Params) (n : Nat) (px py qx qy m : MaybeRel) : Res Point :=
  if ecActive cfg then
    (feltPort px).bind fun x1 => (feltPort py).bind fun y1 => (feltPort qx).bind fun x2 =>
      (feltPort qy).bind fun y2 => (feltPort m).bind fun k => ecOpFelts par n ⟨x1, y1⟩ ⟨x2, y2⟩ k
  else .refuse .inactiveUnit

end Sys2Proof.Machine
end

