-- ==== Sys2Proof/Machine/RangeCheck.lean ====
section
/-! DEFINITION. The operation of the Range-Check Unit (spec/42_range_check.md R161, R162). -/

namespace Sys2Proof.Machine

/-- RC_CHECK (R161). A Relocatable is never accepted (R162). -/
def rcCheck (cfg : BitVec 16) (v : MaybeRel) : Res Unit :=
  if rcActive cfg then
    match v with
    | .felt x =>
      if x.val < 2 ^ rcBoundExp cfg then .ok ()
      else .fail (.rangeCheckOutOfBounds v (2 ^ rcBoundExp cfg))
    | .rel _ => .fail (.rangeCheckOutOfBounds v (2 ^ rcBoundExp cfg))
  else .refuse .inactiveUnit

end Sys2Proof.Machine
end

