-- ==== Sys2Proof/Machine/Signature.lean ====
section
/-! DEFINITION. The operations of the Signature Verification Unit (spec/44_signature.md R181 to R189). -/

namespace Sys2Proof.Machine

/-- The entry of a sorted list under a key. -/
def tableLookup {α : Type} : List (Nat × α) → Nat → Option α
  | [], _ => none
  | e :: rest, k => if e.1 = k then some e.2 else tableLookup rest k

/-- The list with the entry of a key set, kept in rising order of keys. -/
def tableInsert {α : Type} : List (Nat × α) → Nat → α → List (Nat × α)
  | [], k, v => [(k, v)]
  | e :: rest, k, v =>
    if k < e.1 then (k, v) :: e :: rest
    else if e.1 = k then (k, v) :: rest
    else e :: tableInsert rest k v

/-- ecdsaVerify (R183). The x-coordinate is compared without reduction modulo N. -/
def ecdsaVerify (par : Params) (z : Felt) (r s : Nat) (q : Point) : Bool :=
  if ¬ (1 ≤ r ∧ r < 2 ^ Config.ecdsaBits) then false
  else if ¬ (1 ≤ s ∧ s < par.curve.order) then false
  else if ¬ z.val < 2 ^ Config.ecdsaBits then false
  else
    let w := invMod par.curve.order s
    if ¬ (1 ≤ w ∧ w < 2 ^ Config.ecdsaBits) then false
    else
      let sum :=
        (groupMul par (z.val * w % par.curve.order) (some (generator par))).bind fun a =>
          (groupMul par (r * w % par.curve.order) (some q)).bind fun b => groupAdd par a b
      match sum with
      | .ok (some p) => decide (p.x.val = r)
      | _ => false

/-- The predicate SIG_VERIFY of R189. -/
def sigPredicate (par : Params) (z : Felt) (r s : Nat) (q : Point) : Bool :=
  match par.sigScheme with
  | .starkEcdsa => ecdsaVerify par z r s q
  | .other id => Config.otherPredicate id z r s q

/-- SIG_VERIFY (R184) on Felts: the table, the entry, then the candidates. -/
def sigVerifyFelts (par : Params) (tab : Option (List (Nat × Sig))) (off : U32) (pk msg : Felt) : Res Unit :=
  match tab with
  | none => .fail .undefinedDictionary
  | some t =>
    match tableLookup t off.toNat with
    | none => .fail (.undefinedSignature off)
    | some sig =>
      if (candidates par pk).any (sigPredicate par msg sig.r.toNat sig.s.toNat) then .ok ()
      else .fail (.invalidSignature sig.r.toNat sig.s.toNat msg (candidates par pk))

/-- SIG_VERIFY (R184) at its port: inactive unit first (R246), then the operand typing (R106, R188;
log 17). -/
def sigVerify (cfg : BitVec 16) (par : Params) (tab : Option (List (Nat × Sig))) (off : U32)
    (pk msg : MaybeRel) : Res Unit :=
  if sigActive cfg then
    (feltPort pk).bind fun x => (feltPort msg).bind fun z => sigVerifyFelts par tab off x z
  else .refuse .inactiveUnit

/-- SIG_SET (R185): the first call creates the table, a later one replaces an earlier entry. -/
def sigSet (tab : Option (List (Nat × Sig))) (off : U32) (sig : Sig) : List (Nat × Sig) :=
  tableInsert (tab.getD []) off.toNat sig

end Sys2Proof.Machine
end

