-- ==== Sys2Proof/Machine/Ops.lean ====
section
/-! DEFINITION. Memory with its builtin segments (spec/20_memory.md R61 to R73, the bindings R165, R190,
R203), and the updates of State: commit, failure, refusal, a unit's answer (spec/46_execution.md R234,
spec/60_exceptions.md R248, R251). -/

namespace Sys2Proof.Machine

/-! ### Cells -/

/-- The key of a cell: segment * 2^32 + offset (log 14). -/
def cellKey (a : Rel) : Nat := a.seg.toNat * 4294967296 + a.off.toNat

/-- The canonical form of MEM: keys strictly rising, every filled cell in an existing segment, at most
2^32 segments (R61, R62, R64; log 14). -/
abbrev Memory.wf (m : Memory) : Prop :=
  m.cells.Pairwise (fun x y => x.1 < y.1) ∧ (∀ c ∈ m.cells, c.1 < m.count * 4294967296) ∧
  m.count ≤ 4294967296

/-- Segment s exists iff s < MEM.count (R61). -/
abbrev Memory.hasSegment (m : Memory) (a : Rel) : Prop := a.seg.toNat < m.count

/-- MemPeek (R64): the value, or none if the cell is empty or its segment absent. -/
def Memory.peek (m : Memory) (a : Rel) : Option MaybeRel :=
  if m.hasSegment a then tableLookup m.cells (cellKey a) else none

/-- MemRead (R66). -/
def Memory.read (m : Memory) (a : Rel) : Res MaybeRel :=
  match m.peek a with
  | some v => .ok v
  | none => .fail (.undefinedValue (.cell a))

/-- Fill a cell. A segment grows to hold it (R64); its length is one more than its highest filled offset
and nothing reads it (log 14). -/
def Memory.set (m : Memory) (a : Rel) (v : MaybeRel) : Memory :=
  { m with cells := tableInsert m.cells (cellKey a) v }

/-- assertEq on a cell without builtin validation (R67): UnallocatedSegment, InconsistentMemory, or a
filled cell. -/
def Memory.assertEq (m : Memory) (a : Rel) (v : MaybeRel) : Res Memory :=
  if m.hasSegment a then
    match m.peek a with
    | none => .ok (m.set a v)
    | some c => if c = v then .ok m else .fail (.inconsistentMemory a c v)
  else .refuse .unallocatedSegment

/-- allocateSegment (R62): the index returned is the old count. -/
def Memory.allocate (m : Memory) : Res (Nat × Memory) :=
  if m.count < 4294967296 then .ok (m.count, { m with count := m.count + 1 })
  else .refuse .segmentSpaceExhausted

/-! ### The ECU's cells (R203) -/

/-- The cell of an instance of the segment of `a`, by offset. -/
def cellAt (a : Rel) (o : Nat) : Rel := withOff a o

/-- The instance `k` of R203 if `a` is an output cell 7k + 5 or 7k + 6 of the ECU's segment. -/
def ecOutput (cfg : BitVec 16) (a : Rel) : Option Nat :=
  if ecSegment cfg = some a.seg.toNat ∧ 5 ≤ a.off.toNat % 7 then some (a.off.toNat / 7) else none

/-- EC_OP on the five input cells of instance `k`; none if one of them is empty (R203). -/
def ecDeduce (s : State) (m : Memory) (a : Rel) (k : Nat) : Option (Res Point) :=
  match m.peek (cellAt a (7 * k)), m.peek (cellAt a (7 * k + 1)), m.peek (cellAt a (7 * k + 2)),
    m.peek (cellAt a (7 * k + 3)), m.peek (cellAt a (7 * k + 4)) with
  | some px, some py, some qx, some qy, some c =>
    some (ecOp s.cfg s.params s.draws px py qx qy c)
  | _, _, _, _, _ => none

/-- The coordinate an output cell holds: 7k + 5 is R.x, 7k + 6 is R.y (R203). -/
def ecCoordinate (a : Rel) (p : Point) : MaybeRel :=
  if a.off.toNat % 7 = 5 then .felt p.x else .felt p.y

/-- resolve (R213): the cell's value or none; an empty output cell of the ECU is deduced, which fills both
outputs, and with an empty input the read fails (R203). -/
def resolve (s : State) (m : Memory) (a : Rel) : Res (Option MaybeRel × Memory) :=
  match m.peek a with
  | some v => .ok (some v, m)
  | none =>
    match ecOutput s.cfg a with
    | none => .ok (none, m)
    | some k =>
      match ecDeduce s m a k with
      | none => .fail (.undefinedValue (.cell a))
      | some r =>
        r.bind fun p =>
          (m.assertEq (cellAt a (7 * k + 5)) (.felt p.x)).bind fun m1 =>
            (m1.assertEq (cellAt a (7 * k + 6)) (.felt p.y)).bind fun m2 =>
              .ok (some (ecCoordinate a p), m2)

/-! ### MemWrite with the builtin validations -/

/-- The key and operands of the SIG_VERIFY that a write to the SVU's segment is followed by, if both cells
of its instance are filled (R190). -/
def sigInstance (m : Memory) (a : Rel) : Option (U32 × MaybeRel × MaybeRel) :=
  let k := a.off.toNat / 2
  match m.peek (cellAt a (2 * k)), m.peek (cellAt a (2 * k + 1)) with
  | some pk, some msg => some (BitVec.ofNat 32 (2 * k), pk, msg)
  | _, _ => none

/-- The validation that follows a write that filled cell `a` with `v`, `m` holding it (R165, R190). -/
def validate (s : State) (m : Memory) (a : Rel) (v : MaybeRel) : Res Unit :=
  if rcSegment s.cfg = some a.seg.toNat then rcCheck s.cfg v
  else if sigSegment s.cfg = some a.seg.toNat then
    match sigInstance m a with
    | none => .ok ()
    | some (off, pk, msg) => sigVerify s.cfg s.params s.sigTab off pk msg
  else .ok ()

/-- MemWrite (R67) with the bindings of the builtin segments: the validations of the RCU and the SVU
(R165, R190), and the ECU's outputs, which must equal the deduced value and may not precede their inputs
(R203; log 16). -/
def memWrite (s : State) (m : Memory) (a : Rel) (v : MaybeRel) : Res Memory :=
  if m.hasSegment a then
    match m.peek a with
    | some c => if c = v then .ok m else .fail (.inconsistentMemory a c v)
    | none =>
      match ecOutput s.cfg a with
      | none => (validate s (m.set a v) a v).bind fun _ => .ok (m.set a v)
      | some k =>
        match ecDeduce s m a k with
        | none => .refuse .ecOutputBeforeInputs
        | some r =>
          r.bind fun p =>
            if ecCoordinate a p = v then .ok (m.set a v)
            else .fail (.inconsistentMemory a (ecCoordinate a p) v)
  else .refuse .unallocatedSegment

/-- A value as the host's side offers it, an operand of a command or what a hint writes: a raw natural is reduced
by whoever constructs the Felt (R137). -/
def State.operand (s : State) (v : MaybeRel) : MaybeRel := v.reduce s.params.prime

/-- MemWrite by the host, whose address may be a Felt: a Felt is refused (R65). -/
def memWriteAt (s : State) (m : Memory) (a v : MaybeRel) : Res Memory :=
  match a with
  | .rel r => memWrite s m r (s.operand v)
  | .felt _ => .refuse .feltAddress

/-! ### Updates of State -/

/-- Commit of a step: its writes and register updates at once (R234). -/
def State.commit (s : State) (mem : Memory) (pc ap fp : Rel) : State :=
  { s with mem := mem, pc := pc, ap := ap, fp := fp }

/-- Taking a failure (R234, R248), the one shared operation: STATUS records the kind and its info; MEM, pc,
ap and fp keep their values; there is no cause register, vector or mode (R248), and no return (R249). The
draw counter moves on, for a draw may have decided the kind (log 10). -/
def State.fail (s : State) (f : Failure) : State :=
  { s with status := .failed f, draws := s.draws + 1 }

/-- Taking a refusal (R234, R251): as a failure, with STATUS refused. -/
def State.refuse (s : State) (r : Refuse) : State := { s with status := .refused r }

/-- The run ends (R208, R274, R275). -/
def State.halt (s : State) : State := { s with status := .halted }

/-- A unit's outcome on the port (R14, R105; log 1). -/
def State.answer (s : State) (o : UnitOutcome) : State := { s with unitOut := some o }

/-- A unit's failure on the port. The draw counter moves on (log 10). -/
def State.answerFail (s : State) (f : Failure) : State :=
  { s with unitOut := some (.fail f), draws := s.draws + 1 }

/-- The pending command leaves the port (log 1). -/
def State.takeRequest (s : State) : State := { s with port := none }

/-- SIG_TAB after SIG_SET (R185). -/
def State.setSigTab (s : State) (t : List (Nat × Sig)) : State := { s with sigTab := some t }

/-- Boot step 7: the run has started (R272). -/
def State.start (s : State) : State := { s with started := true }

/-- The state a step's instruction starts from: MEM after the hints, the run started (R210, R272). -/
def State.begin (s : State) (mem : Memory) (nHints : Nat) : State :=
  { s with mem := mem, started := true, hintRuns := s.hintRuns + nHints }

/-- How a step ends (R234): committed, failed or refused. -/
def stepOutcome (s : State) (r : Res State) : Host.Outcome State Fault Refusal :=
  match r with
  | .ok t => .next t
  | .fail f => .next (s.fail f)
  | .refuse q => .next (s.refuse q)

/-- How a unit command ends (R14): its outcome on the port, nothing else changed but the draw counter after
a failure (log 2, log 10). -/
def unitOutcome (s : State) (r : Res UnitValue) : Host.Outcome State Fault Refusal :=
  match r with
  | .ok v => .next (s.answer (.ok v))
  | .fail f => .next (s.answerFail f)
  | .refuse q => .next (s.answer (.refused q))

/-- The restoration of R234: a failed or refused step leaves MEM, pc, ap and fp as `save` has them, from
before the hint step. -/
def State.restoreOnAbort (save t : State) : State :=
  match t.status with
  | .failed _ => { t with mem := save.mem, pc := save.pc, ap := save.ap, fp := save.fp }
  | .refused _ => { t with mem := save.mem, pc := save.pc, ap := save.ap, fp := save.fp }
  | _ => t

/-- The restoration on an outcome. -/
def restoreOutcome (save : State) (o : Host.Outcome State Fault Refusal) :
    Host.Outcome State Fault Refusal :=
  match o with
  | .next t => .next (save.restoreOnAbort t)
  | .fault f => .fault f
  | .refused r => .refused r

end Sys2Proof.Machine
end

