-- ==== Sys2Proof/Machine/Operands.lean ====
section
/-! DEFINITION. Operand addresses, operand values, inference and res: sub-steps (c) and (d) of
spec/46_execution.md R207 (R212 to R221). -/

namespace Sys2Proof.Machine

/-- UndefinedValue carrying the instruction's pc (R241; log 21). -/
def undefinedHere {α : Type} (s : State) : Res α := .fail (.undefinedValue (.instruction s.pc))

/-- The base register of dst or op0 (R84, R212). -/
def baseValue (s : State) (b : BaseReg) : Rel :=
  match b with
  | .ap => s.ap
  | .fp => s.fp

/-- computeAddress (R212). -/
def computeAddress (s : State) (b : BaseReg) (off : BitVec 16) : Res Rel :=
  addInt (baseValue s b) off.toInt

/-- computeOp1Address (R214). -/
def computeOp1Address (s : State) (src : Op1Src) (off : BitVec 16) (op0 : Option MaybeRel) : Res Rel :=
  match src with
  | .fp => addInt s.fp off.toInt
  | .ap => addInt s.ap off.toInt
  | .imm => if off.toInt = 1 then addInt s.pc off.toInt else .fail (.immediateOffsetMismatch off.toInt)
  | .op0 =>
    match op0 with
    | none => .fail .op0Undefined
    | some (.rel r) => addInt r off.toInt
    | some (.felt v) => .fail (.op0NotAddress (.felt v))

/-- The address after the instruction: `addInt(pc, sz)` (R216, R223, R228). -/
def nextPc (i : Instruction) (s : State) : Res Rel := addInt s.pc i.size

/-- The operand values after inference, the inferred cell still to be written (R220, R226), and memory
after the reads (a read of an ECU output fills cells, R203). -/
structure Operands where
  dstA : Rel
  op0A : Rel
  dst : MaybeRel
  op0 : MaybeRel
  op1 : MaybeRel
  inferred : Option (Rel × MaybeRel)
  mem : Memory
  deriving DecidableEq, Repr

/-- op0 in the order of R207: resolved, and for Call an unresolved op0 is the return address (R216). -/
def fetchOp0 (i : Instruction) (s : State) (op0A : Rel) : Res (Option MaybeRel × Memory) :=
  (resolve s s.mem op0A).bind fun x =>
    match x.1 with
    | some v => .ok (some v, x.2)
    | none =>
      if i.opcode = .call then (nextPc i s).bind fun t => .ok (some (.rel t), x.2)
      else .ok (none, x.2)

/-- For Call an unresolved dst is the current fp (R216). -/
def callDst (i : Instruction) (s : State) (dst : Option MaybeRel) : Option MaybeRel :=
  match dst with
  | some v => some v
  | none => if i.opcode = .call then some (.rel s.fp) else none

/-- Inference of dst (R219, R220). -/
def inferDst (i : Instruction) (s : State) (op0 op1 : MaybeRel) : Res MaybeRel :=
  match i.resLogic with
  | .op1 => .ok op1
  | .add => mrAdd s.params op0 op1
  | .mul => mrMul s.params op0 op1
  | .unconstrained => undefinedHere s

/-- Inference of op1 (R219, R220). -/
def inferOp1 (i : Instruction) (s : State) (dst op0 : MaybeRel) : Res MaybeRel :=
  match i.resLogic with
  | .op1 => .ok dst
  | .add => mrSub s.params dst op0
  | .mul => mrDiv s.params dst op0
  | .unconstrained => undefinedHere s

/-- Inference of op0 (R219, R220); with Op1 nothing determines it. -/
def inferOp0 (i : Instruction) (s : State) (dst op1 : MaybeRel) : Res MaybeRel :=
  match i.resLogic with
  | .op1 => undefinedHere s
  | .add => mrSub s.params dst op1
  | .mul => mrDiv s.params dst op1
  | .unconstrained => undefinedHere s

/-- infer (R217 to R220): dst, op0, op1 and the inferred cell. Only AssertEq infers, and only one
unknown. -/
def infer (i : Instruction) (s : State) (op0A op1A : Rel) (dst op0 op1 : Option MaybeRel) :
    Res (MaybeRel × MaybeRel × MaybeRel × Option (Rel × MaybeRel)) :=
  match dst, op0, op1 with
  | some d, some a, some b => .ok (d, a, b, none)
  | none, some a, some b =>
    if i.opcode = .assertEq then (inferDst i s a b).bind fun d => .ok (d, a, b, none)
    else undefinedHere s
  | some d, some a, none =>
    if i.opcode = .assertEq then (inferOp1 i s d a).bind fun b => .ok (d, a, b, some (op1A, b))
    else undefinedHere s
  | some d, none, some b =>
    if i.opcode = .assertEq then (inferOp0 i s d b).bind fun a => .ok (d, a, b, some (op0A, a))
    else undefinedHere s
  | none, none, _ => undefinedHere s
  | none, _, none => undefinedHere s
  | _, none, none => undefinedHere s

/-- Sub-steps (c) and (d) up to the inference, in the order of R207. -/
def readOperands (i : Instruction) (s : State) : Res Operands :=
  (computeAddress s i.dstReg i.offDst).bind fun dstA =>
  (computeAddress s i.op0Reg i.offOp0).bind fun op0A =>
  (fetchOp0 i s op0A).bind fun r0 =>
  (computeOp1Address s i.op1Src i.offOp1 r0.1).bind fun op1A =>
  (resolve s r0.2 dstA).bind fun rd =>
  (resolve s rd.2 op1A).bind fun r1 =>
  (infer i s op0A op1A (callDst i s rd.1) r0.1 r1.1).bind fun v =>
    .ok
      { dstA := dstA
        op0A := op0A
        dst := v.1
        op0 := v.2.1
        op1 := v.2.2.1
        inferred := v.2.2.2
        mem := r1.2 }

/-- computeRes (R221): computed whenever resLogic is not Unconstrained (D44). -/
def computeRes (i : Instruction) (s : State) (o : Operands) : Res (Option MaybeRel) :=
  match i.resLogic with
  | .op1 => .ok (some o.op1)
  | .add => (mrAdd s.params o.op0 o.op1).bind fun v => .ok (some v)
  | .mul => (mrMul s.params o.op0 o.op1).bind fun v => .ok (some v)
  | .unconstrained => .ok none

end Sys2Proof.Machine
end

