-- ==== Sys2Proof/Machine/Vm.lean ====
section
/-! DEFINITION. Sub-steps (e) and (f) of spec/46_execution.md R207, the writes (R222 to R226) and the
register updates (R227 to R233), and the whole body of an instruction of the 64-bit format. -/

namespace Sys2Proof.Machine

/-- The inferred operand's write, first of a step's writes (R226). -/
def writeInferred (s : State) (o : Operands) : Res Memory :=
  match o.inferred with
  | none => .ok o.mem
  | some (a, v) => memWrite s o.mem a v

/-- AssertEq's write (R222). -/
def assertEqWrite (s : State) (o : Operands) (res : Option MaybeRel) (m : Memory) : Res Memory :=
  match res with
  | none => undefinedHere s
  | some v => memWrite s m o.dstA v

/-- Call's two writes (R223): fp to the dst cell, the return address to the op0 cell. -/
def callWrites (i : Instruction) (s : State) (o : Operands) (m : Memory) : Res Memory :=
  (memWrite s m o.dstA (.rel s.fp)).bind fun m1 =>
    (nextPc i s).bind fun t => memWrite s m1 o.op0A (.rel t)

/-- opcodeEffect (R222 to R226). Ret and NoOp write nothing (R224, R225). -/
def opcodeEffect (i : Instruction) (s : State) (o : Operands) (res : Option MaybeRel) : Res Memory :=
  (writeInferred s o).bind fun m =>
    match i.opcode with
    | .assertEq => assertEqWrite s o res m
    | .call => callWrites i s o m
    | .ret => .ok m
    | .noOp => .ok m

/-- An address plus a Felt operand; a Relocatable operand is `Rel + Rel` (R49, R230 to R232). -/
def relPlus (s : State) (r : Rel) (v : MaybeRel) : Res Rel :=
  match v with
  | .felt x => addFelt s.params r x
  | .rel _ => .fail (.forbiddenOperation (.rel r) v)

/-- pcUpdate (R228 to R231). An absolute target is in segment 0 or the step is refused. No word decodes to
a Jump without res (log 22). -/
def pcNext (i : Instruction) (s : State) (o : Operands) (res : Option MaybeRel) : Res Rel :=
  match i.pcUpdate with
  | .regular => nextPc i s
  | .jump =>
    match res with
    | none => undefinedHere s
    | some (.felt _) => .refuse .pcOutOfProgramSegment
    | some (.rel r) => if r.seg = 0 then .ok r else .refuse .pcOutOfProgramSegment
  | .jumpRel =>
    match res with
    | none => undefinedHere s
    | some v => relPlus s s.pc v
  | .jnz => if jnzTaken o.dst then relPlus s s.pc o.op1 else nextPc i s

/-- apUpdate (R232). -/
def apNext (i : Instruction) (s : State) (res : Option MaybeRel) : Res Rel :=
  match i.apUpdate with
  | .regular => .ok s.ap
  | .add1 => addInt s.ap 1
  | .add2 => addInt s.ap 2
  | .add =>
    match res with
    | none => undefinedHere s
    | some v => relPlus s s.ap v

/-- fpUpdate (R233): a Call without Add2, and a restored fp outside segment 1, are refused. -/
def fpNext (i : Instruction) (s : State) (o : Operands) : Res Rel :=
  match i.fpUpdate with
  | .regular => .ok s.fp
  | .apPlus2 => if i.apUpdate = .add2 then addInt s.ap 2 else .refuse .callWithoutAdd2
  | .dst =>
    match o.dst with
    | .felt _ => .refuse .fpOutOfExecutionSegment
    | .rel r => if r.seg = 1 then .ok r else .refuse .fpOutOfExecutionSegment

/-- The body of a decoded instruction (R207, sub-steps (c) to (f)); the register updates read the old
registers (R227). -/
def vmBody (i : Instruction) (s : State) : Res State :=
  (readOperands i s).bind fun o =>
  (computeRes i s o).bind fun res =>
  (opcodeEffect i s o res).bind fun m =>
  (pcNext i s o res).bind fun npc =>
  (apNext i s res).bind fun nap =>
  (fpNext i s o).bind fun nfp =>
    .ok (s.commit m npc nap nfp)

/-- Execution of a decoded instruction: committed, or aborted with MEM and the registers as they were
(R234). -/
def execRecord (i : Instruction) (s : State) : Host.Outcome State Fault Refusal :=
  stepOutcome s (vmBody i s)

end Sys2Proof.Machine
end

