-- ==== Sys2Proof/Machine/AssertEq.lean ====
section
/-! DEFINITION. The assert_eq row: opcode AssertEq with any pc and ap update (spec/46_execution.md R222). -/

namespace Sys2Proof.Machine

/-- assert_eq (R220, R222): infer at most one unknown operand, write res to the dst cell. -/
def execAssertEq (f : Fields) (pcu : PcUpdate) (apu : ApUpdate) (s : State) :
    Host.Outcome State Fault Refusal :=
  execRecord (f.toRecord pcu apu .assertEq) s

end Sys2Proof.Machine
end

