-- ==== Sys2Proof/Machine/Builtins.lean ====
section
/-! DEFINITION. The commands of the RCU, the SVU and the ECU (spec/42_range_check.md R161,
spec/44_signature.md R184, R185, spec/45_ec_op.md R196). -/

namespace Sys2Proof.Machine

/-- RC_CHECK (R161). -/
def execRcCheck (v : MaybeRel) (s : State) : Host.Outcome State Fault Refusal :=
  unitOutcome s ((rcCheck s.cfg (s.operand v)).bind fun _ => .ok .unit)

/-- SIG_VERIFY (R184). -/
def execSigVerify (off : U32) (pk msg : MaybeRel) (s : State) : Host.Outcome State Fault Refusal :=
  unitOutcome s ((sigVerify s.cfg s.params s.sigTab off (s.operand pk) (s.operand msg)).bind
    fun _ => .ok .unit)

/-- SIG_SET (R185), host only: refused while the unit is inactive, as every command of a builtin unit is
(R105, R246; log 18), and refused once the run has started. -/
def execSigSet (off : U32) (r q : BitVec 256) (s : State) : Host.Outcome State Fault Refusal :=
  if ¬ sigActive s.cfg then unitOutcome s (.refuse .inactiveUnit)
  else if s.started then unitOutcome s (.refuse .hostWriteDuringRun)
  else unitOutcome (s.setSigTab (sigSet s.sigTab off ⟨r, q⟩)) (.ok .unit)

/-- EC_OP (R196). -/
def execEcOp (px py qx qy m : MaybeRel) (s : State) : Host.Outcome State Fault Refusal :=
  unitOutcome s ((ecOp s.cfg s.params s.draws (s.operand px) (s.operand py) (s.operand qx) (s.operand qy)
    (s.operand m)).bind fun p => .ok (.point p))

end Sys2Proof.Machine
end

