-- ==== Sys2Proof/Machine/Call.lean ====
section
/-! DEFINITION. The call rows: opcode Call (spec/46_execution.md R216, R223, R233). -/

namespace Sys2Proof.Machine

/-- call abs: pcUpdate Jump (R223, R229). -/
def execCallAbs (f : Fields) (apu : ApUpdate) (s : State) : Host.Outcome State Fault Refusal :=
  execRecord (f.toRecord .jump apu .call) s

/-- call rel: pcUpdate JumpRel (R223, R231). -/
def execCallRel (f : Fields) (apu : ApUpdate) (s : State) : Host.Outcome State Fault Refusal :=
  execRecord (f.toRecord .jumpRel apu .call) s

/-- A Call word with another pc update (R223, R228, R230). -/
def execCall (f : Fields) (pcu : PcUpdate) (apu : ApUpdate) (s : State) :
    Host.Outcome State Fault Refusal :=
  execRecord (f.toRecord pcu apu .call) s

end Sys2Proof.Machine
end

