-- ==== Sys2Proof/Machine/Fau.lean ====
section
/-! DEFINITION. The FAU's commands (spec/41_field_arith.md R138 to R148); a Relocatable on a port is refused
(spec/30_encoding.md R106), a raw natural at or above P reduced (R137; log 36). -/

namespace Sys2Proof.Machine

/-- A command of one Felt operand. -/
def fau1 (s : State) (a : MaybeRel) (f : Felt → Res UnitValue) : Res UnitValue :=
  (feltPort (s.operand a)).bind f

/-- A command of two Felt operands. -/
def fau2 (s : State) (a b : MaybeRel) (f : Felt → Felt → Res UnitValue) : Res UnitValue :=
  (feltPort (s.operand a)).bind fun x => (feltPort (s.operand b)).bind fun y => f x y

/-- ADD (R138). -/
def execAdd (a b : MaybeRel) (s : State) : Host.Outcome State Fault Refusal :=
  unitOutcome s (fau2 s a b fun x y => .ok (.felt (Fau.add s.params.prime x y)))

/-- SUB (R139). -/
def execSub (a b : MaybeRel) (s : State) : Host.Outcome State Fault Refusal :=
  unitOutcome s (fau2 s a b fun x y => .ok (.felt (Fau.sub s.params.prime x y)))

/-- MUL (R140). -/
def execMul (a b : MaybeRel) (s : State) : Host.Outcome State Fault Refusal :=
  unitOutcome s (fau2 s a b fun x y => .ok (.felt (Fau.mul s.params.prime x y)))

/-- NEG (R141). -/
def execNeg (a : MaybeRel) (s : State) : Host.Outcome State Fault Refusal :=
  unitOutcome s (fau1 s a fun x => .ok (.felt (Fau.neg s.params.prime x)))

/-- INV (R142). -/
def execInv (a : MaybeRel) (s : State) : Host.Outcome State Fault Refusal :=
  unitOutcome s (fau1 s a fun x => (Fau.inv s.params.prime x).bind fun v => .ok (.felt v))

/-- DIV (R143). -/
def execDiv (a b : MaybeRel) (s : State) : Host.Outcome State Fault Refusal :=
  unitOutcome s (fau2 s a b fun x y => (Fau.div s.params.prime x y).bind fun v => .ok (.felt v))

/-- EQ (R144). -/
def execEq (a b : MaybeRel) (s : State) : Host.Outcome State Fault Refusal :=
  unitOutcome s (fau2 s a b fun x y => .ok (.bool (Fau.eq x y)))

/-- LT (R145). -/
def execLt (a b : MaybeRel) (s : State) : Host.Outcome State Fault Refusal :=
  unitOutcome s (fau2 s a b fun x y => .ok (.bool (Fau.lt x y)))

/-- REDUCE (R146). -/
def execReduce (n : Int) (s : State) : Host.Outcome State Fault Refusal :=
  unitOutcome s (.ok (.felt (Fau.reduce s.params.prime n)))

/-- TO_UINT (R147). -/
def execToUint (a : MaybeRel) (k : Nat) (s : State) : Host.Outcome State Fault Refusal :=
  unitOutcome s (fau1 s a fun x => (Fau.toUint x k).bind fun v => .ok (.nat v))

/-- TO_INT (R148). -/
def execToInt (a : MaybeRel) (k : Nat) (s : State) : Host.Outcome State Fault Refusal :=
  unitOutcome s (fau1 s a fun x => (Fau.toInt s.params.prime x k).bind fun v => .ok (.int v))

end Sys2Proof.Machine
end

