-- ==== Sys2Proof/Machine/Idu.lean ====
section
/-! DEFINITION. The IDU's commands (spec/40_decoder.md R111, R123). -/

namespace Sys2Proof.Machine

/-- DECODE as an operation: a record or one of the applicable failures (R111, R120, R122). -/
def iduDecode (p : Params) (n w : Nat) : Res Instruction :=
  match decodeRecord p w with
  | .ok i => .ok i
  | .bad kinds => .fail (drawFailure n w kinds)

/-- ENCODE as an operation: NotRepresentable, or the word (R123). -/
def iduEncode (p : Params) (i : Instruction) : Res (BitVec 64) :=
  if representable p i then .ok (BitVec.ofNat 64 (encodeRecord i)) else .refuse .notRepresentable

/-- The command DECODE. -/
def execDecode (w : BitVec 64) (s : State) : Host.Outcome State Fault Refusal :=
  unitOutcome s ((iduDecode s.params s.draws w.toNat).bind fun i => .ok (.record i))

/-- The command ENCODE. -/
def execEncode (i : Instruction) (s : State) : Host.Outcome State Fault Refusal :=
  unitOutcome s ((iduEncode s.params i).bind fun w => .ok (.word w))

end Sys2Proof.Machine
end

