-- ==== Sys2Proof/Machine/NoOp.lean ====
section
/-! DEFINITION. The rows of opcode NoOp: only the register updates act (spec/46_execution.md R225 to R232). -/

namespace Sys2Proof.Machine

/-- nop: pc and ap Regular (R225, R228). -/
def execNop (f : Fields) (s : State) : Host.Outcome State Fault Refusal :=
  execRecord (f.toRecord .regular .regular .noOp) s

/-- jmp abs (R229). -/
def execJmpAbs (f : Fields) (apu : ApUpdate) (s : State) : Host.Outcome State Fault Refusal :=
  execRecord (f.toRecord .jump apu .noOp) s

/-- jmp rel (R231). -/
def execJmpRel (f : Fields) (apu : ApUpdate) (s : State) : Host.Outcome State Fault Refusal :=
  execRecord (f.toRecord .jumpRel apu .noOp) s

/-- jmp rel op1 if dst != 0 (R230). -/
def execJnz (f : Fields) (apu : ApUpdate) (s : State) : Host.Outcome State Fault Refusal :=
  execRecord (f.toRecord .jnz apu .noOp) s

/-- ap += res (R232). -/
def execApAdd (f : Fields) (s : State) : Host.Outcome State Fault Refusal :=
  execRecord (f.toRecord .regular .add .noOp) s

/-- nop; ap++ (R232). -/
def execNopApInc (f : Fields) (s : State) : Host.Outcome State Fault Refusal :=
  execRecord (f.toRecord .regular .add1 .noOp) s

end Sys2Proof.Machine
end

