-- ==== Sys2Proof/Machine/Ret.lean ====
section
/-! DEFINITION. The ret rows: opcode Ret (spec/46_execution.md R224, R233). -/

namespace Sys2Proof.Machine

/-- ret: pcUpdate Jump, fp := dst (R224, R229, R233). -/
def execRet (f : Fields) (apu : ApUpdate) (s : State) : Host.Outcome State Fault Refusal :=
  execRecord (f.toRecord .jump apu .ret) s

/-- A Ret word with another pc update (R224, R228, R230, R231, R233). -/
def execRetAny (f : Fields) (pcu : PcUpdate) (apu : ApUpdate) (s : State) :
    Host.Outcome State Fault Refusal :=
  execRecord (f.toRecord pcu apu .ret) s

end Sys2Proof.Machine
end

