-- ==== Sys2Proof/Machine/Dispatch.lean ====
section
/-! DEFINITION. The meaning of every instruction: one arm per constructor of Instr. -/

namespace Sys2Proof.Machine

def exec (i : Instr) (s : State) : Host.Outcome State Fault Refusal :=
  match i with
  | .assertEq f pcu apu => Sys2Proof.Machine.execAssertEq f pcu apu s
  | .callAbs f apu => Sys2Proof.Machine.execCallAbs f apu s
  | .callRel f apu => Sys2Proof.Machine.execCallRel f apu s
  | .call f pcu apu => Sys2Proof.Machine.execCall f pcu apu s
  | .ret f apu => Sys2Proof.Machine.execRet f apu s
  | .retAny f pcu apu => Sys2Proof.Machine.execRetAny f pcu apu s
  | .nop f => Sys2Proof.Machine.execNop f s
  | .jmpAbs f apu => Sys2Proof.Machine.execJmpAbs f apu s
  | .jmpRel f apu => Sys2Proof.Machine.execJmpRel f apu s
  | .jnz f apu => Sys2Proof.Machine.execJnz f apu s
  | .apAdd f => Sys2Proof.Machine.execApAdd f s
  | .nopApInc f => Sys2Proof.Machine.execNopApInc f s
  | .decode w => Sys2Proof.Machine.execDecode w s
  | .encode r => Sys2Proof.Machine.execEncode r s
  | .add a b => Sys2Proof.Machine.execAdd a b s
  | .sub a b => Sys2Proof.Machine.execSub a b s
  | .mul a b => Sys2Proof.Machine.execMul a b s
  | .neg a => Sys2Proof.Machine.execNeg a s
  | .inv a => Sys2Proof.Machine.execInv a s
  | .div a b => Sys2Proof.Machine.execDiv a b s
  | .eq a b => Sys2Proof.Machine.execEq a b s
  | .lt a b => Sys2Proof.Machine.execLt a b s
  | .reduce n => Sys2Proof.Machine.execReduce n s
  | .toUint a k => Sys2Proof.Machine.execToUint a k s
  | .toInt a k => Sys2Proof.Machine.execToInt a k s
  | .rcCheck v => Sys2Proof.Machine.execRcCheck v s
  | .sigVerify off pk msg => Sys2Proof.Machine.execSigVerify off pk msg s
  | .sigSet off r q => Sys2Proof.Machine.execSigSet off r q s
  | .ecOp px py qx qy m => Sys2Proof.Machine.execEcOp px py qx qy m s

end Sys2Proof.Machine
end

