-- ==== Sys2Proof/Machine/Hint.lean ====
section
/-! DEFINITION. The host's hint step (spec/46_execution.md R210, spec/70_reset_and_hazards.md R275, R279). -/

namespace Sys2Proof.Machine

/-- Memory after a hint step, and whether it signalled halt (R275). -/
structure HintDone where
  mem : Memory
  halted : Bool
  deriving DecidableEq, Repr

/-- A hint's actions in order: writes by MemWrite (R67, R210), allocations (R62), a failure, or the halt
signal, which ends the hint step (log 31). What a hint writes and what its failure carries is reduced (R137;
log 36). -/
def runActions (s : State) : List HintAction → Memory → Res HintDone
  | [], m => .ok ⟨m, false⟩
  | .write a v :: rest, m => (memWriteAt s m a v).bind fun m1 => runActions s rest m1
  | .alloc :: rest, m => m.allocate.bind fun x => runActions s rest x.2
  | .raise f :: _, _ => .fail (f.reduce s.params.prime)
  | .halt :: _, m => .ok ⟨m, true⟩

/-- The actions of a hint: its own, or the free value of its host code at the `n`-th run (log 11). -/
def hintActions (s : State) (m : Memory) (n : Nat) (e : HintEffect) : List HintAction :=
  match e with
  | .script acts => acts
  | .host id => Config.hostHint id n s.pc s.ap s.fp m.count m.cells

/-- Several hints at one pc, in list order (R279); a halt ends the step (log 31). -/
def runHints (s : State) : List Hint → Nat → Memory → Res HintDone
  | [], _, m => .ok ⟨m, false⟩
  | h :: rest, n, m =>
    (runActions s (hintActions s m n h.effect) m).bind fun d =>
      if d.halted then .ok d else runHints s rest (n + 1) d.mem

/-- The hints registered at the current pc offset (R210). -/
def hintsAtPc (s : State) : List Hint := s.hints.filter fun h => decide (h.offset = s.pc.off)

/-- HINT_EFFECT(pc.offset): the identity where no hint is registered (R210). -/
def hintStep (s : State) : Res HintDone := runHints s (hintsAtPc s) s.hintRuns s.mem

end Sys2Proof.Machine
end

