-- ==== Sys2Proof/Machine/Fetch.lean ====
section
/-! DEFINITION. What a step does around an instruction: the end test, the hint step, fetch and decode
(spec/46_execution.md R207, R208, R210, R211, spec/40_decoder.md R125), and the placing of one instruction
where the next step takes it. -/

namespace Sys2Proof.Machine

/-- fetch (R211, R125): the cell at pc as the IDU's input; empty is UndefinedValue, a Relocatable is
refused. -/
def fetchWord (s : State) : Res Nat :=
  (s.mem.read s.pc).bind fun c =>
    match c with
    | .felt v => .ok v.val
    | .rel _ => .refuse .instructionNotFelt

/-- fetch and DECODE (R211). -/
def fetchDecode (s : State) : Res Instr :=
  (fetchWord s).bind fun w => (iduDecode s.params s.draws w).bind fun i => .ok i.toInstr

/-- How a VM step begins. -/
inductive Begun where
  /-- STATUS is not running: no further step runs (R36). -/
  | over
  /-- The step ends before any instruction: end of run, halt by a hint, failure or refusal. -/
  | ended (t : State)
  /-- Instruction `i` is executed from state `t`. -/
  | run (i : Instr) (t : State)
  deriving DecidableEq, Repr

/-- Sub-steps (a) and (b) of R207: PROGRAM_END, the hint step, the halt signal, fetch and decode. A failure
or refusal keeps MEM as it was before the hint step (R234). -/
def beginStep (s : State) : Begun :=
  if s.status = .running then
    if s.pc = s.programEnd then .ended (s.begin s.mem 0).halt
    else
      match hintStep s with
      | .fail f => .ended ((s.begin s.mem (hintsAtPc s).length).fail f)
      | .refuse r => .ended ((s.begin s.mem (hintsAtPc s).length).refuse r)
      | .ok d =>
        if d.halted then .ended (s.begin d.mem (hintsAtPc s).length).halt
        else
          match fetchDecode (s.begin d.mem (hintsAtPc s).length) with
          | .fail f => .ended ((s.begin s.mem (hintsAtPc s).length).fail f)
          | .refuse r => .ended ((s.begin s.mem (hintsAtPc s).length).refuse r)
          | .ok i => .run i (s.begin d.mem (hintsAtPc s).length)
  else .over

/-- A pending command with an unknown code (R105): `refuse UnknownCommand` is its outcome. -/
def unknownCommand (s : State) : State := s.takeRequest.answer (.refused .unknownCommand)

/-- The program that the host would load: one instruction word at pc, a zero immediate after it, PROGRAM_END
behind both, no hint at pc, STATUS running (log 6). -/
def placeWord (s : State) (w : Nat) : State :=
  let m1 : Memory := { s.mem with count := max s.mem.count (s.pc.seg.toNat + 1) }
  let m2 := m1.set s.pc (.ofNat s.params.prime w)
  { s with
    mem := m2.set (withOff s.pc (s.pc.off.toNat + 1)) (.felt Felt.zero)
    status := .running
    programEnd := withOff s.pc (s.pc.off.toNat + 2)
    hints := s.hints.filter fun h => decide (h.offset ≠ s.pc.off)
    port := none }

/-- A unit command with every operand port zero, on the port (log 4, log 5). -/
def placeCommand (s : State) (code : Nat) : State :=
  { s with port := some (Request.zero (BitVec.ofNat 8 code)) }

end Sys2Proof.Machine
end

