-- ==== Sys2Proof/Machine/Step.lean ====
section
/-! DEFINITION. One step of the machine (spec/46_execution.md R207): a pending unit command if there is one
(log 3), else a step of the VM. -/

namespace Sys2Proof.Machine

/-- One step. A command is taken off the port and executed (R105). Otherwise the VM step of R207: what
`beginStep` finds, then the instruction, with the restoration of R234 if it aborts. -/
def step (s : State) : Host.Outcome State Fault Refusal :=
  match s.port with
  | some q =>
    match decodeRequest q with
    | some i => exec i s.takeRequest
    | none => .next (unknownCommand s)
  | none =>
    match beginStep s with
    | .over => .fault .runEnded
    | .ended t => .next t
    | .run i t => restoreOutcome s (exec i t)

/-- `s` with the instruction of bits `w` where the next step takes it: a command of at most 8 bits on the
port, a word at pc (log 5, log 6). -/
def State.withFetchWord (s : State) (nbits w : Nat) : State :=
  if nbits ≤ 8 then placeCommand s w else placeWord s w

end Sys2Proof.Machine
end

