-- ==== Sys2Proof/Machine/Boot.lean ====
section
/-! DEFINITION. The host's launch (spec/70_reset_and_hazards.md R271, R272, spec/10_state.md R28, R38). -/

namespace Sys2Proof.Machine

/-- The launch parameters of R271. PROGRAM_END may be any Relocatable: one outside segment 0, which R271's
type excludes and no rule speaks of, is taken as it is, and no pc ever equals it (log 35). -/
structure Launch where
  program : List Felt
  entryOffset : U32
  initApOffset : U32
  initFpOffset : U32
  launchCells : List (U32 × MaybeRel)
  programEnd : Rel
  cfg : BitVec 16
  signatures : List (U32 × Sig)
  hints : List Hint
  deriving DecidableEq, Repr

/-- The defaults of R271 for a given PROGRAM (which has none) and INIT_AP_OFFSET. For a program of 2^32 cells
the default PROGRAM_END is no Relocatable (R47), and the model's is Rel(0, 0) (log 34). -/
def Launch.default (program : List Felt) (initAp : U32) : Launch where
  program := program
  entryOffset := 0
  initApOffset := initAp
  initFpOffset := initAp
  launchCells := []
  programEnd := ⟨0, BitVec.ofNat 32 program.length⟩
  cfg := 0x8000#16
  signatures := []
  hints := []

/-- Step 3: PROGRAM into segment 0, element n at offset n, from offset `o` on. Plain cell writes, no
validation; the loader reduces what it is given (R137). -/
def placeProgram (P : Nat) : List Felt → Nat → Memory → Memory
  | [], _, m => m
  | v :: rest, o, m => placeProgram P rest (o + 1) (m.set ⟨0, BitVec.ofNat 32 o⟩ (.ofNat P v.val))

/-- Step 4: LAUNCH_CELLS into segment 1. -/
def placeCells (P : Nat) : List (U32 × MaybeRel) → Memory → Memory
  | [], m => m
  | c :: rest, m => placeCells P rest (m.set ⟨1, c.1⟩ (c.2.reduce P))

/-- Step 5: the SIG_SET calls in list order; each is refused, and changes nothing, while the unit is
inactive (R105; log 18). -/
def placeSignatures (cfg : BitVec 16) :
    List (U32 × Sig) → Option (List (Nat × Sig)) → Option (List (Nat × Sig))
  | [], t => t
  | e :: rest, t =>
    placeSignatures cfg rest (if sigActive cfg then some (sigSet t e.1 e.2) else t)

/-- Steps 2 to 6 of R272 for given implementation parameters: the run is not started, SIG_SET is still
accepted (R185). -/
def bootSetup (p : Params) (l : Launch) : State :=
  { State.reset with
    params := p
    cfg := l.cfg
    mem := placeCells p.prime l.launchCells
      (placeProgram p.prime l.program 0 ⟨initialSegments l.cfg, []⟩)
    sigTab := placeSignatures l.cfg l.signatures none
    pc := ⟨0, l.entryOffset⟩
    ap := ⟨1, l.initApOffset⟩
    fp := ⟨1, l.initFpOffset⟩
    programEnd := l.programEnd
    hints := l.hints
    started := false }

/-- The launch of R272. An illegal CFG refuses it (R28): STATUS is `refused(BadConfig)`, nothing else is
created and no run starts (log 23). Otherwise steps 2 to 6, and step 7, the start: from here SIG_SET is
refused (log 12). -/
def boot (p : Params) (l : Launch) : State :=
  if cfgLegal l.cfg then (bootSetup p l).start
  else { State.reset with params := p, started := false, status := .refused .badConfig }

end Sys2Proof.Machine
end

