-- ==== Sys2Proof/Safety.lean ====
section
/-! DEFINITION. The invariant of the machine and what a safe state is, in the terms the statements use. -/

namespace Sys2Proof

open Machine

/-- SIG_TAB in its form: entries by rising offset, each offset a u32 (R26). -/
abbrev sigTabWf (t : Option (List (Nat × Sig))) : Prop :=
  ∀ l, t = some l → l.Pairwise (fun x y => x.1 < y.1) ∧ ∀ e ∈ l, e.1 < 4294967296

/-- The pinned registers of R32 to R34: pc in segment 0, ap and fp in segment 1. -/
abbrev Pinned (s : State) : Prop := s.pc.seg = 0 ∧ s.ap.seg = 1 ∧ s.fp.seg = 1

/-- Every Felt in MEM is canonical (R11, R137). -/
abbrev Machine.Memory.canonical (P : Nat) (m : Memory) : Prop := ∀ c ∈ m.cells, c.2.canonical P = true

/-- The failure that STATUS records carries canonical Felts only (R11, R36). -/
def Machine.Status.canonical (P : Nat) : Status → Bool
  | .running => true
  | .halted => true
  | .failed f => f.canonical P
  | .refused _ => true

/-- The outcome of a unit command holds canonical Felts only (R11). -/
def Machine.UnitOutcome.canonical (P : Nat) : UnitOutcome → Bool
  | .ok v => v.canonical P
  | .fail f => f.canonical P
  | .refused _ => true

/-- What every reachable state has: MEM in its canonical form (R61) with every builtin segment allocated
(R70), every Felt that the block holds canonical for the P of the parameters, in MEM, in STATUS and in the outcome
of the last command (R11, R137), pinned registers (R209), a legal CFG (R28), SIG_TAB in its form (R26). -/
structure Inv (s : State) : Prop where
  mem : s.mem.wf
  segments : initialSegments s.cfg ≤ s.mem.count
  prime : 0 < s.params.prime
  canonical : s.mem.canonical s.params.prime
  status : s.status.canonical s.params.prime = true
  unitOut : ∀ o, s.unitOut = some o → o.canonical s.params.prime = true
  pinned : Pinned s
  cfg : cfgLegal s.cfg = true
  sigTab : sigTabWf s.sigTab

/-- No failure and no refusal has ended the run (R36: neither is a successful final state). -/
def Safe (s : State) : Prop :=
  match s.status with
  | .running => True
  | .halted => True
  | .failed _ => False
  | .refused _ => False

/-- A valid word of the 64-bit format (R99): bit 63 and above zero, every flag field, at its position of D1 (log 37),
one of its patterns, and the two strict parameters obeyed. -/
abbrev ValidWord (p : Params) (w : Nat) : Prop :=
  w < 2 ^ 63 ∧ bits w 52 50 ∈ [0, 1, 2, 4] ∧ bits w 54 53 ≠ 3 ∧ bits w 57 55 ∈ [0, 1, 2, 4] ∧
  bits w 59 58 ≠ 3 ∧ bits w 62 60 ∈ [0, 1, 2, 4] ∧
  (p.strictJnzRes = true → ¬ (bits w 57 55 = 4 ∧ bits w 54 53 ≠ 0)) ∧
  (p.strictCallAp = true → ¬ (bits w 62 60 = 1 ∧ bits w 59 58 ≠ 0))

/-- The failures of the set E of R111: those whose field is invalid in the word `w` (R112 to R119),
the fields at the positions of D1 (log 37). -/
abbrev DecodeError (p : Params) (w : Nat) (f : Failure) : Prop :=
  (f = .invalidOp1Source w ∧ bits w 52 50 ∉ [0, 1, 2, 4]) ∨
  (f = .invalidPcUpdate w ∧ bits w 57 55 ∉ [0, 1, 2, 4]) ∨
  (f = .invalidOpcode w ∧ bits w 62 60 ∉ [0, 1, 2, 4]) ∨
  (f = .invalidResultLogic w ∧
    (bits w 54 53 = 3 ∨ (p.strictJnzRes = true ∧ bits w 57 55 = 4 ∧ bits w 54 53 ≠ 0))) ∨
  (f = .invalidApUpdate w ∧
    (bits w 59 58 = 3 ∨ (p.strictCallAp = true ∧ bits w 62 60 = 1 ∧ bits w 59 58 ≠ 0)))

/-- What a hint script does to memory when it goes through (R210, R62, R275): its writes, by MemWrite and of the
reduced value (R137; log 27, log 36), and its allocations in order, and whether it ends in the halt signal. -/
inductive ActsRun (s : State) : List HintAction → Memory → Memory → Bool → Prop
  | done (m : Memory) : ActsRun s [] m m false
  | write {a : Rel} {v : MaybeRel} {rest : List HintAction} {m m1 m2 : Memory} {halted : Bool}
      (hw : memWrite s m a (v.reduce s.params.prime) = .ok m1) (hr : ActsRun s rest m1 m2 halted) :
      ActsRun s (.write (.rel a) v :: rest) m m2 halted
  | alloc {rest : List HintAction} {m m2 : Memory} {halted : Bool} (hc : m.count < 2 ^ 32)
      (hr : ActsRun s rest { m with count := m.count + 1 } m2 halted) :
      ActsRun s (.alloc :: rest) m m2 halted
  | halt (rest : List HintAction) (m : Memory) : ActsRun s (.halt :: rest) m m true

/-- An action of a hint that ends the hint step with a failure (R210, R67): a raise, with the Felts of its info
reduced (R137), or a write that fails. -/
def ActFails (s : State) (m : Memory) (x : HintAction) (f : Failure) : Prop :=
  (∃ g, x = .raise g ∧ f = g.reduce s.params.prime) ∨
  ∃ a v, x = .write (.rel a) v ∧ memWrite s m a (v.reduce s.params.prime) = .fail f

/-- An action of a hint that is refused: a write through a Felt (R65), a write that is refused, an allocation
beyond 2^32 segments (R62). -/
def ActRefused (s : State) (m : Memory) (x : HintAction) (r : Refuse) : Prop :=
  (∃ u v, x = .write (.felt u) v ∧ r = .feltAddress) ∨
  (∃ a v, x = .write (.rel a) v ∧ memWrite s m a (v.reduce s.params.prime) = .refuse r) ∨
  (x = .alloc ∧ 2 ^ 32 ≤ m.count ∧ r = .segmentSpaceExhausted)

/-- What hint scripts at one pc do, in list order (R279), up to a halt signal (log 31). -/
inductive ScriptsRun (s : State) : List Hint → Memory → Memory → Bool → Prop
  | done (m : Memory) : ScriptsRun s [] m m false
  | next {o : U32} {acts : List HintAction} {rest : List Hint} {m m1 m2 : Memory} {halted : Bool}
      (ha : ActsRun s acts m m1 false) (hr : ScriptsRun s rest m1 m2 halted) :
      ScriptsRun s (⟨o, .script acts⟩ :: rest) m m2 halted
  | halt {o : U32} {acts : List HintAction} {rest : List Hint} {m m1 : Memory}
      (ha : ActsRun s acts m m1 true) : ScriptsRun s (⟨o, .script acts⟩ :: rest) m m1 true

/-- One iteration of EC_OP's ladder that goes through (R196), on the partial sum, the doubled point and the
remaining scalar: the x-coordinates differ, the partial sum takes the doubled point where the scalar's bit is 1,
the doubled point is doubled, the scalar halved. -/
inductive LadderStep (par : Params) : Point × Point × Nat → Point × Point × Nat → Prop
  | zero {acc dbl dbl' : Point} {k : Nat} (hx : dbl.x ≠ acc.x) (hk : k % 2 = 0)
      (hd : ecDouble par dbl = .ok dbl') : LadderStep par (acc, dbl, k) (acc, dbl', k / 2)
  | one {acc acc' dbl dbl' : Point} {k : Nat} (hx : dbl.x ≠ acc.x) (hk : k % 2 = 1)
      (ha : ecAddDistinct par acc dbl = .ok acc') (hd : ecDouble par dbl = .ok dbl') :
      LadderStep par (acc, dbl, k) (acc', dbl', k / 2)

/-- `n` iterations that go through. -/
inductive LadderSteps (par : Params) : Nat → Point × Point × Nat → Point × Point × Nat → Prop
  | zero (x : Point × Point × Nat) : LadderSteps par 0 x x
  | next {n : Nat} {x y z : Point × Point × Nat} (hx : LadderStep par x y) (hr : LadderSteps par n y z) :
      LadderSteps par (n + 1) x z

/-- The ladder of EC_OP(p, q, m) goes through: at the end the scalar is 0 and `r` is the partial sum (R196). -/
def LadderRun (par : Params) (p q : Point) (m : Felt) (r : Point) : Prop :=
  ∃ dbl, LadderSteps par par.ecHeight (p, q, m.val) (r, dbl, 0)

/-- The curve check of EC_OP is not made, or both points pass it (R198). -/
def EcChecked (par : Params) (p q : Point) : Prop :=
  par.ecCheckOnCurve = true → onCurve par p = true ∧ onCurve par q = true

/-- The address `r` advanced by `n` cells, where there is one (R50). -/
def Advanced (r : Rel) (n : Nat) (t : Rel) : Prop :=
  r.off.toNat + n < 2 ^ 32 ∧ t = ⟨r.seg, BitVec.ofNat 32 (r.off.toNat + n)⟩

/-- Where the pc update sends control (R228 to R231): behind the instruction; to a res in segment 0; to pc + res;
for JumpIfNotZero behind the instruction on dst = F(0), else to pc + op1. -/
def PcTarget (i : Instruction) (s : State) (o : Operands) (res : Option MaybeRel) (t : Rel) : Prop :=
  match i.pcUpdate with
  | .regular => Advanced s.pc i.size.toNat t
  | .jump => res = some (.rel t) ∧ t.seg = 0
  | .jumpRel => ∃ v, res = some (.felt v) ∧ addFelt s.params s.pc v = .ok t
  | .jnz =>
    if o.dst = .felt Felt.zero then Advanced s.pc i.size.toNat t
    else ∃ v, o.op1 = .felt v ∧ addFelt s.params s.pc v = .ok t

/-- What the ap update makes of ap (R232): ap, ap + 1, ap + 2, or ap + res. -/
def ApTarget (i : Instruction) (s : State) (res : Option MaybeRel) (t : Rel) : Prop :=
  match i.apUpdate with
  | .regular => t = s.ap
  | .add1 => Advanced s.ap 1 t
  | .add2 => Advanced s.ap 2 t
  | .add => ∃ v, res = some (.felt v) ∧ addFelt s.params s.ap v = .ok t

/-- op0 as an instruction has it, and memory after its read: the value of its cell (R213), for a Call with an
unresolved cell the return address (R216), else none. -/
def Op0Read (i : Instruction) (s : State) (op0A : Rel) (x : Option MaybeRel) (m : Memory) : Prop :=
  ∃ y, resolve s s.mem op0A = .ok (y, m) ∧
    ((∃ v, y = some v ∧ x = some v) ∨
      (y = none ∧ i.opcode = .call ∧ ∃ ra, Advanced s.pc i.size.toNat ra ∧ x = some (.rel ra)) ∨
      (y = none ∧ i.opcode ≠ .call ∧ x = none))

/-- The five input cells of instance `k` of the ECU's segment `g` hold these values (R203). -/
abbrev EcInputs (m : Memory) (g : U32) (k : Nat) (px py qx qy c : MaybeRel) : Prop :=
  m.peek ⟨g, BitVec.ofNat 32 (7 * k)⟩ = some px ∧ m.peek ⟨g, BitVec.ofNat 32 (7 * k + 1)⟩ = some py ∧
  m.peek ⟨g, BitVec.ofNat 32 (7 * k + 2)⟩ = some qx ∧ m.peek ⟨g, BitVec.ofNat 32 (7 * k + 3)⟩ = some qy ∧
  m.peek ⟨g, BitVec.ofNat 32 (7 * k + 4)⟩ = some c

/-- The sum of `k` times the point `q` by the group law, one at a time (R177). -/
def groupSum (par : Params) (q : GroupPoint) : Nat → Res GroupPoint
  | 0 => .ok none
  | k + 1 => (groupSum par q k).bind fun p => groupAdd par p q

/-- Every cell of `m` that is filled holds the same value in `m'` (R68). -/
def KeepsCells (m m' : Memory) : Prop := ∀ a v, m.peek a = some v → m'.peek a = some v

end Sys2Proof
end

