-- ==== Sys2Proof/WellFormed.lean ====
section
/-! DEFINITION. Which terms of `Instr` stand for an instruction: the record is one some word decodes to
(R97, R99), the row is the record's own, and a width is at least 1 (R147, R148). -/

namespace Sys2Proof

/-- The check of one instruction under given parameters. -/
def WellFormed (p : Params) : Instr → Bool
  | .assertEq f pcu apu => representable p (f.toRecord pcu apu .assertEq)
  | .callAbs f apu => representable p (f.toRecord .jump apu .call)
  | .callRel f apu => representable p (f.toRecord .jumpRel apu .call)
  | .call f pcu apu => representable p (f.toRecord pcu apu .call) && (pcu == .regular || pcu == .jnz)
  | .ret f apu => representable p (f.toRecord .jump apu .ret)
  | .retAny f pcu apu => representable p (f.toRecord pcu apu .ret) && (pcu != .jump)
  | .nop f => representable p (f.toRecord .regular .regular .noOp)
  | .jmpAbs f apu => representable p (f.toRecord .jump apu .noOp)
  | .jmpRel f apu => representable p (f.toRecord .jumpRel apu .noOp)
  | .jnz f apu => representable p (f.toRecord .jnz apu .noOp)
  | .apAdd f => representable p (f.toRecord .regular .add .noOp)
  | .nopApInc f => representable p (f.toRecord .regular .add1 .noOp)
  | .decode _ => true
  | .encode _ => true
  | .add _ _ => true
  | .sub _ _ => true
  | .mul _ _ => true
  | .neg _ => true
  | .inv _ => true
  | .div _ _ => true
  | .eq _ _ => true
  | .lt _ _ => true
  | .reduce _ => true
  | .toUint _ k => decide (1 ≤ k)
  | .toInt _ k => decide (1 ≤ k)
  | .rcCheck _ => true
  | .sigVerify _ _ _ => true
  | .sigSet _ _ _ => true
  | .ecOp _ _ _ _ _ => true

end Sys2Proof
end

