-- ==== Sys2Proof/Certificates/Slice0/Obligations.lean ====
section
/-! DEFINITION. The statements for the provers, from the numbered rules of spec/. -/

open Sys2Proof Sys2Proof.Machine

/-! ### The IDU: decode and encode

A statement of this file that names a word, a bit of a word, `ValidWord` or `DecodeError` relies on the flag bit
positions and codes of the spec's decision D1 (spec/92_eei_decisions.md), which no source establishes (log 37). -/

/-- R124: DECODE and ENCODE are inverse on representable records and valid words, and DECODE is injective
on valid words. Which words are valid (R99) rests on the layout of D1 (log 37). -/
def Obligations.RecordRoundTrip : Prop :=
  ∀ p : Params,
    (∀ i, representable p i = true → decodeRecord p (encodeRecord i) = .ok i) ∧
    (∀ w, ValidWord p w → ∃ i, decodeRecord p w = .ok i ∧ encodeRecord i = w) ∧
    (∀ w w' i, ValidWord p w → ValidWord p w' → decodeRecord p w = .ok i → decodeRecord p w' = .ok i →
      w = w')

/-- Every well-formed instruction, word or unit command, decodes from its encoding (R97, R105, R111). The
operand ports of a command are the model's convention (log 4); the layout of a word is that of D1 (log 37). -/
def Obligations.InstrRoundTrip : Prop :=
  ∀ (p : Params) (i : Instr), WellFormed p i = true → decode p (encode i) = some i

/-- R122: for every word DECODE answers ok or fail, never a refusal: ok on every valid word, fail on every
other. Which words are valid (R99) rests on the layout of D1 (log 37). -/
def Obligations.DecodeIsTotal : Prop :=
  ∀ (p : Params) (n w : Nat),
    (ValidWord p w → ∃ i, iduDecode p n w = .ok i) ∧ (¬ ValidWord p w → ∃ f, iduDecode p n w = .fail f)

/-- R91, R126: a word with bit 63, or a Felt above 64 bits, fails with ReservedBitSet whatever its other
fields are. -/
def Obligations.ReservedBitWins : Prop :=
  ∀ (p : Params) (n w : Nat), 2 ^ 63 ≤ w → iduDecode p n w = .fail (.reservedBitSet w)

/-- R112 to R120: below bit 63 the kind DECODE reports is one whose field is invalid, whichever the draw
is. The fields are at the positions of D1 (log 37). -/
def Obligations.DecodeFailureNamesAnInvalidField : Prop :=
  ∀ (p : Params) (n w : Nat) (f : Failure), w < 2 ^ 63 → iduDecode p n w = .fail f →
    DecodeError p w f

/-- R83 to R90, R94 to R96: every field of a decoded record, from the bits of the word. The offsets and their
places are the source's; the flag bit positions and codes are those of D1 (log 37). -/
def Obligations.DecodedFieldsAreTheWords : Prop :=
  ∀ (p : Params) (w : Nat) (i : Instruction), decodeRecord p w = .ok i →
    i.offDst.toInt = (bits w 15 0 : Int) - 2 ^ 15 ∧ i.offOp0.toInt = (bits w 31 16 : Int) - 2 ^ 15 ∧
    i.offOp1.toInt = (bits w 47 32 : Int) - 2 ^ 15 ∧
    (i.dstReg = .fp ↔ bits w 48 48 = 1) ∧ (i.op0Reg = .fp ↔ bits w 49 49 = 1) ∧
    (i.op1Src = .op0 ↔ bits w 52 50 = 0) ∧ (i.op1Src = .imm ↔ bits w 52 50 = 1) ∧
    (i.op1Src = .fp ↔ bits w 52 50 = 2) ∧ (i.op1Src = .ap ↔ bits w 52 50 = 4) ∧
    (i.resLogic = .add ↔ bits w 54 53 = 1) ∧ (i.resLogic = .mul ↔ bits w 54 53 = 2) ∧
    (i.resLogic = .unconstrained ↔ bits w 54 53 = 0 ∧ bits w 57 55 = 4) ∧
    (i.resLogic = .op1 ↔ bits w 54 53 = 0 ∧ bits w 57 55 ≠ 4) ∧
    (i.pcUpdate = .regular ↔ bits w 57 55 = 0) ∧ (i.pcUpdate = .jump ↔ bits w 57 55 = 1) ∧
    (i.pcUpdate = .jumpRel ↔ bits w 57 55 = 2) ∧ (i.pcUpdate = .jnz ↔ bits w 57 55 = 4) ∧
    (i.apUpdate = .add ↔ bits w 59 58 = 1) ∧ (i.apUpdate = .add1 ↔ bits w 59 58 = 2) ∧
    (i.apUpdate = .add2 ↔ bits w 59 58 = 0 ∧ bits w 62 60 = 1) ∧
    (i.apUpdate = .regular ↔ bits w 59 58 = 0 ∧ bits w 62 60 ≠ 1) ∧
    (i.opcode = .noOp ↔ bits w 62 60 = 0) ∧ (i.opcode = .call ↔ bits w 62 60 = 1) ∧
    (i.opcode = .ret ↔ bits w 62 60 = 2) ∧ (i.opcode = .assertEq ↔ bits w 62 60 = 4) ∧
    (i.fpUpdate = .apPlus2 ↔ i.opcode = .call) ∧ (i.fpUpdate = .dst ↔ i.opcode = .ret)

/-- Words of R104 and of the vectors of spec/95 section 2.1 decode to the instructions they are listed
for; every one of these words follows from D1 (log 37). -/
def Obligations.SpecWordsDecode : Prop :=
  ∀ p : Params,
    decodeWord p 0x208b7fff7fff7ffe =
      some (.ret ⟨0xfffe#16, 0xffff#16, 0xffff#16, .fp, .fp, .fp, .op1⟩ .regular) ∧
    decodeWord p 0x1104800180018000 =
      some (.callRel ⟨0#16, 1#16, 1#16, .ap, .ap, .imm, .op1⟩ .add2) ∧
    decodeWord p 0x020680017fff7fff =
      some (.jnz ⟨0xffff#16, 0xffff#16, 1#16, .ap, .fp, .imm, .unconstrained⟩ .regular) ∧
    decodeWord p 0x402680018000800a =
      some (.assertEq ⟨10#16, 0#16, 1#16, .ap, .fp, .imm, .add⟩ .regular .regular) ∧
    decodeWord p 0x040780017fff7fff =
      some (.apAdd ⟨0xffff#16, 0xffff#16, 1#16, .fp, .fp, .imm, .op1⟩) ∧
    decodeWord p 0x94a7800080008000 = none

/-- R111, R120, R121, R122: on every valid word the command DECODE answers the record it decodes to; a word
with bit 63 fails with ReservedBitSet, any other invalid word with a failure of the set E. The flag
fields are at the positions of D1 (log 37). -/
def Obligations.DecodeCommandAnswers : Prop :=
  ∀ (s : State) (w : BitVec 64),
    (ValidWord s.params w.toNat →
      ∃ i, decodeRecord s.params w.toNat = .ok i ∧ encodeRecord i = w.toNat ∧
        exec (.decode w) s = .next (s.answer (.ok (.record i)))) ∧
    (2 ^ 63 ≤ w.toNat → exec (.decode w) s = .next (s.answerFail (.reservedBitSet w.toNat))) ∧
    (w.toNat < 2 ^ 63 → ¬ ValidWord s.params w.toNat →
      ∃ f, DecodeError s.params w.toNat f ∧ exec (.decode w) s = .next (s.answerFail f))

/-- R97, R123: the command ENCODE answers a word that decodes to the record, and is refused exactly on the
records that no word decodes to. -/
def Obligations.EncodeCommandAnswers : Prop :=
  ∀ (s : State) (i : Instruction),
    (representable s.params i = true →
      ∃ w : BitVec 64, decodeRecord s.params w.toNat = .ok i ∧
        exec (.encode i) s = .next (s.answer (.ok (.word w)))) ∧
    (representable s.params i = false → (∀ w, decodeRecord s.params w ≠ .ok i) ∧
      exec (.encode i) s = .next (s.answer (.refused .notRepresentable)))

/-! ### The step -/

/-- R207, R211: when the cell at pc, after the hint step, holds a Felt that decodes to `i`, the step is
`exec i` from the state after the hints with the run started, restored if it aborts (R234). A pending
command that decodes to `i` is `exec i` with the command taken off the port (log 1, log 3). -/
def Obligations.StepRunsDecodedInstruction : Prop :=
  (∀ (s : State) (d : HintDone) (v : Felt) (i : Instr), s.port = none → s.status = .running →
    s.pc ≠ s.programEnd → hintStep s = .ok d → d.halted = false → d.mem.peek s.pc = some (.felt v) →
    decodeWord s.params v.val = some i →
    step s = restoreOutcome s (exec i (s.begin d.mem (hintsAtPc s).length))) ∧
  (∀ (s : State) (q : Request) (i : Instr), s.port = some q → decodeRequest q = some i →
    step s = exec i s.takeRequest)

/-- 93 section 1, R36: every running state has a next state, and once STATUS has left running no further VM
step runs. The model's conventions: a pending command is served whatever STATUS is, so a step exists while one
is pending too (log 3), and changes neither STATUS, MEM, pc, ap nor fp then (log 2); a step asked for with
neither stops with the fault runEnded (log 13). -/
def Obligations.StepsExistExactlyWhileRunning : Prop :=
  ∀ s : State,
    (s.status = .running ∨ s.port ≠ none → ∃ t, step s = .next t) ∧
    (s.status ≠ .running → s.port = none → step s = .fault .runEnded) ∧
    (∀ t, s.status ≠ .running → step s = .next t →
      t.status = s.status ∧ t.mem = s.mem ∧ t.pc = s.pc ∧ t.ap = s.ap ∧ t.fp = s.fp)

/-- R208, R210, R275: a running step at PROGRAM_END halts with MEM and the registers as they are; elsewhere a
hint step that signals halt ends the run with its memory writes committed and no part of the instruction at
pc executed, and one that fails or is refused ends it with MEM as it was. The hint step itself (R210, R279,
R62): the scripts registered at pc run in list order, their actions in order, each write by MemWrite of the reduced
value (R67, R137); after scripts and actions that go through, a raise fails with its kind, its info reduced, a write
that fails fails so, and a write through a Felt (R65), a write that is refused and an allocation beyond the segment
space are refused so. The model's part: the form of hints (log 11), that a halt signal ends the hint step at once
(log 31), that a hint's write into a builtin segment is validated (log 27), that what a hint offers is reduced
(log 36). -/
def Obligations.RunEndsAtProgramEndOrByHint : Prop :=
  (∀ (s : State) (m : Memory) (halted : Bool),
    ScriptsRun s (s.hints.filter fun h => decide (h.offset = s.pc.off)) s.mem m halted →
    hintStep s = .ok ⟨m, halted⟩) ∧
  (∀ (s : State) (m1 m2 : Memory) (before after : List Hint) (o : U32) (acts rest : List HintAction)
    (x : HintAction),
    (s.hints.filter fun h => decide (h.offset = s.pc.off)) =
      before ++ ⟨o, .script (acts ++ x :: rest)⟩ :: after →
    ScriptsRun s before s.mem m1 false → ActsRun s acts m1 m2 false →
    (∀ f, ActFails s m2 x f → hintStep s = .fail f) ∧
    (∀ r, ActRefused s m2 x r → hintStep s = .refuse r)) ∧
  ∀ s : State, s.port = none → s.status = .running →
    (s.pc = s.programEnd → ∃ t, step s = .next t ∧ t.status = .halted ∧ t.mem = s.mem ∧ t.pc = s.pc ∧
      t.ap = s.ap ∧ t.fp = s.fp) ∧
    (∀ d, s.pc ≠ s.programEnd → hintStep s = .ok d → d.halted = true →
      ∃ t, step s = .next t ∧ t.status = .halted ∧ t.mem = d.mem ∧ t.pc = s.pc ∧ t.ap = s.ap ∧
        t.fp = s.fp) ∧
    (∀ f, s.pc ≠ s.programEnd → hintStep s = .fail f →
      ∃ t, step s = .next t ∧ t.status = .failed f ∧ t.mem = s.mem) ∧
    (∀ r, s.pc ≠ s.programEnd → hintStep s = .refuse r →
      ∃ t, step s = .next t ∧ t.status = .refused r ∧ t.mem = s.mem)

/-- R125, R126, R211: an empty cell at pc fails with UndefinedValue, a Relocatable there is refused, and a Felt
that is no valid word fails as DECODE does: with ReservedBitSet carrying it from 2^63 on, else with a failure of
the set E of R111, the flag fields being at the positions of D1 (log 37). -/
def Obligations.FetchFailures : Prop :=
  ∀ s : State, s.port = none → s.status = .running → s.pc ≠ s.programEnd → hintsAtPc s = [] →
    (s.mem.peek s.pc = none →
      ∃ t, step s = .next t ∧ t.status = .failed (.undefinedValue (.cell s.pc))) ∧
    (∀ r, s.mem.peek s.pc = some (.rel r) →
      ∃ t, step s = .next t ∧ t.status = .refused .instructionNotFelt) ∧
    (∀ v : Felt, s.mem.peek s.pc = some (.felt v) →
      (2 ^ 63 ≤ v.val → ∃ t, step s = .next t ∧ t.status = .failed (.reservedBitSet v.val)) ∧
      (v.val < 2 ^ 63 → ¬ ValidWord s.params v.val →
        ∃ t f, DecodeError s.params v.val f ∧ step s = .next t ∧ t.status = .failed f))

/-- R234, R248: a step of the VM that ends failed or refused leaves MEM, pc, ap and fp as they were before
the hint step. -/
def Obligations.AbortedStepsCommitNothing : Prop :=
  ∀ s t : State, s.port = none → step s = .next t →
    ((∃ f, t.status = .failed f) ∨ ∃ r, t.status = .refused r) →
    t.mem = s.mem ∧ t.pc = s.pc ∧ t.ap = s.ap ∧ t.fp = s.fp

/-! ### Invariants -/

/-- The invariant holds at reset (R38), P being positive (R136), STATUS running (R36) and no outcome on the port.
That memory lists nothing at reset is the model's empty program (log 6). -/
def Obligations.ResetMeetsInvariant : Prop := Inv State.reset

/-- R209 with R11, R26, R27, R61, R70, R137: every step from a state with pinned registers, a legal CFG, a
well-formed SIG_TAB and a canonical memory that has its builtin segments, and with only canonical Felts in MEM, in
STATUS (the info of a failure) and in the outcome of the last command, leads to such a state. -/
def Obligations.StepKeepsInvariant : Prop :=
  ∀ s t : State, Inv s → step s = .next t → Inv t

/-- R68, R69: no step of any kind changes or empties a filled cell, or removes a segment. -/
def Obligations.CellsAreWriteOnce : Prop :=
  ∀ s t : State, s.mem.wf → step s = .next t → KeepsCells s.mem t.mem ∧ s.mem.count ≤ t.mem.count

/-- R27, R29, R272 step 7: no step writes CFG, the implementation parameters (P among them), PROGRAM_END or the
hints, and once the run has started no step writes SIG_TAB. -/
def Obligations.ConfigurationIsReadOnly : Prop :=
  ∀ s t : State, step s = .next t →
    t.cfg = s.cfg ∧ t.params = s.params ∧ t.programEnd = s.programEnd ∧ t.hints = s.hints ∧
    (s.started = true → t.started = true ∧ t.sigTab = s.sigTab)

/-- R28, R272 steps 1 and 7: a launch with an exponent above 251 or a reserved CFG bit set is refused with
BadConfig and no VM step runs; any other launch is running and has started, with the CFG, the registers, PROGRAM_END
and the hints of the launch (R271). SIG_TAB (steps 5 and 6, R38, R185) is none where SIGNATURES is empty; with the SVU
active it holds for every offset the last pair that SIGNATURES lists for it, and nothing else. With the SVU inactive
the calls are refused and SIG_TAB stays none, which is the model's (log 18). The launch with every default and the
empty program is `State.reset` (R38, R271; the empty program is the model's, log 6). -/
def Obligations.LaunchChecksConfiguration : Prop :=
  (∀ (p : Params) (l : Launch), rcBoundExp l.cfg > 251 ∨ cfgReserved l.cfg ≠ 0 →
    (boot p l).status = .refused .badConfig ∧ step (boot p l) = .fault .runEnded) ∧
  (∀ (p : Params) (l : Launch), rcBoundExp l.cfg ≤ 251 → cfgReserved l.cfg = 0 →
    (boot p l).status = .running ∧ (boot p l).started = true ∧ (boot p l).cfg = l.cfg ∧
    (boot p l).pc = ⟨0, l.entryOffset⟩ ∧
    (boot p l).ap = ⟨1, l.initApOffset⟩ ∧ (boot p l).fp = ⟨1, l.initFpOffset⟩ ∧
    (boot p l).programEnd = l.programEnd ∧ (boot p l).hints = l.hints ∧ (boot p l).params = p ∧
    (l.signatures = [] ∨ sigActive l.cfg = false → (boot p l).sigTab = none) ∧
    (l.signatures ≠ [] → sigActive l.cfg = true → ∃ tab, (boot p l).sigTab = some tab ∧
      ∀ o : U32, tableLookup tab o.toNat =
        (l.signatures.reverse.find? fun e => decide (e.1 = o)).map Prod.snd)) ∧
  boot Config.params (Launch.default [] 0) = State.reset

/-- R38, R70, R137, R272 steps 2 to 4: after a legal launch element n of PROGRAM, reduced, is in cell n of
segment 0, every LAUNCH_CELLS entry is in its cell of segment 1, every other cell of every segment is empty, and
one segment stands for each active builtin after 0 and 1. LAUNCH_CELLS is a map (R271): no offset twice. -/
def Obligations.LaunchPlacesProgram : Prop :=
  ∀ (p : Params) (l : Launch), cfgLegal l.cfg = true → l.program.length ≤ 2 ^ 32 →
    (l.launchCells.map Prod.fst).Nodup →
    (∀ n (h : n < l.program.length), (boot p l).mem.peek ⟨0, BitVec.ofNat 32 n⟩ =
      some (.felt ⟨(l.program[n]).val % p.prime⟩)) ∧
    (∀ o : U32, l.program.length ≤ o.toNat → (boot p l).mem.peek ⟨0, o⟩ = none) ∧
    (∀ c ∈ l.launchCells, (∀ r, c.2 = .rel r → (boot p l).mem.peek ⟨1, c.1⟩ = some (.rel r)) ∧
      ∀ v, c.2 = .felt v → (boot p l).mem.peek ⟨1, c.1⟩ = some (.felt ⟨v.val % p.prime⟩)) ∧
    (∀ o : U32, o ∉ l.launchCells.map Prod.fst → (boot p l).mem.peek ⟨1, o⟩ = none) ∧
    (∀ a : Rel, 2 ≤ a.seg.toNat → (boot p l).mem.peek a = none) ∧
    (boot p l).mem.count =
      2 + (if rcActive l.cfg then 1 else 0) + (if sigActive l.cfg then 1 else 0) +
        (if ecActive l.cfg then 1 else 0)

/-! ### The FAU -/

/-- R138 to R141: the four modular operations, for every P; an operand that is no residue is reduced first
(R137). -/
def Obligations.FieldAddSubMulNeg : Prop :=
  ∀ (s : State) (a b : Felt), 0 < s.params.prime →
    (∃ c : Felt, c.val = (a.val + b.val) % s.params.prime ∧
      exec (.add (.felt a) (.felt b)) s = .next (s.answer (.ok (.felt c)))) ∧
    (∃ c : Felt, (c.val : Int) = ((a.val : Int) - b.val) % s.params.prime ∧
      exec (.sub (.felt a) (.felt b)) s = .next (s.answer (.ok (.felt c)))) ∧
    (∃ c : Felt, c.val = (a.val * b.val) % s.params.prime ∧
      exec (.mul (.felt a) (.felt b)) s = .next (s.answer (.ok (.felt c)))) ∧
    (∃ c : Felt, (c.val : Int) = ((s.params.prime : Int) - a.val) % s.params.prime ∧
      exec (.neg (.felt a)) s = .next (s.answer (.ok (.felt c))))

/-- R142: for every prime P INV answers the unique inverse of a non-zero operand, and fails on zero. -/
def Obligations.InverseIsUnique : Prop :=
  ∀ (s : State) (a : Felt), Nat.Prime s.params.prime → a.val < s.params.prime →
    (a.val ≠ 0 → ∃ x : Felt, 1 ≤ x.val ∧ x.val < s.params.prime ∧ (a.val * x.val) % s.params.prime = 1 ∧
      (∀ y : Felt, y.val < s.params.prime → (a.val * y.val) % s.params.prime = 1 → y = x) ∧
      exec (.inv (.felt a)) s = .next (s.answer (.ok (.felt x)))) ∧
    (a.val = 0 → exec (.inv (.felt a)) s = .next (s.answerFail (.divisionByZero [a])))

/-- R143, R149: for every prime P DIV answers the field quotient, and fails on a zero divisor, 0/0 included. -/
def Obligations.DivisionIsFieldQuotient : Prop :=
  ∀ (s : State) (a b : Felt), Nat.Prime s.params.prime → a.val < s.params.prime → b.val < s.params.prime →
    (b.val ≠ 0 → ∃ c : Felt, c.val < s.params.prime ∧ (c.val * b.val) % s.params.prime = a.val ∧
      exec (.div (.felt a) (.felt b)) s = .next (s.answer (.ok (.felt c)))) ∧
    (b.val = 0 → exec (.div (.felt a) (.felt b)) s = .next (s.answerFail (.divisionByZero [a, b])))

/-- R144 to R146: EQ and LT compare canonical values as naturals (an operand that is none is reduced first, R137),
and REDUCE answers the residue in [0, P) of an integer of any sign. -/
def Obligations.ComparesAndReduces : Prop :=
  ∀ (s : State) (a b : Felt) (n : Int), 0 < s.params.prime →
    exec (.eq (.felt a) (.felt b)) s = .next (s.answer (.ok (.bool
      (decide (a.val % s.params.prime = b.val % s.params.prime))))) ∧
    exec (.lt (.felt a) (.felt b)) s = .next (s.answer (.ok (.bool
      (decide (a.val % s.params.prime < b.val % s.params.prime))))) ∧
    ∃ c : Felt, (c.val : Int) = n % s.params.prime ∧
      exec (.reduce n) s = .next (s.answer (.ok (.felt c)))

/-- R147, R148: for a width k of at least 1, TO_UINT answers the operand if it fits k bits; TO_INT answers
whichever of a and a - P lies in [-2^(k-1), 2^(k-1) - 1], a first; else both fail with Overflow. -/
def Obligations.ConversionsCheckTheWidth : Prop :=
  ∀ (s : State) (a : Felt) (k : Nat), 1 ≤ k → a.val < s.params.prime →
    (a.val < 2 ^ k → exec (.toUint (.felt a) k) s = .next (s.answer (.ok (.nat a.val)))) ∧
    (2 ^ k ≤ a.val →
      exec (.toUint (.felt a) k) s = .next (s.answerFail (.overflow (.conversion a k)))) ∧
    (2 * a.val < 2 ^ k → exec (.toInt (.felt a) k) s = .next (s.answer (.ok (.int a.val)))) ∧
    (2 ^ k ≤ 2 * a.val → 2 * (s.params.prime - a.val) ≤ 2 ^ k →
      exec (.toInt (.felt a) k) s = .next (s.answer (.ok (.int ((a.val : Int) - s.params.prime))))) ∧
    (2 ^ k ≤ 2 * a.val → 2 ^ k < 2 * (s.params.prime - a.val) →
      exec (.toInt (.felt a) k) s = .next (s.answerFail (.overflow (.conversion a k))))

/-- R149: the laws of GF(P) for the FAU's operations, for every prime P. -/
def Obligations.FieldLaws : Prop :=
  ∀ (P : Nat) (a b c : Felt), Nat.Prime P → a.val < P → b.val < P → c.val < P →
    Fau.add P a b = Fau.add P b a ∧ Fau.add P (Fau.add P a b) c = Fau.add P a (Fau.add P b c) ∧
    Fau.mul P a b = Fau.mul P b a ∧ Fau.mul P (Fau.mul P a b) c = Fau.mul P a (Fau.mul P b c) ∧
    Fau.mul P a (Fau.add P b c) = Fau.add P (Fau.mul P a b) (Fau.mul P a c) ∧
    Fau.sub P a b = Fau.add P a (Fau.neg P b) ∧
    (∀ x, Fau.inv P a = .ok x → Fau.mul P a x = Felt.ofNat P 1) ∧
    (∀ q, Fau.div P a b = .ok q → Fau.mul P q b = a)

/-- R106, R188, R204: a Relocatable on any Felt port of the FAU, the SVU or the ECU is refused. That the SVU
and the ECU refuse it before every failure of the operation (UndefinedDictionary, PointNotOnCurve and the
others) is the model's (log 17). -/
def Obligations.FeltPortsRefuseRelocatables : Prop :=
  ∀ (s : State) (r : Rel) (a : Felt) (v : MaybeRel) (k : Nat) (off : U32),
    exec (.add (.rel r) v) s = .next (s.answer (.refused .relocatableOperand)) ∧
    exec (.add (.felt a) (.rel r)) s = .next (s.answer (.refused .relocatableOperand)) ∧
    exec (.sub (.rel r) v) s = .next (s.answer (.refused .relocatableOperand)) ∧
    exec (.sub (.felt a) (.rel r)) s = .next (s.answer (.refused .relocatableOperand)) ∧
    exec (.mul (.rel r) v) s = .next (s.answer (.refused .relocatableOperand)) ∧
    exec (.mul (.felt a) (.rel r)) s = .next (s.answer (.refused .relocatableOperand)) ∧
    exec (.div (.rel r) v) s = .next (s.answer (.refused .relocatableOperand)) ∧
    exec (.div (.felt a) (.rel r)) s = .next (s.answer (.refused .relocatableOperand)) ∧
    exec (.eq (.rel r) v) s = .next (s.answer (.refused .relocatableOperand)) ∧
    exec (.eq (.felt a) (.rel r)) s = .next (s.answer (.refused .relocatableOperand)) ∧
    exec (.lt (.rel r) v) s = .next (s.answer (.refused .relocatableOperand)) ∧
    exec (.lt (.felt a) (.rel r)) s = .next (s.answer (.refused .relocatableOperand)) ∧
    exec (.neg (.rel r)) s = .next (s.answer (.refused .relocatableOperand)) ∧
    exec (.inv (.rel r)) s = .next (s.answer (.refused .relocatableOperand)) ∧
    exec (.toUint (.rel r) k) s = .next (s.answer (.refused .relocatableOperand)) ∧
    exec (.toInt (.rel r) k) s = .next (s.answer (.refused .relocatableOperand)) ∧
    (sigActive s.cfg = true →
      exec (.sigVerify off (.rel r) v) s = .next (s.answer (.refused .relocatableOperand)) ∧
      exec (.sigVerify off v (.rel r)) s = .next (s.answer (.refused .relocatableOperand))) ∧
    (ecActive s.cfg = true → ∀ px py qx qy m : MaybeRel, (.rel r) ∈ [px, py, qx, qy, m] →
      exec (.ecOp px py qx qy m) s = .next (s.answer (.refused .relocatableOperand)))

/-- R22 to R25, R187: the frame of every unit command: nothing of the machine changes but SIG_TAB by SIG_SET.
The model's part: the answer is on the port (log 1), a command that fails or is refused leaves STATUS alone
(log 2), and only the draw counter moves besides (log 10). -/
def Obligations.UnitCommandFrame : Prop :=
  ∀ (i : Instr) (s t : State), i.record = none → exec i s = .next t →
    (∃ o, t.unitOut = some o) ∧ t.cfg = s.cfg ∧ t.pc = s.pc ∧ t.ap = s.ap ∧ t.fp = s.fp ∧
    t.mem = s.mem ∧ t.status = s.status ∧ t.started = s.started ∧ t.programEnd = s.programEnd ∧
    t.hints = s.hints ∧ t.params = s.params ∧ t.port = s.port ∧ t.hintRuns = s.hintRuns ∧
    ((∀ off r q, i ≠ .sigSet off r q) → t.sigTab = s.sigTab)

/-! ### The builtin units -/

/-- R161, R162: an active RCU accepts a Felt exactly when it is below 2^b, and never a Relocatable. -/
def Obligations.RangeCheckAcceptsBelowBound : Prop :=
  ∀ (s : State) (x : Felt) (r : Rel), rcActive s.cfg = true → x.val < s.params.prime →
    (x.val < 2 ^ rcBoundExp s.cfg → exec (.rcCheck (.felt x)) s = .next (s.answer (.ok .unit))) ∧
    (2 ^ rcBoundExp s.cfg ≤ x.val → exec (.rcCheck (.felt x)) s =
      .next (s.answerFail (.rangeCheckOutOfBounds (.felt x) (2 ^ rcBoundExp s.cfg)))) ∧
    exec (.rcCheck (.rel r)) s =
      .next (s.answerFail (.rangeCheckOutOfBounds (.rel r) (2 ^ rcBoundExp s.cfg)))

/-- R184: an active SVU on Felts: no table, no entry, some candidate verifies, no candidate verifies. R183: what
the default predicate says, `w` being the inverse of s modulo N. k·Q is groupMul: of a point of the curve, such as a
candidate, the k-fold sum of R177 (PointFormulasStayOnCurve says so); of a Point off it the sum by doubling and
adding, which is the model's reading (log 19). -/
def Obligations.SigVerifyCases : Prop :=
  (∀ (s : State) (off : U32) (pk msg : Felt), sigActive s.cfg = true → pk.val < s.params.prime →
    msg.val < s.params.prime →
    (s.sigTab = none →
      exec (.sigVerify off (.felt pk) (.felt msg)) s = .next (s.answerFail .undefinedDictionary)) ∧
    (∀ t, s.sigTab = some t → tableLookup t off.toNat = none →
      exec (.sigVerify off (.felt pk) (.felt msg)) s = .next (s.answerFail (.undefinedSignature off))) ∧
    (∀ t sig, s.sigTab = some t → tableLookup t off.toNat = some sig →
      (∃ q ∈ candidates s.params pk, sigPredicate s.params msg sig.r.toNat sig.s.toNat q = true) →
      exec (.sigVerify off (.felt pk) (.felt msg)) s = .next (s.answer (.ok .unit))) ∧
    (∀ t sig, s.sigTab = some t → tableLookup t off.toNat = some sig →
      (∀ q ∈ candidates s.params pk, sigPredicate s.params msg sig.r.toNat sig.s.toNat q = false) →
      exec (.sigVerify off (.felt pk) (.felt msg)) s =
        .next (s.answerFail (.invalidSignature sig.r.toNat sig.s.toNat msg (candidates s.params pk))))) ∧
  (∀ par : Params, par.sigScheme = .starkEcdsa →
    (∀ (z : Felt) (r s : Nat) (q : Point),
      r = 0 ∨ 2 ^ 251 ≤ r ∨ s = 0 ∨ par.curve.order ≤ s ∨ 2 ^ 251 ≤ z.val →
      sigPredicate par z r s q = false) ∧
    (∀ (z : Felt) (r s w : Nat) (q : Point), 1 ≤ r → r < 2 ^ 251 → 1 ≤ s → s < par.curve.order →
      z.val < 2 ^ 251 → w < par.curve.order → s * w % par.curve.order = 1 →
      (sigPredicate par z r s q = true ↔
        w < 2 ^ 251 ∧ ∃ a b t, groupMul par (z.val * w % par.curve.order) (some (generator par)) = .ok a ∧
          groupMul par (r * w % par.curve.order) (some q) = .ok b ∧ groupAdd par a b = .ok (some t) ∧
          t.x.val = r)))

/-- R185, with the unit active (R105; log 18): before the run starts SIG_SET sets its entry, creating the
table if there was none, and leaves every other entry; afterwards it is refused. -/
def Obligations.SigSetWritesOneEntry : Prop :=
  ∀ (s : State) (off : U32) (r q : BitVec 256), sigActive s.cfg = true →
    (s.started = false → ∃ tab, exec (.sigSet off r q) s = .next ((s.setSigTab tab).answer (.ok .unit)) ∧
      tableLookup tab off.toNat = some ⟨r, q⟩ ∧
      ∀ k, k ≠ off.toNat → tableLookup tab k = tableLookup (s.sigTab.getD []) k) ∧
    (s.started = true → exec (.sigSet off r q) s = .next (s.answer (.refused .hostWriteDuringRun)))

/-- R178: for every prime P the candidates for x are exactly the points (x, y) with y^2 = ySquared(x), the smaller
y first. -/
def Obligations.CandidatesAreThePoints : Prop :=
  ∀ (par : Params) (x : Felt), Nat.Prime par.prime → x.val < par.prime →
    (∀ q : Point, q.canonical par.prime = true →
      (q ∈ candidates par x ↔ q.x = x ∧ Fau.mul par.prime q.y q.y = ySquared par x)) ∧
    (∀ q ∈ candidates par x, q.canonical par.prime = true) ∧
    (candidates par x).Pairwise (fun a b => a.y.val < b.y.val)

/-- R173, R175, R176, for every odd prime P: two points with different x add, and a point with y ≠ 0 doubles, by
the slope `l` of the chord or the tangent, and to a point of the curve if they are on it. R177: the group law, by
these formulas. -/
def Obligations.PointFormulasStayOnCurve : Prop :=
  ∀ par : Params, Nat.Prime par.prime → par.prime ≠ 2 →
    let P := par.prime
    (∀ p q : Point, p.canonical P = true → q.canonical P = true → p.x ≠ q.x →
      ∃ l r, Fau.mul P l (Fau.sub P q.x p.x) = Fau.sub P q.y p.y ∧
        r.x = Fau.sub P (Fau.sub P (Fau.mul P l l) p.x) q.x ∧
        r.y = Fau.sub P (Fau.mul P l (Fau.sub P p.x r.x)) p.y ∧
        ecAddDistinct par p q = .ok r ∧ groupAdd par (some p) (some q) = .ok (some r) ∧
        (onCurve par p = true → onCurve par q = true → onCurve par r = true)) ∧
    (∀ p : Point, p.canonical P = true → p.y.val ≠ 0 →
      ∃ l r, Fau.mul P l (Fau.mul P (Felt.ofNat P 2) p.y) =
          Fau.add P (Fau.mul P (Felt.ofNat P 3) (Fau.mul P p.x p.x)) (curveAlpha par) ∧
        r.x = Fau.sub P (Fau.mul P l l) (Fau.mul P (Felt.ofNat P 2) p.x) ∧
        r.y = Fau.sub P (Fau.mul P l (Fau.sub P p.x r.x)) p.y ∧ ecDouble par p = .ok r ∧
        groupAdd par (some p) (some p) = .ok (some r) ∧ (onCurve par p = true → onCurve par r = true)) ∧
    (∀ (q : GroupPoint) (p : Point), groupAdd par none q = .ok q ∧ groupAdd par q none = .ok q ∧
      groupAdd par (some p) (some (ecNegate par p)) = .ok none) ∧
    (∀ q : GroupPoint, (∀ p, q = some p → p.canonical P = true) →
      groupMul par 0 q = .ok none ∧ groupMul par 1 q = .ok q ∧ groupMul par 2 q = groupAdd par q q) ∧
    (∀ q : GroupPoint, (∀ p, q = some p → p.canonical P = true ∧ onCurve par p = true) →
      ∀ k : Nat, ∃ r, groupSum par q k = .ok r ∧ groupMul par k q = .ok r)

/-- R196 to R198: an active ECU whose inputs pass the curve check (where that is made) answers the result of the
ladder's EC_HEIGHT iterations where they all go through; and it answers a point only so: where both checks passed
and every iteration went through to that point. R202: for every odd prime P, where both points are on the curve that
point is P + m·Q of the group law (R177; PointFormulasStayOnCurve says that m·Q is the m-fold sum). -/
def Obligations.EcOpRunsTheLadder : Prop :=
  ∀ (s : State) (p q r : Point) (m : Felt), ecActive s.cfg = true → p.canonical s.params.prime = true →
    q.canonical s.params.prime = true → m.val < s.params.prime →
    (EcChecked s.params p q → LadderRun s.params p q m r →
      exec (.ecOp (.felt p.x) (.felt p.y) (.felt q.x) (.felt q.y) (.felt m)) s =
        .next (s.answer (.ok (.point r)))) ∧
    (exec (.ecOp (.felt p.x) (.felt p.y) (.felt q.x) (.felt q.y) (.felt m)) s =
        .next (s.answer (.ok (.point r))) →
      EcChecked s.params p q ∧ LadderRun s.params p q m r) ∧
    (Nat.Prime s.params.prime → s.params.prime ≠ 2 → onCurve s.params p = true → onCurve s.params q = true →
      exec (.ecOp (.felt p.x) (.felt p.y) (.felt q.x) (.felt q.y) (.felt m)) s =
        .next (s.answer (.ok (.point r))) →
      ∃ mq, groupMul s.params m.val (some q) = .ok mq ∧ groupAdd s.params (some p) mq = .ok (some r))

/-- R196, R198: with the curve check, a point off the curve fails with PointNotOnCurve, P first. Without a failed
check, equal x-coordinates at any iteration, the first or a later one, fail with LadderFailure whatever the scalar
is (R196, R199), a doubling of a point with y = 0 fails with one of its two kinds (R200; the draw is log 10, the
operands it carries log 25), and a scalar that is not used up after the last iteration fails with LadderFailure;
R201: one that does not fit EC_HEIGHT bits never gives a point. -/
def Obligations.EcOpRejectsItsInputs : Prop :=
  ∀ (s : State) (p q : Point) (m : Felt), ecActive s.cfg = true → p.canonical s.params.prime = true →
    q.canonical s.params.prime = true → m.val < s.params.prime →
    let i : Instr := .ecOp (.felt p.x) (.felt p.y) (.felt q.x) (.felt q.y) (.felt m)
    (s.params.ecCheckOnCurve = true → onCurve s.params p = false →
      exec i s = .next (s.answerFail (.pointNotOnCurve p))) ∧
    (s.params.ecCheckOnCurve = true → onCurve s.params p = true → onCurve s.params q = false →
      exec i s = .next (s.answerFail (.pointNotOnCurve q))) ∧
    (EcChecked s.params p q → ∀ (n k : Nat) (acc dbl : Point),
      LadderSteps s.params n (p, q, m.val) (acc, dbl, k) →
      (n < s.params.ecHeight → dbl.x = acc.x → exec i s = .next (s.answerFail (.ladderFailure p q m))) ∧
      (n < s.params.ecHeight → dbl.x ≠ acc.x → dbl.y.val = 0 →
        exec i s = .next (s.answerFail (.ladderFailure p q m)) ∨
        exec i s = .next (s.answerFail (.divisionByZero [tangentRise s.params dbl, Felt.zero]))) ∧
      (n = s.params.ecHeight → k ≠ 0 → exec i s = .next (s.answerFail (.ladderFailure p q m)))) ∧
    (2 ^ s.params.ecHeight ≤ m.val → ∃ f, exec i s = .next (s.answerFail f))

/-- R105: a command to an inactive builtin unit is refused with InactiveUnit, and a command whose code is that
of no instruction with UnknownCommand. The model's part: SIG_SET is refused so too (log 18); the command is taken
off the port and answered there (log 1), and a step serves it whatever STATUS is (log 3). -/
def Obligations.InactiveAndUnknownRefused : Prop :=
  (∀ (s : State) (v : MaybeRel), rcActive s.cfg = false →
    exec (.rcCheck v) s = .next (s.answer (.refused .inactiveUnit))) ∧
  (∀ (s : State) (off : U32) (pk msg : MaybeRel) (r q : BitVec 256), sigActive s.cfg = false →
    exec (.sigVerify off pk msg) s = .next (s.answer (.refused .inactiveUnit)) ∧
    exec (.sigSet off r q) s = .next (s.answer (.refused .inactiveUnit))) ∧
  (∀ (s : State) (px py qx qy m : MaybeRel), ecActive s.cfg = false →
    exec (.ecOp px py qx qy m) s = .next (s.answer (.refused .inactiveUnit))) ∧
  (∀ (s : State) (q : Request), s.port = some q →
    (∀ i c, encodeRequest i = some c → c.code ≠ q.code) →
    step s = .next (s.takeRequest.answer (.refused .unknownCommand)))

/-! ### Address arithmetic -/

/-- R50, R54: addInt and subRel: the exact result in range (as a Felt), Overflow or Underflow out of it, the
segment check first. -/
def Obligations.AddressArithmeticIsChecked : Prop :=
  (∀ (r : Rel) (k : Int),
    (0 ≤ (r.off.toNat : Int) + k → (r.off.toNat : Int) + k ≤ 2 ^ 32 - 1 →
      ∃ t, addInt r k = .ok t ∧ t.seg = r.seg ∧ (t.off.toNat : Int) = r.off.toNat + k) ∧
    ((r.off.toNat : Int) + k > 2 ^ 32 - 1 → addInt r k = .fail (.overflow (.address r (.int k)))) ∧
    ((r.off.toNat : Int) + k < 0 → addInt r k = .fail (.underflow r (.int k)))) ∧
  (∀ (par : Params) (a b : Rel),
    (a.seg ≠ b.seg → subRel par a b = .fail (.segmentMismatch a b)) ∧
    (a.seg = b.seg → a.off.toNat < b.off.toNat → subRel par a b = .fail (.underflow a (.val (.rel b)))) ∧
    (a.seg = b.seg → b.off.toNat ≤ a.off.toNat →
      ∃ v, subRel par a b = .ok v ∧ v.val = (a.off.toNat - b.off.toNat) % par.prime))

/-- R51, R52: a Felt added to or subtracted from an address, in both readings of FELT_OFFSET_MODE. -/
def Obligations.FeltOffsetsInBothModes : Prop :=
  ∀ (par : Params) (r : Rel) (v : Felt), 0 < par.prime →
    (par.feltOffsetMode = .unsigned32 →
      (if v.val ≤ 2 ^ 32 - 1 ∧ r.off.toNat + v.val ≤ 2 ^ 32 - 1 then
        ∃ t, addFelt par r v = .ok t ∧ t.seg = r.seg ∧ t.off.toNat = r.off.toNat + v.val
      else addFelt par r v = .fail (.overflow (.address r (.val (.felt v))))) ∧
      (if 2 ^ 32 - 1 < v.val then subFelt par r v = .fail (.overflow (.address r (.val (.felt v))))
      else if r.off.toNat < v.val then subFelt par r v = .fail (.underflow r (.val (.felt v)))
      else ∃ t, subFelt par r v = .ok t ∧ t.seg = r.seg ∧ t.off.toNat = r.off.toNat - v.val)) ∧
    (par.feltOffsetMode = .fieldWrap →
      (if (r.off.toNat + v.val) % par.prime ≤ 2 ^ 32 - 1 then
        ∃ t, addFelt par r v = .ok t ∧ t.seg = r.seg ∧ t.off.toNat = (r.off.toNat + v.val) % par.prime
      else addFelt par r v = .fail (.overflow (.address r (.val (.felt v))))) ∧
      (if ((r.off.toNat : Int) - v.val) % par.prime ≤ 2 ^ 32 - 1 then
        ∃ t, subFelt par r v = .ok t ∧ t.seg = r.seg ∧
          (t.off.toNat : Int) = ((r.off.toNat : Int) - v.val) % par.prime
      else subFelt par r v = .fail (.underflow r (.val (.felt v)))))

/-- R59: adding k and subtracting it again gives the address back, for Felts in both modes (P being beyond the
offsets, as R136 has it) and for integers. -/
def Obligations.AddThenSubtractRestores : Prop :=
  ∀ (par : Params) (r : Rel) (k : Nat), 2 ^ 32 ≤ par.prime → r.off.toNat + k ≤ 2 ^ 32 - 1 →
    (∃ t, addFelt par r (Felt.ofNat par.prime k) = .ok t ∧ subFelt par t (Felt.ofNat par.prime k) = .ok r) ∧
    (∃ t, addInt r k = .ok t ∧ addInt t (-k) = .ok r)

/-- R49, R55, R56, R57: the four MaybeRel operators on every pair of operand kinds: the FAU on two Felts, the
address arithmetic on a Relocatable and a Felt and on two Relocatables, ForbiddenOperation on the rest. -/
def Obligations.ForbiddenOperandPairs : Prop :=
  ∀ (par : Params) (r t : Rel) (v w : Felt) (x : MaybeRel),
    mrAdd par (.felt v) (.felt w) = .ok (.felt (Fau.add par.prime v w)) ∧
    mrSub par (.felt v) (.felt w) = .ok (.felt (Fau.sub par.prime v w)) ∧
    mrMul par (.felt v) (.felt w) = .ok (.felt (Fau.mul par.prime v w)) ∧
    mrDiv par (.felt v) (.felt w) = (Fau.div par.prime v w).bind (fun q => .ok (.felt q)) ∧
    mrAdd par (.rel r) (.felt v) = (addFelt par r v).bind (fun a => .ok (.rel a)) ∧
    mrAdd par (.felt v) (.rel r) = (addFelt par r v).bind (fun a => .ok (.rel a)) ∧
    mrSub par (.rel r) (.felt v) = (subFelt par r v).bind (fun a => .ok (.rel a)) ∧
    mrSub par (.rel r) (.rel t) = (subRel par r t).bind (fun d => .ok (.felt d)) ∧
    mrAdd par (.rel r) (.rel t) = .fail (.forbiddenOperation (.rel r) (.rel t)) ∧
    mrSub par (.felt v) (.rel r) = .fail (.forbiddenOperation (.felt v) (.rel r)) ∧
    mrMul par (.rel r) x = .fail (.forbiddenOperation (.rel r) x) ∧
    mrMul par x (.rel r) = .fail (.forbiddenOperation x (.rel r)) ∧
    mrDiv par (.rel r) x = .fail (.forbiddenOperation (.rel r) x) ∧
    mrDiv par x (.rel r) = .fail (.forbiddenOperation x (.rel r))

/-! ### Memory and the builtin segments -/

/-- R64, R65, R67: MemWrite: refused in an absent segment or through a Felt, a no-op on an equal value,
InconsistentMemory on another, and an empty cell that no unit's rule checks it fills, and no other cell: a cell of
no builtin segment, or an input cell of the ECU's segment (R203: input cells are written like any cell). -/
def Obligations.MemWriteIsAssertEq : Prop :=
  ∀ (s : State) (m : Memory) (a : Rel) (v : MaybeRel) (x : Felt),
    memWriteAt s m (.felt x) v = .refuse .feltAddress ∧
    (v.canonical s.params.prime = true → memWriteAt s m (.rel a) v = memWrite s m a v) ∧
    (m.count ≤ a.seg.toNat → memWrite s m a v = .refuse .unallocatedSegment) ∧
    (m.peek a = some v → memWrite s m a v = .ok m) ∧
    (∀ c, m.peek a = some c → c ≠ v → memWrite s m a v = .fail (.inconsistentMemory a c v)) ∧
    (a.seg.toNat < m.count → m.peek a = none → rcSegment s.cfg ≠ some a.seg.toNat →
      sigSegment s.cfg ≠ some a.seg.toNat → (ecSegment s.cfg = some a.seg.toNat → a.off.toNat % 7 < 5) →
      ∃ m', memWrite s m a v = .ok m' ∧ m'.peek a = some v ∧ m'.count = m.count ∧
        ∀ b, b ≠ a → m'.peek b = m.peek b)

/-- R62: an allocation answers the old count, adds one segment and changes no cell; above 2^32 segments it
is refused. The canonical form, assumed and kept, is the model's (log 14). -/
def Obligations.AllocateAppendsASegment : Prop :=
  ∀ m : Memory, m.wf →
    (m.count < 2 ^ 32 → ∃ m', m.allocate = .ok (m.count, m') ∧ m'.count = m.count + 1 ∧ m'.wf ∧
      ∀ a, m'.peek a = m.peek a) ∧
    (2 ^ 32 ≤ m.count → m.allocate = .refuse .segmentSpaceExhausted)

/-- R165: a write that fills a cell of the range-check segment is accepted exactly when RC_CHECK accepts the
value; a write of an equal value is not checked again. For a Relocatable only the failure is claimed, not its
kind (R162). -/
def Obligations.RangeCheckSegmentValidates : Prop :=
  ∀ (s : State) (m : Memory) (a : Rel), rcSegment s.cfg = some a.seg.toNat → a.seg.toNat < m.count →
    (∀ x : Felt, m.peek a = none → x.val < 2 ^ rcBoundExp s.cfg →
      memWrite s m a (.felt x) = .ok (m.set a (.felt x))) ∧
    (∀ x : Felt, m.peek a = none → 2 ^ rcBoundExp s.cfg ≤ x.val →
      memWrite s m a (.felt x) = .fail (.rangeCheckOutOfBounds (.felt x) (2 ^ rcBoundExp s.cfg))) ∧
    (∀ r : Rel, m.peek a = none → ∃ f, memWrite s m a (.rel r) = .fail f) ∧
    (∀ v, m.peek a = some v → memWrite s m a v = .ok m)

/-- R190: a write that fills the first cell of an instance of the signature segment is accepted; the write
that completes the pair, whichever cell that is, runs SIG_VERIFY under the public-key cell's offset. -/
def Obligations.SignatureSegmentVerifiesPairs : Prop :=
  ∀ (s : State) (m : Memory) (a partner : Rel) (v : MaybeRel),
    sigSegment s.cfg = some a.seg.toNat → a.seg.toNat < m.count → m.peek a = none →
    partner.seg = a.seg →
    partner.off.toNat = (if a.off.toNat % 2 = 0 then a.off.toNat + 1 else a.off.toNat - 1) →
    (m.peek partner = none → memWrite s m a v = .ok (m.set a v)) ∧
    (∀ w, m.peek partner = some w → a.off.toNat % 2 = 0 →
      memWrite s m a v =
        (sigVerify s.cfg s.params s.sigTab a.off v w).bind fun _ => .ok (m.set a v)) ∧
    (∀ w, m.peek partner = some w → a.off.toNat % 2 = 1 →
      memWrite s m a v =
        (sigVerify s.cfg s.params s.sigTab partner.off w v).bind fun _ => .ok (m.set a v))

/-- R203: the read of an empty output cell of the ECU's segment: with an empty input it fails; with five
Felts and a result R it answers its coordinate of R, fills both outputs and no other cell, the partner being
empty or holding its coordinate already; a partner that holds another value makes it fail (R67). A failure of
EC_OP is the read's, and with a Relocatable in an input cell the read is refused (R204, R106). That UndefinedValue
carries the output cell's address, and that the partner is written by assertEq, is the model's (logs 16, 21). -/
def Obligations.EcOutputIsDeducedOnRead : Prop :=
  ∀ (s : State) (m : Memory) (a : Rel) (k : Nat), ecSegment s.cfg = some a.seg.toNat →
    a.seg.toNat < m.count → (a.off.toNat = 7 * k + 5 ∨ a.off.toNat = 7 * k + 6) → m.peek a = none →
    ((∃ j < 5, m.peek ⟨a.seg, BitVec.ofNat 32 (7 * k + j)⟩ = none) →
      resolve s m a = .fail (.undefinedValue (.cell a))) ∧
    (∀ (px py qx qy c : MaybeRel) (t : Rel), EcInputs m a.seg k px py qx qy c → .rel t ∈ [px, py, qx, qy, c] →
      resolve s m a = .refuse .relocatableOperand) ∧
    (∀ (p q : Point) (c : Felt) (f : Failure),
      EcInputs m a.seg k (.felt p.x) (.felt p.y) (.felt q.x) (.felt q.y) (.felt c) →
      ecOpFelts s.params s.draws p q c = .fail f → resolve s m a = .fail f) ∧
    (∀ (p q r : Point) (c : Felt),
      EcInputs m a.seg k (.felt p.x) (.felt p.y) (.felt q.x) (.felt q.y) (.felt c) →
      ecOpFelts s.params s.draws p q c = .ok r →
      ((∀ v, m.peek ⟨a.seg, BitVec.ofNat 32 (7 * k + 5)⟩ = some v → v = .felt r.x) →
        (∀ v, m.peek ⟨a.seg, BitVec.ofNat 32 (7 * k + 6)⟩ = some v → v = .felt r.y) →
        ∃ m', resolve s m a = .ok (some (.felt (if a.off.toNat = 7 * k + 5 then r.x else r.y)), m') ∧
          m'.peek ⟨a.seg, BitVec.ofNat 32 (7 * k + 5)⟩ = some (.felt r.x) ∧
          m'.peek ⟨a.seg, BitVec.ofNat 32 (7 * k + 6)⟩ = some (.felt r.y) ∧
          ∀ b, b ≠ ⟨a.seg, BitVec.ofNat 32 (7 * k + 5)⟩ → b ≠ ⟨a.seg, BitVec.ofNat 32 (7 * k + 6)⟩ →
            m'.peek b = m.peek b) ∧
      (∀ v, m.peek ⟨a.seg, BitVec.ofNat 32 (7 * k + 5)⟩ = some v → v ≠ .felt r.x →
        resolve s m a =
          .fail (.inconsistentMemory ⟨a.seg, BitVec.ofNat 32 (7 * k + 5)⟩ v (.felt r.x))) ∧
      (∀ v, m.peek ⟨a.seg, BitVec.ofNat 32 (7 * k + 6)⟩ = some v → v ≠ .felt r.y →
        resolve s m a =
          .fail (.inconsistentMemory ⟨a.seg, BitVec.ofNat 32 (7 * k + 6)⟩ v (.felt r.y))))

/-- R203: a write to an empty output cell of the ECU's segment: refused while an input is empty; with five
Felts and a result R, only R's coordinate is accepted. A failure of EC_OP is the write's, and with a Relocatable in
an input cell the write is refused (R204, R106). That the write fills that one cell is the model's (log 16). -/
def Obligations.EcOutputWriteMustAgree : Prop :=
  ∀ (s : State) (m : Memory) (a : Rel) (k : Nat) (v : MaybeRel), ecSegment s.cfg = some a.seg.toNat →
    a.seg.toNat < m.count → (a.off.toNat = 7 * k + 5 ∨ a.off.toNat = 7 * k + 6) → m.peek a = none →
    ((∃ j < 5, m.peek ⟨a.seg, BitVec.ofNat 32 (7 * k + j)⟩ = none) →
      memWrite s m a v = .refuse .ecOutputBeforeInputs) ∧
    (∀ (px py qx qy c : MaybeRel) (t : Rel), EcInputs m a.seg k px py qx qy c → .rel t ∈ [px, py, qx, qy, c] →
      memWrite s m a v = .refuse .relocatableOperand) ∧
    (∀ (p q : Point) (c : Felt) (f : Failure),
      EcInputs m a.seg k (.felt p.x) (.felt p.y) (.felt q.x) (.felt q.y) (.felt c) →
      ecOpFelts s.params s.draws p q c = .fail f → memWrite s m a v = .fail f) ∧
    (∀ (p q r : Point) (c : Felt),
      EcInputs m a.seg k (.felt p.x) (.felt p.y) (.felt q.x) (.felt q.y) (.felt c) →
      ecOpFelts s.params s.draws p q c = .ok r →
      if v = .felt (if a.off.toNat = 7 * k + 5 then r.x else r.y) then
        memWrite s m a v = .ok (m.set a v)
      else memWrite s m a v =
        .fail (.inconsistentMemory a (.felt (if a.off.toNat = 7 * k + 5 then r.x else r.y)) v))

/-! ### Operands -/

/-- R214: the address of op1 from each source; the mismatch check of the immediate depends on no
register. -/
def Obligations.Op1AddressBySource : Prop :=
  ∀ (s : State) (off : BitVec 16) (op0 : Option MaybeRel),
    computeOp1Address s .fp off op0 = addInt s.fp off.toInt ∧
    computeOp1Address s .ap off op0 = addInt s.ap off.toInt ∧
    (off.toInt = 1 → computeOp1Address s .imm off op0 = addInt s.pc 1) ∧
    (off.toInt ≠ 1 → computeOp1Address s .imm off op0 = .fail (.immediateOffsetMismatch off.toInt)) ∧
    computeOp1Address s .op0 off none = .fail .op0Undefined ∧
    (∀ v, computeOp1Address s .op0 off (some (.felt v)) = .fail (.op0NotAddress (.felt v))) ∧
    (∀ r, computeOp1Address s .op0 off (some (.rel r)) = addInt r off.toInt)

/-- R212, R213, R215: when the three cells are filled, the operands are their values, nothing is inferred
and memory is as it was, for every opcode and every source. R221: res of these operands, for each result
logic. With an EMPTY cell, which is no output cell of the ECU: a Call takes its fp for an empty dst and its return
address for an empty op0 (R216); an AssertEq with exactly one empty cell reads the two others and infers the third
by R220, an inferred op1 or op0 to be written at the instruction's own op1 or op0 address (R226), and a failure of
the operator is the instruction's. -/
def Obligations.FilledOperandsAreRead : Prop :=
  ∀ (i : Instruction) (s : State) (dstA op0A op1A : Rel) (d a b : MaybeRel),
    addInt (match i.dstReg with | .ap => s.ap | .fp => s.fp) i.offDst.toInt = .ok dstA →
    addInt (match i.op0Reg with | .ap => s.ap | .fp => s.fp) i.offOp0.toInt = .ok op0A →
    (computeOp1Address s i.op1Src i.offOp1 (some a) = .ok op1A →
      s.mem.peek dstA = some d → s.mem.peek op0A = some a → s.mem.peek op1A = some b →
      let o : Operands := ⟨dstA, op0A, d, a, b, none, s.mem⟩
      readOperands i s = .ok o ∧
      (i.resLogic = .op1 → computeRes i s o = .ok (some b)) ∧
      (i.resLogic = .add → computeRes i s o = (mrAdd s.params a b).bind fun v => .ok (some v)) ∧
      (i.resLogic = .mul → computeRes i s o = (mrMul s.params a b).bind fun v => .ok (some v)) ∧
      (i.resLogic = .unconstrained → computeRes i s o = .ok none)) ∧
    (i.opcode = .call → ∀ ra : Rel,
      (s.mem.peek dstA = some d ∨ s.mem.peek dstA = none ∧ ecOutput s.cfg dstA = none ∧ d = .rel s.fp) →
      (s.mem.peek op0A = some a ∨ s.mem.peek op0A = none ∧ ecOutput s.cfg op0A = none ∧
        s.pc.off.toNat + i.size.toNat < 2 ^ 32 ∧
        ra = ⟨s.pc.seg, BitVec.ofNat 32 (s.pc.off.toNat + i.size.toNat)⟩ ∧ a = .rel ra) →
      computeOp1Address s i.op1Src i.offOp1 (some a) = .ok op1A → s.mem.peek op1A = some b →
      readOperands i s = .ok ⟨dstA, op0A, d, a, b, none, s.mem⟩) ∧
    (i.opcode = .assertEq → computeOp1Address s i.op1Src i.offOp1 (some a) = .ok op1A →
      s.mem.peek dstA = none → ecOutput s.cfg dstA = none →
      s.mem.peek op0A = some a → s.mem.peek op1A = some b →
      let o (v : MaybeRel) : Res Operands := .ok ⟨dstA, op0A, v, a, b, none, s.mem⟩
      (i.resLogic = .op1 → readOperands i s = o b) ∧
      (i.resLogic = .add → readOperands i s = (mrAdd s.params a b).bind o) ∧
      (i.resLogic = .mul → readOperands i s = (mrMul s.params a b).bind o)) ∧
    (i.opcode = .assertEq → computeOp1Address s i.op1Src i.offOp1 (some a) = .ok op1A →
      s.mem.peek dstA = some d → s.mem.peek op0A = some a →
      s.mem.peek op1A = none → ecOutput s.cfg op1A = none →
      let o (v : MaybeRel) : Res Operands := .ok ⟨dstA, op0A, d, a, v, some (op1A, v), s.mem⟩
      (i.resLogic = .op1 → readOperands i s = o d) ∧
      (i.resLogic = .add → readOperands i s = (mrSub s.params d a).bind o) ∧
      (i.resLogic = .mul → readOperands i s = (mrDiv s.params d a).bind o)) ∧
    (i.opcode = .assertEq → computeOp1Address s i.op1Src i.offOp1 none = .ok op1A →
      s.mem.peek dstA = some d → s.mem.peek op0A = none → ecOutput s.cfg op0A = none →
      s.mem.peek op1A = some b →
      let o (v : MaybeRel) : Res Operands := .ok ⟨dstA, op0A, d, v, b, some (op0A, v), s.mem⟩
      (i.resLogic = .add → readOperands i s = (mrSub s.params d b).bind o) ∧
      (i.resLogic = .mul → readOperands i s = (mrDiv s.params d b).bind o))

/-- R220: what AssertEq infers when exactly one operand is unknown, for Op1, Add and Mul. That the UndefinedValue
of Op1 with op0 unknown carries the instruction's pc is the model's (log 21). -/
def Obligations.AssertEqInfersOneOperand : Prop :=
  ∀ (i : Instruction) (s : State) (op0A op1A : Rel) (d a b : MaybeRel), i.opcode = .assertEq →
    (i.resLogic = .op1 →
      infer i s op0A op1A none (some a) (some b) = .ok (b, a, b, none) ∧
      infer i s op0A op1A (some d) (some a) none = .ok (d, a, d, some (op1A, d)) ∧
      infer i s op0A op1A (some d) none (some b) = .fail (.undefinedValue (.instruction s.pc))) ∧
    (i.resLogic = .add →
      (∀ v, mrAdd s.params a b = .ok v →
        infer i s op0A op1A none (some a) (some b) = .ok (v, a, b, none)) ∧
      (∀ v, mrSub s.params d a = .ok v →
        infer i s op0A op1A (some d) (some a) none = .ok (d, a, v, some (op1A, v))) ∧
      (∀ v, mrSub s.params d b = .ok v →
        infer i s op0A op1A (some d) none (some b) = .ok (d, v, b, some (op0A, v)))) ∧
    (i.resLogic = .mul →
      (∀ v, mrMul s.params a b = .ok v → infer i s op0A op1A none (some a) (some b) = .ok (v, a, b, none)) ∧
      (∀ v, mrDiv s.params d a = .ok v →
        infer i s op0A op1A (some d) (some a) none = .ok (d, a, v, some (op1A, v))) ∧
      (∀ v, mrDiv s.params d b = .ok v →
        infer i s op0A op1A (some d) none (some b) = .ok (d, v, b, some (op0A, v))))

/-- R217 to R219: with two unknown operands, with one and an opcode other than AssertEq, or with one and
Unconstrained, the instruction fails with UndefinedValue: its dst, op0 and op1 cells exist as addresses and are
no output cells of the ECU. A Call, whose dst and op0 are never unknown (R216), fails so when its op1 cell is
empty (R218). R222: AssertEq with Unconstrained fails so with all three filled. That the failure carries pc is
the model's (log 21).

R234: the failure or the refusal of any sub-step is the instruction's, for all twelve rows, in the order of R207: the
dst and op0 addresses (R212), the read of op0 or a Call's return address for it (R213, R216), the op1 address (R214),
the reads of dst and op1, the operand sub-step as a whole (the inference of R220 included), res, whether or not
anything uses it (R221), the writes (R226), the pc update (Overflow behind the instruction, R228; a displacement that
fails or is a Relocatable, R230, R231), and the ap update (R232), one that has no res carrying pc (log 21). -/
def Obligations.UnresolvedOperandsFail : Prop :=
  (∀ (i : Instr) (r : Instruction) (s : State) (dstA op0A op1A : Rel), i.record = some r →
    computeAddress s r.dstReg r.offDst = .ok dstA → computeAddress s r.op0Reg r.offOp0 = .ok op0A →
    ecOutput s.cfg dstA = none → ecOutput s.cfg op0A = none → ecOutput s.cfg op1A = none →
    (r.opcode ≠ .call → computeOp1Address s r.op1Src r.offOp1 (s.mem.peek op0A) = .ok op1A →
      ((s.mem.peek dstA = none ∧ s.mem.peek op0A = none) ∨
        (s.mem.peek dstA = none ∧ s.mem.peek op1A = none) ∨
        (s.mem.peek op0A = none ∧ s.mem.peek op1A = none) ∨
        ((s.mem.peek dstA = none ∨ s.mem.peek op0A = none ∨ s.mem.peek op1A = none) ∧
          (r.opcode ≠ .assertEq ∨ r.resLogic = .unconstrained)) ∨
        (r.opcode = .assertEq ∧ r.resLogic = .unconstrained)) →
      exec i s = .next (s.fail (.undefinedValue (.instruction s.pc)))) ∧
    (∀ ra, r.opcode = .call → addInt s.pc r.size = .ok ra →
      computeOp1Address s r.op1Src r.offOp1 (some ((s.mem.peek op0A).getD (.rel ra))) = .ok op1A →
      s.mem.peek op1A = none → exec i s = .next (s.fail (.undefinedValue (.instruction s.pc))))) ∧
  ∀ (i : Instr) (r : Instruction) (s : State), i.record = some r →
    (∀ f, addInt (match r.dstReg with | .ap => s.ap | .fp => s.fp) r.offDst.toInt = .fail f →
      exec i s = .next (s.fail f)) ∧
    (∀ dstA, addInt (match r.dstReg with | .ap => s.ap | .fp => s.fp) r.offDst.toInt = .ok dstA →
      (∀ f, addInt (match r.op0Reg with | .ap => s.ap | .fp => s.fp) r.offOp0.toInt = .fail f →
        exec i s = .next (s.fail f)) ∧
      ∀ op0A, addInt (match r.op0Reg with | .ap => s.ap | .fp => s.fp) r.offOp0.toInt = .ok op0A →
        (∀ f, resolve s s.mem op0A = .fail f → exec i s = .next (s.fail f)) ∧
        (∀ q, resolve s s.mem op0A = .refuse q → exec i s = .next (s.refuse q)) ∧
        (∀ m f, r.opcode = .call → resolve s s.mem op0A = .ok (none, m) → addInt s.pc r.size = .fail f →
          exec i s = .next (s.fail f)) ∧
        ∀ x m0, Op0Read r s op0A x m0 →
          (∀ f, computeOp1Address s r.op1Src r.offOp1 x = .fail f → exec i s = .next (s.fail f)) ∧
          ∀ op1A, computeOp1Address s r.op1Src r.offOp1 x = .ok op1A →
            (∀ f, resolve s m0 dstA = .fail f → exec i s = .next (s.fail f)) ∧
            (∀ q, resolve s m0 dstA = .refuse q → exec i s = .next (s.refuse q)) ∧
            ∀ d m1, resolve s m0 dstA = .ok (d, m1) →
              (∀ f, resolve s m1 op1A = .fail f → exec i s = .next (s.fail f)) ∧
              ∀ q, resolve s m1 op1A = .refuse q → exec i s = .next (s.refuse q)) ∧
    (∀ f, readOperands r s = .fail f → exec i s = .next (s.fail f)) ∧
    (∀ q, readOperands r s = .refuse q → exec i s = .next (s.refuse q)) ∧
    ∀ o, readOperands r s = .ok o →
      (∀ f, r.resLogic = .add ∧ mrAdd s.params o.op0 o.op1 = .fail f ∨
          r.resLogic = .mul ∧ mrMul s.params o.op0 o.op1 = .fail f →
        exec i s = .next (s.fail f)) ∧
      ∀ res, computeRes r s o = .ok res →
        (∀ f, opcodeEffect r s o res = .fail f → exec i s = .next (s.fail f)) ∧
        (∀ q, opcodeEffect r s o res = .refuse q → exec i s = .next (s.refuse q)) ∧
        ∀ m, opcodeEffect r s o res = .ok m →
          (r.pcUpdate = .regular ∨ r.pcUpdate = .jnz ∧ o.dst = .felt Felt.zero →
            2 ^ 32 ≤ s.pc.off.toNat + r.size.toNat →
            exec i s = .next (s.fail (.overflow (.address s.pc (.int r.size))))) ∧
          (∀ v, r.pcUpdate = .jumpRel ∧ res = some v ∨
              r.pcUpdate = .jnz ∧ o.dst ≠ .felt Felt.zero ∧ o.op1 = v →
            (∀ x f, v = .felt x → addFelt s.params s.pc x = .fail f → exec i s = .next (s.fail f)) ∧
            ∀ t, v = .rel t → exec i s = .next (s.fail (.forbiddenOperation (.rel s.pc) (.rel t)))) ∧
          ∀ npc, PcTarget r s o res npc →
            (∀ n : Nat, r.apUpdate = .add1 ∧ n = 1 ∨ r.apUpdate = .add2 ∧ n = 2 → 2 ^ 32 ≤ s.ap.off.toNat + n →
              exec i s = .next (s.fail (.overflow (.address s.ap (.int n))))) ∧
            (r.apUpdate = .add →
              (∀ x f, res = some (.felt x) → addFelt s.params s.ap x = .fail f → exec i s = .next (s.fail f)) ∧
              (∀ t, res = some (.rel t) →
                exec i s = .next (s.fail (.forbiddenOperation (.rel s.ap) (.rel t)))) ∧
              (res = none → exec i s = .next (s.fail (.undefinedValue (.instruction s.pc)))))

/-! ### The rows of the 64-bit format: completion -/

/-- R222, R226: assert_eq with any pc and ap update writes the inferred operand, then res to the dst cell,
and completes; with another value than res in the dst cell it fails with InconsistentMemory (R67). It goes behind
itself for a Regular pc update (R228), to a res in segment 0 for Jump (R229), to pc + res for JumpRel (R231), by
dst behind itself or to pc + op1 for Jnz (R230), as PcTarget has it, and ap goes as ApTarget has it (R232). -/
def Obligations.AssertEqCompletes : Prop :=
  ∀ (f : Fields) (pcu : PcUpdate) (apu : ApUpdate) (s : State) (o : Operands) (v : MaybeRel) (m1 : Memory),
    let r := f.toRecord pcu apu .assertEq
    readOperands r s = .ok o → computeRes r s o = .ok (some v) → writeInferred s o = .ok m1 →
    (∀ (m2 : Memory) (npc nap : Rel), memWrite s m1 o.dstA v = .ok m2 →
      PcTarget r s o (some v) npc → ApTarget r s (some v) nap →
      exec (.assertEq f pcu apu) s = .next (s.commit m2 npc nap s.fp) ∧ m2.peek o.dstA = some v ∧
        ∀ a w, o.inferred = some (a, w) → m2.peek a = some w) ∧
    (∀ c, m1.peek o.dstA = some c → c ≠ v →
      exec (.assertEq f pcu apu) s = .next (s.fail (.inconsistentMemory o.dstA c v)))

/-- R223, R226, R232, R233: a Call with Add2 writes the old fp to the dst cell and the return address to the
op0 cell, and sets ap and fp to ap + 2. It goes where its pc update says: call abs to a res in segment 0 (R229),
call rel to pc + res for a Felt res (R231), a Regular call behind itself (R228), a Jnz call to pc + op1 (R230),
its dst being fp and no zero. With another value in the dst cell, or then in the op0 cell, it fails with
InconsistentMemory, whatever its ap update is. -/
def Obligations.CallsComplete : Prop :=
  ∀ (f : Fields) (s : State) (pcu : PcUpdate) (apu : ApUpdate) (o : Operands) (res : Option MaybeRel) (ra : Rel),
    let r := f.toRecord pcu apu .call
    readOperands r s = .ok o → computeRes r s o = .ok res →
    s.pc.off.toNat + r.size.toNat < 2 ^ 32 →
    ra = ⟨s.pc.seg, BitVec.ofNat 32 (s.pc.off.toNat + r.size.toNat)⟩ →
    (∀ (m1 m2 : Memory), apu = .add2 → s.ap.off.toNat + 2 < 2 ^ 32 →
      memWrite s o.mem o.dstA (.rel s.fp) = .ok m1 → memWrite s m1 o.op0A (.rel ra) = .ok m2 →
      let t (npc : Rel) := s.commit m2 npc ⟨s.ap.seg, s.ap.off + 2#32⟩ ⟨s.ap.seg, s.ap.off + 2#32⟩
      m2.peek o.dstA = some (.rel s.fp) ∧ m2.peek o.op0A = some (.rel ra) ∧
      (∀ npc, pcu = .jump → res = some (.rel npc) → npc.seg = 0 →
        exec (.callAbs f .add2) s = .next (t npc)) ∧
      (∀ v npc, pcu = .jumpRel → res = some (.felt v) → addFelt s.params s.pc v = .ok npc →
        exec (.callRel f .add2) s = .next (t npc)) ∧
      (pcu = .regular → exec (.call f pcu .add2) s = .next (t ra)) ∧
      (∀ v npc, pcu = .jnz → o.op1 = .felt v → addFelt s.params s.pc v = .ok npc →
        exec (.call f pcu .add2) s = .next (t npc))) ∧
    (∀ (i : Instr) (c : MaybeRel), i.record = some r →
      (o.mem.peek o.dstA = some c → c ≠ .rel s.fp →
        exec i s = .next (s.fail (.inconsistentMemory o.dstA c (.rel s.fp)))) ∧
      (∀ m1, memWrite s o.mem o.dstA (.rel s.fp) = .ok m1 → m1.peek o.op0A = some c → c ≠ .rel ra →
        exec i s = .next (s.fail (.inconsistentMemory o.op0A c (.rel ra)))))

/-- R224, R229, R233: a Ret writes nothing, goes where its pc update says (for ret: to res, in segment 0; for the
other Ret words as PcTarget has it, R228, R230, R231), moves ap as ApTarget has it (R232) and restores fp from
dst, in segment 1. -/
def Obligations.RetsComplete : Prop :=
  ∀ (f : Fields) (apu : ApUpdate) (pcu : PcUpdate) (s : State) (o : Operands) (res : Option MaybeRel)
    (fp : Rel) (nap : Rel),
    let r := f.toRecord pcu apu .ret
    readOperands r s = .ok o → computeRes r s o = .ok res →
    o.dst = .rel fp → fp.seg = 1 → ApTarget r s res nap →
    (∀ t, pcu = .jump → res = some (.rel t) → t.seg = 0 →
      exec (.ret f apu) s = .next (s.commit o.mem t nap fp)) ∧
    (∀ t, PcTarget r s o res t →
      exec (.retAny f pcu apu) s = .next (s.commit o.mem t nap fp))

/-- R225, R228, R232: nop, nop; ap++ and ap += res advance pc by the instruction's size and ap by 0, 1 and
res, and write nothing; ap += res with a Relocatable is ForbiddenOperation. The size is 2 with an immediate and 1
without (R88). -/
def Obligations.NopsComplete : Prop :=
  ∀ (f : Fields) (apu : ApUpdate) (s : State) (o : Operands) (res : Option MaybeRel),
    let r := f.toRecord .regular apu .noOp
    r.size = (if f.op1Src = .imm then 2 else 1) ∧
    (readOperands r s = .ok o → computeRes r s o = .ok res → s.pc.off.toNat + r.size.toNat < 2 ^ 32 →
    let npc : Rel := ⟨s.pc.seg, BitVec.ofNat 32 (s.pc.off.toNat + r.size.toNat)⟩
    (apu = .regular → exec (.nop f) s = .next (s.commit o.mem npc s.ap s.fp)) ∧
    (apu = .add1 → s.ap.off.toNat + 1 < 2 ^ 32 →
      exec (.nopApInc f) s = .next (s.commit o.mem npc ⟨s.ap.seg, s.ap.off + 1#32⟩ s.fp)) ∧
    (∀ v nap, apu = .add → res = some (.felt v) → addFelt s.params s.ap v = .ok nap →
      exec (.apAdd f) s = .next (s.commit o.mem npc nap s.fp)) ∧
    (∀ t, apu = .add → res = some (.rel t) →
      exec (.apAdd f) s = .next (s.fail (.forbiddenOperation (.rel s.ap) (.rel t)))))

/-- R225, R229, R231: jmp abs goes to res in segment 0, jmp rel to pc + res; nothing is written, and ap moves as
ApTarget has it (R232). A Relocatable res of jmp rel is ForbiddenOperation. -/
def Obligations.JumpsComplete : Prop :=
  ∀ (f : Fields) (apu : ApUpdate) (s : State) (o : Operands) (nap : Rel),
    (∀ t, readOperands (f.toRecord .jump apu .noOp) s = .ok o →
      computeRes (f.toRecord .jump apu .noOp) s o = .ok (some (.rel t)) → t.seg = 0 →
      ApTarget (f.toRecord .jump apu .noOp) s (some (.rel t)) nap →
      exec (.jmpAbs f apu) s = .next (s.commit o.mem t nap s.fp)) ∧
    (∀ v t, readOperands (f.toRecord .jumpRel apu .noOp) s = .ok o →
      computeRes (f.toRecord .jumpRel apu .noOp) s o = .ok (some (.felt v)) →
      addFelt s.params s.pc v = .ok t →
      ApTarget (f.toRecord .jumpRel apu .noOp) s (some (.felt v)) nap →
      exec (.jmpRel f apu) s = .next (s.commit o.mem t nap s.fp)) ∧
    (∀ t, readOperands (f.toRecord .jumpRel apu .noOp) s = .ok o →
      computeRes (f.toRecord .jumpRel apu .noOp) s o = .ok (some (.rel t)) →
      exec (.jmpRel f apu) s = .next (s.fail (.forbiddenOperation (.rel s.pc) (.rel t))))

/-- R230: jnz falls through on dst = F(0), and otherwise, a Relocatable dst included, goes to pc + op1, a
Relocatable op1 being ForbiddenOperation; writes nothing. R232: with an ap update Add and no res it fails with
UndefinedValue once the target exists; that this carries pc is the model's (log 21). -/
def Obligations.JnzCompletes : Prop :=
  ∀ (f : Fields) (apu : ApUpdate) (s : State) (o : Operands) (res : Option MaybeRel),
    let r := f.toRecord .jnz apu .noOp
    readOperands r s = .ok o → computeRes r s o = .ok res →
    (∀ nap, ApTarget r s res nap → o.dst = .felt Felt.zero →
      s.pc.off.toNat + r.size.toNat < 2 ^ 32 →
      exec (.jnz f apu) s = .next (s.commit o.mem
        ⟨s.pc.seg, BitVec.ofNat 32 (s.pc.off.toNat + r.size.toNat)⟩ nap s.fp)) ∧
    (∀ nap v t, ApTarget r s res nap → o.dst ≠ .felt Felt.zero → o.op1 = .felt v →
      addFelt s.params s.pc v = .ok t →
      exec (.jnz f apu) s = .next (s.commit o.mem t nap s.fp)) ∧
    (∀ t, o.dst ≠ .felt Felt.zero → o.op1 = .rel t →
      exec (.jnz f apu) s = .next (s.fail (.forbiddenOperation (.rel s.pc) (.rel t)))) ∧
    (∀ npc, PcTarget r s o res npc → apu = .add → f.resLogic = .unconstrained →
      exec (.jnz f apu) s = .next (s.fail (.undefinedValue (.instruction s.pc))))

/-- R216, R223, R224, R273: a call with its slots at [ap] and [ap + 1], and later, from any state with the
callee's fp whose memory keeps the call's cells, the canonical ret: control comes back behind the call and
fp is the caller's. -/
def Obligations.RetUndoesCall : Prop :=
  ∀ (i : Instr) (r : Instruction) (s t u : State), i.record = some r → r.opcode = .call →
    r.dstReg = .ap → r.offDst = 0#16 → r.op0Reg = .ap → r.offOp0 = 1#16 →
    Pinned s → s.status = .running → exec i s = .next t → t.status = .running →
    u.fp = t.fp → KeepsCells t.mem u.mem →
    exec (.ret ⟨0xfffe#16, 0xffff#16, 0xffff#16, .fp, .fp, .fp, .op1⟩ .regular) u =
      .next (u.commit u.mem ⟨0, BitVec.ofNat 32 (s.pc.off.toNat + r.size.toNat)⟩ u.ap s.fp)

/-! ### The rows of the 64-bit format: refusals and frames -/

/-- R229, R233: an absolute jump whose res is a Felt or outside segment 0 (jmp abs, call abs, ret, and assert_eq
with a Jump), a Ret whose dst is a Felt or outside segment 1, and a Call without Add2, are refused when their
earlier sub-steps succeed. -/
def Obligations.PinnedTargetsRefused : Prop :=
  ∀ (f : Fields) (apu : ApUpdate) (s : State) (o : Operands) (v : MaybeRel),
    ((∀ t : Rel, v = .rel t → t.seg ≠ 0) →
      readOperands (f.toRecord .jump apu .noOp) s = .ok o →
      computeRes (f.toRecord .jump apu .noOp) s o = .ok (some v) →
      exec (.jmpAbs f apu) s = .next (s.refuse .pcOutOfProgramSegment)) ∧
    ((∀ t : Rel, v = .rel t → t.seg ≠ 0) → ∀ opc m,
      readOperands (f.toRecord .jump apu opc) s = .ok o →
      computeRes (f.toRecord .jump apu opc) s o = .ok (some v) →
      opcodeEffect (f.toRecord .jump apu opc) s o (some v) = .ok m →
      (opc = .call → exec (.callAbs f apu) s = .next (s.refuse .pcOutOfProgramSegment)) ∧
      (opc = .ret → exec (.ret f apu) s = .next (s.refuse .pcOutOfProgramSegment)) ∧
      (opc = .assertEq → exec (.assertEq f .jump apu) s = .next (s.refuse .pcOutOfProgramSegment))) ∧
    ((∀ t : Rel, o.dst = .rel t → t.seg ≠ 1) → ∀ pcu npc nap res,
      readOperands (f.toRecord pcu apu .ret) s = .ok o →
      computeRes (f.toRecord pcu apu .ret) s o = .ok res →
      pcNext (f.toRecord pcu apu .ret) s o res = .ok npc → apNext (f.toRecord pcu apu .ret) s res = .ok nap →
      exec (.retAny f pcu apu) s = .next (s.refuse .fpOutOfExecutionSegment) ∧
      (pcu = .jump → exec (.ret f apu) s = .next (s.refuse .fpOutOfExecutionSegment))) ∧
    (apu ≠ .add2 → ∀ pcu m npc nap res,
      readOperands (f.toRecord pcu apu .call) s = .ok o →
      computeRes (f.toRecord pcu apu .call) s o = .ok res →
      opcodeEffect (f.toRecord pcu apu .call) s o res = .ok m →
      pcNext (f.toRecord pcu apu .call) s o res = .ok npc →
      apNext (f.toRecord pcu apu .call) s res = .ok nap →
      exec (.call f pcu apu) s = .next (s.refuse .callWithoutAdd2) ∧
      (pcu = .jump → exec (.callAbs f apu) s = .next (s.refuse .callWithoutAdd2)) ∧
      (pcu = .jumpRel → exec (.callRel f apu) s = .next (s.refuse .callWithoutAdd2)))

/-- The register frame of the twelve rows (R31, R227 to R233): no instruction writes CFG, SIG_TAB,
PROGRAM_END, the hints, the parameters or the port; ap changes only by its ap update, fp only by Call and
Ret. -/
def Obligations.InstructionRegisterFrame : Prop :=
  ∀ (i : Instr) (r : Instruction) (s t : State), i.record = some r → exec i s = .next t →
    t.cfg = s.cfg ∧ t.sigTab = s.sigTab ∧ t.started = s.started ∧ t.programEnd = s.programEnd ∧
    t.hints = s.hints ∧ t.params = s.params ∧ t.port = s.port ∧ t.unitOut = s.unitOut ∧
    t.hintRuns = s.hintRuns ∧ (r.apUpdate = .regular → t.ap = s.ap) ∧
    (r.opcode = .noOp ∨ r.opcode = .assertEq → t.fp = s.fp) ∧
    (t.status = s.status ∨ (∃ f, t.status = .failed f) ∨ ∃ q, t.status = .refused q)

/-- The memory frame of the twelve rows (R203, R222 to R226): a cell reads as before unless it is the dst cell
of AssertEq or Call, the op0 cell of Call, or the inferred operand's cell of AssertEq, each at the address the
meaning computes, or an output cell of the ECU in an instance of which the dst, op0 or op1 operand is an output
cell. -/
def Obligations.InstructionMemoryFrame : Prop :=
  ∀ (i : Instr) (r : Instruction) (s t : State) (b : Rel), i.record = some r → exec i s = .next t →
    (∀ k a, ecOutput s.cfg b = some k → computeAddress s r.dstReg r.offDst = .ok a →
      ecOutput s.cfg a ≠ some k) →
    (∀ k a, ecOutput s.cfg b = some k → computeAddress s r.op0Reg r.offOp0 = .ok a →
      ecOutput s.cfg a ≠ some k) →
    (∀ k op0A x a, ecOutput s.cfg b = some k → computeAddress s r.op0Reg r.offOp0 = .ok op0A →
      fetchOp0 r s op0A = .ok x → computeOp1Address s r.op1Src r.offOp1 x.1 = .ok a →
      ecOutput s.cfg a ≠ some k) →
    (∀ a, r.opcode = .assertEq ∨ r.opcode = .call → computeAddress s r.dstReg r.offDst = .ok a → b ≠ a) →
    (∀ a, r.opcode = .call → computeAddress s r.op0Reg r.offOp0 = .ok a → b ≠ a) →
    (∀ o a v, r.opcode = .assertEq → readOperands r s = .ok o → o.inferred = some (a, v) → b ≠ a) →
    t.mem.peek b = s.mem.peek b
end

