-- ==== Sys2Proof/Laws/Res.lean ====
section
/-! SUPPORT. The laws of `Res.bind`: how an operation of several sub-steps succeeds, fails or is refused. -/

namespace Sys2Proof.Machine

variable {α β : Type}

@[simp] theorem Res.bind_ok (v : α) (k : α → Res β) : (Res.ok v).bind k = k v := rfl
@[simp] theorem Res.bind_fail (f : Failure) (k : α → Res β) : (Res.fail f).bind k = .fail f := rfl
@[simp] theorem Res.bind_refuse (r : Refuse) (k : α → Res β) : (Res.refuse r).bind k = .refuse r := rfl

/-- A chain succeeds exactly when each part does. -/
theorem Res.bind_eq_ok {x : Res α} {k : α → Res β} {b : β} :
    x.bind k = .ok b ↔ ∃ a, x = .ok a ∧ k a = .ok b := by
  cases x <;> simp

/-- A chain fails exactly when the first part fails, or it succeeds and the rest fails. -/
theorem Res.bind_eq_fail {x : Res α} {k : α → Res β} {f : Failure} :
    x.bind k = .fail f ↔ x = .fail f ∨ ∃ a, x = .ok a ∧ k a = .fail f := by
  cases x <;> simp

/-- A chain is refused exactly when the first part is, or it succeeds and the rest is refused. -/
theorem Res.bind_eq_refuse {x : Res α} {k : α → Res β} {r : Refuse} :
    x.bind k = .refuse r ↔ x = .refuse r ∨ ∃ a, x = .ok a ∧ k a = .refuse r := by
  cases x <;> simp

end Sys2Proof.Machine
end

