-- ==== Sys2Proof/Laws/Address.lean ====
section
/-! SUPPORT. What an address computation answers when it succeeds: the segment stays, the offset is exact. -/

namespace Sys2Proof.Machine

@[simp] theorem withOff_seg (r : Rel) (o : Nat) : (withOff r o).seg = r.seg := rfl

theorem withOff_off {r : Rel} {o : Nat} (h : o < 4294967296) : (withOff r o).off.toNat = o := by
  simp only [withOff, BitVec.toNat_ofNat]
  exact Nat.mod_eq_of_lt h

/-- addInt succeeds exactly when the offset stays in range, with the exact offset (R50, R53). -/
theorem addInt_ok {r t : Rel} {k : Int} (h : addInt r k = .ok t) :
    t.seg = r.seg ∧ (t.off.toNat : Int) = r.off.toNat + k := by
  unfold addInt at h
  have hr := r.off.isLt
  split at h
  · split at h
    · cases h
      refine ⟨rfl, ?_⟩
      rw [withOff_off (by omega)]; omega
    · cases h
  · split at h
    · cases h
      refine ⟨rfl, ?_⟩
      rw [withOff_off (by omega)]; omega
    · cases h

/-- A natural added beyond the last offset is Overflow (R50). -/
theorem addInt_overflow {r : Rel} {n : Nat} (h : 2 ^ 32 ≤ r.off.toNat + n) :
    addInt r n = .fail (.overflow (.address r (.int n))) := by
  unfold addInt
  rw [if_pos (Int.natCast_nonneg n), if_neg (by omega)]

/-- addFelt stays in the segment (R51). -/
theorem addFelt_seg {par : Params} {r t : Rel} {v : Felt} (h : addFelt par r v = .ok t) :
    t.seg = r.seg := by
  unfold addFelt at h
  split at h <;> split at h <;> cases h <;> rfl

/-- subFelt stays in the segment (R52). -/
theorem subFelt_seg {par : Params} {r t : Rel} {v : Felt} (h : subFelt par r v = .ok t) :
    t.seg = r.seg := by
  unfold subFelt at h
  split at h <;> split at h
  · split at h <;> cases h; rfl
  · cases h
  · cases h; rfl
  · cases h

end Sys2Proof.Machine
end

