-- ==== Sys2Proof/Laws/Memory.lean ====
section
/-! SUPPORT. Memory as a list in canonical form: reading after writing, and that every operation keeps the
form and every filled cell. -/

namespace Sys2Proof.Machine

/-! ### Sorted lists by key -/

section Table
variable {α : Type}

theorem tableLookup_insert_same (l : List (Nat × α)) (k : Nat) (v : α) :
    tableLookup (tableInsert l k v) k = some v := by
  induction l with
  | nil => simp [tableInsert, tableLookup]
  | cons e t ih =>
    unfold tableInsert
    split
    · simp [tableLookup]
    · split
      · simp [tableLookup]
      · simp [tableLookup, *]

theorem tableLookup_insert_other (l : List (Nat × α)) {k j : Nat} (v : α) (h : j ≠ k) :
    tableLookup (tableInsert l k v) j = tableLookup l j := by
  induction l with
  | nil => simp [tableInsert, tableLookup, h.symm]
  | cons e t ih =>
    unfold tableInsert
    split
    · simp [tableLookup, h.symm]
    · split
      · next hk => simp [tableLookup, h.symm, hk]
      · simp [tableLookup, ih]

/-- Looking a key up after an insertion. -/
theorem tableLookup_insert (l : List (Nat × α)) (k j : Nat) (v : α) :
    tableLookup (tableInsert l k v) j = if j = k then some v else tableLookup l j := by
  split
  · next h => rw [h, tableLookup_insert_same]
  · next h => exact tableLookup_insert_other l v h

theorem mem_tableInsert (l : List (Nat × α)) (k : Nat) (v : α) {c : Nat × α}
    (h : c ∈ tableInsert l k v) : c = (k, v) ∨ c ∈ l := by
  induction l with
  | nil => simpa [tableInsert] using h
  | cons e t ih =>
    unfold tableInsert at h
    split at h
    · simpa using h
    · split at h
      · rcases List.mem_cons.1 h with h | h
        · exact .inl h
        · exact .inr (List.mem_cons_of_mem _ h)
      · rcases List.mem_cons.1 h with h | h
        · exact .inr (by simp [h])
        · exact (ih h).imp_right (List.mem_cons_of_mem _)

theorem tableInsert_sorted (l : List (Nat × α)) (k : Nat) (v : α)
    (h : l.Pairwise (fun x y => x.1 < y.1)) :
    (tableInsert l k v).Pairwise (fun x y => x.1 < y.1) := by
  induction l with
  | nil => simp [tableInsert]
  | cons e t ih =>
    rw [List.pairwise_cons] at h
    unfold tableInsert
    split
    · next hk =>
      refine List.pairwise_cons.2 ⟨fun c hc => ?_, List.pairwise_cons.2 h⟩
      rcases List.mem_cons.1 hc with rfl | hc
      · exact hk
      · exact hk.trans (h.1 c hc)
    · split
      · next hk => exact List.pairwise_cons.2 ⟨fun c hc => hk ▸ h.1 c hc, h.2⟩
      · refine List.pairwise_cons.2 ⟨fun c hc => ?_, ih h.2⟩
        rcases mem_tableInsert t k v hc with rfl | hc
        · simp only; omega
        · exact h.1 c hc

end Table

/-! ### Cells -/

/-- Two addresses with one key are one address. -/
theorem cellKey_inj {a b : Rel} : cellKey a = cellKey b ↔ a = b := by
  constructor
  · intro h
    unfold cellKey at h
    have ha := a.off.isLt
    have hb := b.off.isLt
    have hs : a.seg = b.seg := BitVec.eq_of_toNat_eq (by omega)
    have ho : a.off = b.off := BitVec.eq_of_toNat_eq (by omega)
    cases a; cases b; simp_all
  · rintro rfl; rfl

@[simp] theorem Memory.set_count (m : Memory) (a : Rel) (v : MaybeRel) : (m.set a v).count = m.count := rfl

theorem Memory.peek_set_same (m : Memory) (a : Rel) (v : MaybeRel) (h : m.hasSegment a) :
    (m.set a v).peek a = some v := by
  have h' : (m.set a v).hasSegment a := h
  simp only [Memory.peek, h', if_true]
  exact tableLookup_insert_same _ _ _

theorem Memory.peek_set_other (m : Memory) {a b : Rel} (v : MaybeRel) (h : b ≠ a) :
    (m.set a v).peek b = m.peek b := by
  have hk : cellKey b ≠ cellKey a := fun e => h (cellKey_inj.1 e)
  have hl : tableLookup (m.set a v).cells (cellKey b) = tableLookup m.cells (cellKey b) :=
    tableLookup_insert_other _ _ hk
  simp only [Memory.peek, Memory.hasSegment, Memory.set_count, hl]

/-- Filling a cell of an existing segment keeps the canonical form. -/
theorem Memory.set_wf {m : Memory} {a : Rel} (v : MaybeRel) (h : m.wf) (ha : m.hasSegment a) :
    (m.set a v).wf := by
  refine ⟨tableInsert_sorted _ _ _ h.1, fun c hc => ?_, h.2.2⟩
  rcases mem_tableInsert _ _ _ hc with rfl | hc
  · show cellKey a < m.count * 4294967296
    have := a.off.isLt
    unfold cellKey
    unfold Memory.hasSegment at ha
    omega
  · exact h.2.1 c hc

/-- An allocation adds an empty segment at the old count. -/
theorem Memory.allocate_ok {m : Memory} {x : Nat × Memory} (h : m.allocate = .ok x) :
    m.count < 4294967296 ∧ x = (m.count, ⟨m.count + 1, m.cells⟩) := by
  unfold Memory.allocate at h
  split at h
  · next hc => exact ⟨hc, by cases h; rfl⟩
  · cases h

theorem Memory.allocate_wf {m : Memory} {x : Nat × Memory} (hm : m.wf) (h : m.allocate = .ok x) :
    x.2.wf := by
  obtain ⟨hc, rfl⟩ := Memory.allocate_ok h
  obtain ⟨h1, h2, -⟩ := hm
  have h2' : ∀ c ∈ m.cells, c.1 < (m.count + 1) * 4294967296 := fun c hc' =>
    (h2 c hc').trans_le (Nat.mul_le_mul_right _ (Nat.le_succ _))
  have h3 : m.count + 1 ≤ 4294967296 := by omega
  exact ⟨h1, h2', h3⟩

/-- A canonical memory lists nothing in the segment that comes next. -/
theorem Memory.allocate_peek {m : Memory} {x : Nat × Memory} (hm : m.wf) (h : m.allocate = .ok x)
    (a : Rel) : x.2.peek a = m.peek a := by
  obtain ⟨_, rfl⟩ := Memory.allocate_ok h
  unfold Memory.peek Memory.hasSegment
  by_cases h1 : a.seg.toNat < m.count
  · rw [if_pos (by show _ < m.count + 1; omega), if_pos h1]
  · rw [if_neg h1]
    split
    · next h2 =>
      have hk : ∀ l : List (Nat × MaybeRel), (∀ c ∈ l, c.1 < m.count * 4294967296) →
          tableLookup l (cellKey a) = none := by
        intro l hl
        induction l with
        | nil => rfl
        | cons e t ih =>
          have he := hl e (by simp)
          rw [tableLookup, if_neg (by unfold cellKey; omega)]
          exact ih fun c hc => hl c (by simp [hc])
      exact hk _ hm.2.1
    · rfl

/-! ### assertEq, MemWrite and resolve -/

/-- How assertEq succeeds: the cell was empty and is filled, or it held the value already (R67). -/
theorem Memory.assertEq_ok {m m' : Memory} {a : Rel} {v : MaybeRel} (h : m.assertEq a v = .ok m') :
    m.hasSegment a ∧ ((m.peek a = none ∧ m' = m.set a v) ∨ (m.peek a = some v ∧ m' = m)) := by
  unfold Memory.assertEq at h
  split at h
  · next hs =>
    refine ⟨hs, ?_⟩
    split at h
    · next hp => exact .inl ⟨hp, by cases h; rfl⟩
    · next c hp =>
      split at h
      · next hc => exact .inr ⟨by rw [hp, hc], by cases h; rfl⟩
      · cases h
  · cases h

/-- How MemWrite succeeds, whatever the segment: the cell was empty and is filled, or it held the value
already (R67). -/
theorem memWrite_ok {s : State} {m m' : Memory} {a : Rel} {v : MaybeRel}
    (h : memWrite s m a v = .ok m') :
    m.hasSegment a ∧ ((m.peek a = none ∧ m' = m.set a v) ∨ (m.peek a = some v ∧ m' = m)) := by
  unfold memWrite at h
  split at h
  · next hs =>
    refine ⟨hs, ?_⟩
    split at h
    · next c hp =>
      split at h
      · next hc => exact .inr ⟨by rw [hp, hc], by cases h; rfl⟩
      · cases h
    · next hp =>
      refine .inl ⟨hp, ?_⟩
      split at h
      · obtain ⟨_, _, h⟩ := Res.bind_eq_ok.1 h
        cases h; rfl
      · split at h
        · cases h
        · obtain ⟨_, _, h⟩ := Res.bind_eq_ok.1 h
          split at h
          · cases h; rfl
          · cases h
  · cases h

/-- A relation between memories that one filled cell keeps is kept by MemWrite. -/
theorem memWrite_grows {s : State} {m m' : Memory} {a : Rel} {v : MaybeRel}
    (h : memWrite s m a v = .ok m') :
    m'.count = m.count ∧ (m.wf → m'.wf) ∧ (∀ b w, m.peek b = some w → m'.peek b = some w) ∧
      m'.peek a = some v ∧ ∀ b, b ≠ a → m'.peek b = m.peek b := by
  obtain ⟨hs, ⟨hp, rfl⟩ | ⟨hp, rfl⟩⟩ := memWrite_ok h
  · refine ⟨rfl, fun hm => Memory.set_wf v hm hs, fun b w hb => ?_, Memory.peek_set_same _ _ _ hs,
      fun b hb => Memory.peek_set_other _ _ hb⟩
    by_cases hab : b = a
    · subst hab; rw [hp] at hb; cases hb
    · rw [Memory.peek_set_other _ _ hab]; exact hb
  · exact ⟨rfl, id, fun _ _ h => h, hp, fun _ _ => rfl⟩

theorem Memory.assertEq_grows {m m' : Memory} {a : Rel} {v : MaybeRel} (h : m.assertEq a v = .ok m') :
    m'.count = m.count ∧ (m.wf → m'.wf) ∧ (∀ b w, m.peek b = some w → m'.peek b = some w) ∧
      m'.peek a = some v ∧ ∀ b, b ≠ a → m'.peek b = m.peek b := by
  obtain ⟨hs, ⟨hp, rfl⟩ | ⟨hp, rfl⟩⟩ := Memory.assertEq_ok h
  · refine ⟨rfl, fun hm => Memory.set_wf v hm hs, fun b w hb => ?_, Memory.peek_set_same _ _ _ hs,
      fun b hb => Memory.peek_set_other _ _ hb⟩
    by_cases hab : b = a
    · subst hab; rw [hp] at hb; cases hb
    · rw [Memory.peek_set_other _ _ hab]; exact hb
  · exact ⟨rfl, id, fun _ _ h => h, hp, fun _ _ => rfl⟩

/-- How resolve answers: the cell's value with memory unchanged, or the two outputs of an ECU instance
deduced and filled (R203, R213). -/
theorem resolve_ok {s : State} {m m' : Memory} {a : Rel} {x : Option MaybeRel}
    (h : resolve s m a = .ok (x, m')) :
    (x = m.peek a ∧ m' = m) ∨
      ∃ k p m1, m.peek a = none ∧ ecOutput s.cfg a = some k ∧ ecDeduce s m a k = some (.ok p) ∧
        m.assertEq (cellAt a (7 * k + 5)) (.felt p.x) = .ok m1 ∧
        m1.assertEq (cellAt a (7 * k + 6)) (.felt p.y) = .ok m' ∧ x = some (ecCoordinate a p) := by
  unfold resolve at h
  split at h
  · next v hp => cases h; exact .inl ⟨hp.symm, rfl⟩
  · next hp =>
    split at h
    · cases h; exact .inl ⟨hp.symm, rfl⟩
    · next k hk =>
      split at h
      · cases h
      · next r hr =>
        obtain ⟨p, hp1, h⟩ := Res.bind_eq_ok.1 h
        obtain ⟨m1, h1, h⟩ := Res.bind_eq_ok.1 h
        obtain ⟨m2, h2, h⟩ := Res.bind_eq_ok.1 h
        cases h
        exact .inr ⟨k, p, m1, hp, hk, by rw [hr, hp1], h1, h2, rfl⟩

/-- A read keeps the number of segments, the canonical form and every filled cell. -/
theorem resolve_grows {s : State} {m m' : Memory} {a : Rel} {x : Option MaybeRel}
    (h : resolve s m a = .ok (x, m')) :
    m'.count = m.count ∧ (m.wf → m'.wf) ∧ ∀ b w, m.peek b = some w → m'.peek b = some w := by
  rcases resolve_ok h with ⟨-, rfl⟩ | ⟨k, p, m1, -, -, -, h1, h2, -⟩
  · exact ⟨rfl, id, fun _ _ h => h⟩
  · have g1 := Memory.assertEq_grows h1
    have g2 := Memory.assertEq_grows h2
    exact ⟨g2.1.trans g1.1, fun hm => g2.2.1 (g1.2.1 hm), fun b w hb => g2.2.2.1 b w (g1.2.2.1 b w hb)⟩

end Sys2Proof.Machine
end

