-- ==== Sys2Proof/Laws/Boot.lean ====
section
/-! SUPPORT. What boot step 5 makes of SIG_TAB (R272, R185). -/

namespace Sys2Proof.Machine

variable {cfg : BitVec 16}

/-- With the unit inactive the calls change nothing (log 18). -/
theorem placeSignatures_inactive (h : sigActive cfg = false) (l : List (U32 × Sig))
    (t : Option (List (Nat × Sig))) : placeSignatures cfg l t = t := by
  induction l generalizing t with
  | nil => rfl
  | cons e l ih => simp [placeSignatures, h, ih]

/-- With it active, calls made leave a table: under each offset the last pair listed for it, else what was there. -/
theorem placeSignatures_lookup (h : sigActive cfg = true) {l : List (U32 × Sig)} (hl : l ≠ [])
    (t : Option (List (Nat × Sig))) :
    ∃ tab, placeSignatures cfg l t = some tab ∧ ∀ o : U32, tableLookup tab o.toNat =
      ((l.reverse.find? fun e => decide (e.1 = o)).map Prod.snd).or (tableLookup (t.getD []) o.toNat) := by
  induction l generalizing t with
  | nil => exact absurd rfl hl
  | cons e l ih =>
    by_cases hn : l = []
    · subst hn
      refine ⟨sigSet t e.1 e.2, by simp [placeSignatures, h], fun o => ?_⟩
      simp only [sigSet, tableLookup_insert, List.reverse_cons, List.reverse_nil, List.nil_append,
        List.find?_cons, List.find?_nil, BitVec.toNat_inj]
      by_cases ho : o = e.1
      · simp [ho]
      · simp [ho, Ne.symm ho]
    · obtain ⟨tab, ht, hk⟩ := ih hn (some (sigSet t e.1 e.2))
      refine ⟨tab, by simp [placeSignatures, h, ht], fun o => ?_⟩
      rw [hk o]
      simp only [List.reverse_cons, List.find?_append, sigSet, Option.getD_some, tableLookup_insert,
        BitVec.toNat_inj, List.find?_cons, List.find?_nil]
      by_cases ho : o = e.1
      · subst ho; cases List.find? (fun x => decide (x.1 = e.1)) l.reverse <;> simp
      · cases List.find? (fun x => decide (x.1 = o)) l.reverse <;> simp [ho, Ne.symm ho]

end Sys2Proof.Machine
end

