-- ==== Sys2Proof/Laws/Field.lean ====
section
/-! SUPPORT. The inverse modulo m by Euclid's algorithm: where an inverse exists, `invMod` is it. -/

namespace Sys2Proof.Machine

/-- One round keeps the cofactor equation. -/
theorem euclid_round {m s r0 r1 t0 t1 : Nat} (hm : 0 < m) (h0 : t0 * s ≡ r0 [MOD m])
    (h1 : t1 * s ≡ r1 [MOD m]) :
    (t0 + (m - r0 / r1 * t1 % m)) % m * s ≡ r0 % r1 [MOD m] := by
  have hle : r0 / r1 * t1 % m ≤ m := (Nat.mod_lt _ hm).le
  have hq : r0 / r1 * t1 * s ≡ r0 / r1 * r1 [MOD m] := by
    rw [mul_assoc]; exact h1.mul_left _
  have hz : (m - r0 / r1 * t1 % m) * s + r0 / r1 * t1 * s ≡ 0 [MOD m] := by
    have h2 : r0 / r1 * t1 * s ≡ r0 / r1 * t1 % m * s [MOD m] := (Nat.mod_modEq _ _).symm.mul_right _
    refine (h2.add_left _).trans ?_
    rw [← add_mul, Nat.sub_add_cancel hle]
    exact (Nat.modEq_zero_iff_dvd.2 ⟨s, rfl⟩)
  have hs : (t0 + (m - r0 / r1 * t1 % m)) % m * s ≡ (t0 + (m - r0 / r1 * t1 % m)) * s [MOD m] :=
    (Nat.mod_modEq _ _).mul_right _
  refine hs.trans (Nat.ModEq.add_right_cancel hq ?_)
  rw [add_mul, add_assoc, mul_comm (r0 / r1) r1, Nat.mod_add_div]
  simpa using h0.add hz

/-- With remainders prime to each other and fuel enough, the answer is an inverse below m. -/
theorem euclid_inverse {m s : Nat} (hm : 1 < m) : ∀ (k r0 r1 t0 t1 : Nat), r1 < 2 ^ k → r1 ≤ r0 →
    Nat.gcd r0 r1 = 1 → t0 < m → t1 < m → t0 * s ≡ r0 [MOD m] → t1 * s ≡ r1 [MOD m] →
    euclid m (2 * k) r0 r1 t0 t1 * s ≡ 1 [MOD m] ∧ euclid m (2 * k) r0 r1 t0 t1 < m := by
  have zero : ∀ (f r0 t0 t1 : Nat), Nat.gcd r0 0 = 1 → t0 < m → t0 * s ≡ r0 [MOD m] →
      euclid m f r0 0 t0 t1 * s ≡ 1 [MOD m] ∧ euclid m f r0 0 t0 t1 < m := by
    intro f r0 t0 t1 hg ht h0
    rw [Nat.gcd_zero_right] at hg
    subst hg
    cases f <;> exact ⟨by simpa [euclid] using h0, by simpa [euclid] using ht⟩
  have lt : ∀ x, x % m < m := fun x => Nat.mod_lt _ (by omega)
  intro k
  induction k with
  | zero =>
    intro r0 r1 t0 t1 hk _ hg ht0 _ h0 _
    obtain rfl : r1 = 0 := by omega
    exact zero _ _ _ _ hg ht0 h0
  | succ k ih =>
    intro r0 r1 t0 t1 hk hr hg ht0 ht1 h0 h1
    by_cases hz : r1 = 0
    · subst hz; exact zero _ _ _ _ hg ht0 h0
    have e1 := euclid_round (by omega : 0 < m) h0 h1
    have g1 : Nat.gcd r1 (r0 % r1) = 1 := by rwa [Nat.gcd_comm, ← Nat.gcd_rec, Nat.gcd_comm]
    have l1 := Nat.mod_lt r0 (Nat.pos_of_ne_zero hz)
    rw [show 2 * (k + 1) = (2 * k + 1) + 1 by omega]
    rw [euclid, if_neg hz]
    by_cases hz1 : r0 % r1 = 0
    · rw [hz1] at g1 ⊢; exact zero _ _ _ _ g1 ht1 h1
    rw [euclid, if_neg hz1]
    have e2 := euclid_round (by omega : 0 < m) h1 e1
    have l2 := Nat.mod_lt r1 (Nat.pos_of_ne_zero hz1)
    have half : 2 * (r1 % (r0 % r1)) < r1 := by
      have := Nat.mod_add_div r1 (r0 % r1)
      have : 1 ≤ r1 / (r0 % r1) := Nat.div_pos l1.le (Nat.pos_of_ne_zero hz1)
      nlinarith
    refine ih _ _ _ _ ?_ l2.le ?_ (lt _) (lt _) e1 e2
    · rw [pow_succ] at hk; omega
    · rwa [Nat.gcd_comm, ← Nat.gcd_rec, Nat.gcd_comm]

/-- Where there is an inverse, `invMod` is one, below m. -/
theorem invMod_spec {m s : Nat} (hm : 1 < m) (hcop : Nat.gcd s m = 1) :
    invMod m s * s ≡ 1 [MOD m] ∧ invMod m s < m := by
  have hlt : s % m < m := Nat.mod_lt _ (by omega)
  exact euclid_inverse (s := s) hm (Nat.log2 m + 1) m (s % m) 0 1
    (hlt.trans Nat.lt_log2_self) hlt.le
    (by rwa [Nat.gcd_comm, ← Nat.gcd_rec, Nat.gcd_comm])
    (by omega) hm (by simpa using (Nat.modEq_zero_iff_dvd.2 (dvd_refl m)).symm)
    (by simpa using (Nat.mod_modEq s m).symm)

/-- Where `w` is an inverse of `s` modulo m, `invMod` answers it. -/
theorem invMod_eq {m s w : Nat} (hm : 1 < m) (hw : w < m) (h : s * w % m = 1) : invMod m s = w := by
  have hcop : Nat.gcd s m = 1 := by
    have hd : Nat.gcd s m ∣ s * w % m :=
      (Nat.dvd_mod_iff (Nat.gcd_dvd_right s m)).2 ((Nat.gcd_dvd_left s m).mul_right w)
    rw [h] at hd
    exact Nat.dvd_one.1 hd
  obtain ⟨hi, hl⟩ := invMod_spec hm hcop
  have hw1 : s * w ≡ 1 [MOD m] := by rw [Nat.ModEq, h, Nat.mod_eq_of_lt hm]
  have : invMod m s ≡ w [MOD m] := by
    calc invMod m s = invMod m s * 1 := (mul_one _).symm
      _ ≡ invMod m s * (s * w) [MOD m] := hw1.symm.mul_left _
      _ = invMod m s * s * w := (mul_assoc _ _ _).symm
      _ ≡ 1 * w [MOD m] := hi.mul_right _
      _ = w := one_mul _
  rwa [Nat.ModEq, Nat.mod_eq_of_lt hl, Nat.mod_eq_of_lt hw] at this

/-- Whatever it is given, `invMod` answers below m. -/
theorem invMod_lt {m s : Nat} (hm : 0 < m) : invMod m s < m := by
  have key : ∀ (f r0 r1 t0 t1 : Nat), t0 < m → (r1 ≠ 0 → t1 < m) → euclid m f r0 r1 t0 t1 < m := by
    intro f
    induction f with
    | zero => intro _ _ _ _ h _; exact h
    | succ f ih =>
      intro r0 r1 t0 t1 h0 h1
      unfold euclid
      split
      · exact h0
      · next hz => exact ih _ _ _ _ (h1 hz) fun _ => Nat.mod_lt _ hm
  refine key _ _ _ _ _ hm fun h => ?_
  rcases Nat.lt_or_ge 1 m with h1 | h1
  · exact h1
  · exact absurd (by obtain rfl : m = 1 := by omega
                     exact Nat.mod_one s) h

end Sys2Proof.Machine

/-! ### Canonical residues -/

namespace Sys2Proof

variable {P : Nat}

@[simp] theorem Felt.canonical_iff {a : Felt} : a.canonical P = true ↔ a.val < P := by simp [Felt.canonical]
@[simp] theorem Felt.ofNat_val (n : Nat) : (Felt.ofNat P n).val = n % P := rfl

@[simp] theorem Felt.reduce_val (a : Felt) : (a.reduce P).val = a.val % P := rfl

theorem Felt.ofNat_lt (hP : 0 < P) (n : Nat) : (Felt.ofNat P n).val < P := Nat.mod_lt _ hP

/-- A canonical Felt is its own reduction. -/
theorem Felt.ofNat_self {a : Felt} (h : a.val < P) : Felt.ofNat P a.val = a := by
  cases a; simp [Felt.ofNat, Nat.mod_eq_of_lt h]

theorem Felt.reduce_self {a : Felt} (h : a.val < P) : a.reduce P = a := Felt.ofNat_self h

/-- A second reduction changes nothing. -/
@[simp] theorem Felt.reduce_reduce (a : Felt) : (a.reduce P).reduce P = a.reduce P := by
  simp [Felt.reduce, Felt.ofNat]

/-- The residue of an integer, as an integer (R10). -/
theorem Felt.ofInt_val (hP : 0 < P) (n : Int) : ((Felt.ofInt P n).val : Int) = n % P :=
  Int.toNat_of_nonneg (Int.emod_nonneg _ (by omega))

theorem Felt.ofInt_lt (hP : 0 < P) (n : Int) : (Felt.ofInt P n).val < P := by
  have := Felt.ofInt_val hP n
  have := Int.emod_lt_of_pos n (by omega : (0 : Int) < P)
  omega

/-- Two canonical Felts with one image in the ring of residues are equal. -/
theorem Felt.eq_of_cast {a b : Felt} (ha : a.val < P) (hb : b.val < P) (h : (a.val : ZMod P) = b.val) :
    a = b := by
  cases a; cases b
  rw [ZMod.natCast_eq_natCast_iff, Nat.ModEq, Nat.mod_eq_of_lt ha, Nat.mod_eq_of_lt hb] at h
  exact congrArg _ h

@[simp] theorem Felt.cast_ofNat (n : Nat) : ((Felt.ofNat P n).val : ZMod P) = n := by simp [Felt.ofNat]

theorem Felt.cast_ofInt (hP : 0 < P) (n : Int) : ((Felt.ofInt P n).val : ZMod P) = n := by
  have h : (((Felt.ofInt P n).val : Int) : ZMod P) = ((n % (P : Int) : Int) : ZMod P) := by
    rw [Felt.ofInt_val hP]
  simpa using h

/-- A reduced value is canonical, and a canonical one its own reduction (R137). -/
theorem MaybeRel.reduce_canonical (hP : 0 < P) (v : MaybeRel) : (v.reduce P).canonical P = true := by
  cases v <;> simp [reduce, canonical, Nat.mod_lt _ hP]

theorem MaybeRel.reduce_self {v : MaybeRel} (h : v.canonical P = true) : v.reduce P = v := by
  cases v with
  | rel r => rfl
  | felt a => exact congrArg _ (Felt.reduce_self (by simpa [canonical] using h))

end Sys2Proof

namespace Sys2Proof.Machine

variable {P : Nat} {a b c : Felt}

/-- The image of a field operation in the ring of residues (R138 to R141). -/
@[simp] theorem Fau.cast_add : ((Fau.add P a b).val : ZMod P) = a.val + b.val := by simp [Fau.add]
@[simp] theorem Fau.cast_mul : ((Fau.mul P a b).val : ZMod P) = a.val * b.val := by simp [Fau.mul]
theorem Fau.cast_sub (hP : 0 < P) : ((Fau.sub P a b).val : ZMod P) = a.val - b.val := by
  simp [Fau.sub, Felt.cast_ofInt hP]
theorem Fau.cast_neg (hP : 0 < P) : ((Fau.neg P a).val : ZMod P) = -a.val := by
  simp [Fau.neg, Felt.cast_ofInt hP]

/-- INV's value is an inverse in GF(P) (R142). -/
theorem Fau.cast_invValue (hP : Nat.Prime P) (ha : (a.val : ZMod P) ≠ 0) :
    (a.val : ZMod P) * (Fau.invValue P a).val = 1 := by
  have hcop : Nat.gcd a.val P = 1 := by
    rw [Nat.gcd_comm]
    exact (Nat.Prime.coprime_iff_not_dvd hP).2 fun hd => ha ((ZMod.natCast_eq_zero_iff _ _).2 hd)
  have h := (ZMod.natCast_eq_natCast_iff _ _ _).2 (invMod_spec hP.one_lt hcop).1
  rw [mul_comm]
  simpa [Fau.invValue] using h

/-- No result of the FAU is out of [0, P) (R149). -/
theorem Fau.add_lt (hP : 0 < P) : (Fau.add P a b).val < P := Felt.ofNat_lt hP _
theorem Fau.mul_lt (hP : 0 < P) : (Fau.mul P a b).val < P := Felt.ofNat_lt hP _
theorem Fau.sub_lt (hP : 0 < P) : (Fau.sub P a b).val < P := Felt.ofInt_lt hP _
theorem Fau.neg_lt (hP : 0 < P) : (Fau.neg P a).val < P := Felt.ofInt_lt hP _

theorem Fau.inv_lt (hP : 0 < P) (h : Fau.inv P a = .ok c) : c.val < P := by
  unfold Fau.inv at h
  split at h <;> cases h
  exact invMod_lt hP

theorem Fau.div_lt (hP : 0 < P) (h : Fau.div P a b = .ok c) : c.val < P := by
  unfold Fau.div at h
  split at h <;> cases h
  exact Fau.mul_lt hP

end Sys2Proof.Machine
end

