-- ==== Sys2Proof/Laws/State.lean ====
section
/-! SUPPORT. For each update of State and each field, what the field is afterwards; all by rfl. -/

namespace Sys2Proof.Machine

@[simp] theorem State.operand_rel (s : State) (r : Rel) : s.operand (.rel r) = .rel r := rfl
@[simp] theorem State.operand_felt (s : State) (v : Felt) : s.operand (.felt v) = .felt (v.reduce s.params.prime) := rfl

@[simp] theorem State.commit_cfg (s : State) (m : Memory) (pc ap fp : Rel) : (s.commit m pc ap fp).cfg = s.cfg := rfl
@[simp] theorem State.commit_sigTab (s : State) (m : Memory) (pc ap fp : Rel) : (s.commit m pc ap fp).sigTab = s.sigTab := rfl
@[simp] theorem State.commit_pc (s : State) (m : Memory) (pc ap fp : Rel) : (s.commit m pc ap fp).pc = pc := rfl
@[simp] theorem State.commit_ap (s : State) (m : Memory) (pc ap fp : Rel) : (s.commit m pc ap fp).ap = ap := rfl
@[simp] theorem State.commit_fp (s : State) (m : Memory) (pc ap fp : Rel) : (s.commit m pc ap fp).fp = fp := rfl
@[simp] theorem State.commit_mem (s : State) (m : Memory) (pc ap fp : Rel) : (s.commit m pc ap fp).mem = m := rfl
@[simp] theorem State.commit_status (s : State) (m : Memory) (pc ap fp : Rel) : (s.commit m pc ap fp).status = s.status := rfl
@[simp] theorem State.commit_started (s : State) (m : Memory) (pc ap fp : Rel) : (s.commit m pc ap fp).started = s.started := rfl
@[simp] theorem State.commit_programEnd (s : State) (m : Memory) (pc ap fp : Rel) : (s.commit m pc ap fp).programEnd = s.programEnd := rfl
@[simp] theorem State.commit_hints (s : State) (m : Memory) (pc ap fp : Rel) : (s.commit m pc ap fp).hints = s.hints := rfl
@[simp] theorem State.commit_params (s : State) (m : Memory) (pc ap fp : Rel) : (s.commit m pc ap fp).params = s.params := rfl
@[simp] theorem State.commit_port (s : State) (m : Memory) (pc ap fp : Rel) : (s.commit m pc ap fp).port = s.port := rfl
@[simp] theorem State.commit_unitOut (s : State) (m : Memory) (pc ap fp : Rel) : (s.commit m pc ap fp).unitOut = s.unitOut := rfl
@[simp] theorem State.commit_draws (s : State) (m : Memory) (pc ap fp : Rel) : (s.commit m pc ap fp).draws = s.draws := rfl
@[simp] theorem State.commit_hintRuns (s : State) (m : Memory) (pc ap fp : Rel) : (s.commit m pc ap fp).hintRuns = s.hintRuns := rfl

@[simp] theorem State.fail_cfg (s : State) (f : Failure) : (s.fail f).cfg = s.cfg := rfl
@[simp] theorem State.fail_sigTab (s : State) (f : Failure) : (s.fail f).sigTab = s.sigTab := rfl
@[simp] theorem State.fail_pc (s : State) (f : Failure) : (s.fail f).pc = s.pc := rfl
@[simp] theorem State.fail_ap (s : State) (f : Failure) : (s.fail f).ap = s.ap := rfl
@[simp] theorem State.fail_fp (s : State) (f : Failure) : (s.fail f).fp = s.fp := rfl
@[simp] theorem State.fail_mem (s : State) (f : Failure) : (s.fail f).mem = s.mem := rfl
@[simp] theorem State.fail_status (s : State) (f : Failure) : (s.fail f).status = .failed f := rfl
@[simp] theorem State.fail_started (s : State) (f : Failure) : (s.fail f).started = s.started := rfl
@[simp] theorem State.fail_programEnd (s : State) (f : Failure) : (s.fail f).programEnd = s.programEnd := rfl
@[simp] theorem State.fail_hints (s : State) (f : Failure) : (s.fail f).hints = s.hints := rfl
@[simp] theorem State.fail_params (s : State) (f : Failure) : (s.fail f).params = s.params := rfl
@[simp] theorem State.fail_port (s : State) (f : Failure) : (s.fail f).port = s.port := rfl
@[simp] theorem State.fail_unitOut (s : State) (f : Failure) : (s.fail f).unitOut = s.unitOut := rfl
@[simp] theorem State.fail_draws (s : State) (f : Failure) : (s.fail f).draws = s.draws + 1 := rfl
@[simp] theorem State.fail_hintRuns (s : State) (f : Failure) : (s.fail f).hintRuns = s.hintRuns := rfl

@[simp] theorem State.refuse_cfg (s : State) (r : Refuse) : (s.refuse r).cfg = s.cfg := rfl
@[simp] theorem State.refuse_sigTab (s : State) (r : Refuse) : (s.refuse r).sigTab = s.sigTab := rfl
@[simp] theorem State.refuse_pc (s : State) (r : Refuse) : (s.refuse r).pc = s.pc := rfl
@[simp] theorem State.refuse_ap (s : State) (r : Refuse) : (s.refuse r).ap = s.ap := rfl
@[simp] theorem State.refuse_fp (s : State) (r : Refuse) : (s.refuse r).fp = s.fp := rfl
@[simp] theorem State.refuse_mem (s : State) (r : Refuse) : (s.refuse r).mem = s.mem := rfl
@[simp] theorem State.refuse_status (s : State) (r : Refuse) : (s.refuse r).status = .refused r := rfl
@[simp] theorem State.refuse_started (s : State) (r : Refuse) : (s.refuse r).started = s.started := rfl
@[simp] theorem State.refuse_programEnd (s : State) (r : Refuse) : (s.refuse r).programEnd = s.programEnd := rfl
@[simp] theorem State.refuse_hints (s : State) (r : Refuse) : (s.refuse r).hints = s.hints := rfl
@[simp] theorem State.refuse_params (s : State) (r : Refuse) : (s.refuse r).params = s.params := rfl
@[simp] theorem State.refuse_port (s : State) (r : Refuse) : (s.refuse r).port = s.port := rfl
@[simp] theorem State.refuse_unitOut (s : State) (r : Refuse) : (s.refuse r).unitOut = s.unitOut := rfl
@[simp] theorem State.refuse_draws (s : State) (r : Refuse) : (s.refuse r).draws = s.draws := rfl
@[simp] theorem State.refuse_hintRuns (s : State) (r : Refuse) : (s.refuse r).hintRuns = s.hintRuns := rfl

@[simp] theorem State.halt_cfg (s : State) : (s.halt).cfg = s.cfg := rfl
@[simp] theorem State.halt_sigTab (s : State) : (s.halt).sigTab = s.sigTab := rfl
@[simp] theorem State.halt_pc (s : State) : (s.halt).pc = s.pc := rfl
@[simp] theorem State.halt_ap (s : State) : (s.halt).ap = s.ap := rfl
@[simp] theorem State.halt_fp (s : State) : (s.halt).fp = s.fp := rfl
@[simp] theorem State.halt_mem (s : State) : (s.halt).mem = s.mem := rfl
@[simp] theorem State.halt_status (s : State) : (s.halt).status = .halted := rfl
@[simp] theorem State.halt_started (s : State) : (s.halt).started = s.started := rfl
@[simp] theorem State.halt_programEnd (s : State) : (s.halt).programEnd = s.programEnd := rfl
@[simp] theorem State.halt_hints (s : State) : (s.halt).hints = s.hints := rfl
@[simp] theorem State.halt_params (s : State) : (s.halt).params = s.params := rfl
@[simp] theorem State.halt_port (s : State) : (s.halt).port = s.port := rfl
@[simp] theorem State.halt_unitOut (s : State) : (s.halt).unitOut = s.unitOut := rfl
@[simp] theorem State.halt_draws (s : State) : (s.halt).draws = s.draws := rfl
@[simp] theorem State.halt_hintRuns (s : State) : (s.halt).hintRuns = s.hintRuns := rfl

@[simp] theorem State.answer_cfg (s : State) (o : UnitOutcome) : (s.answer o).cfg = s.cfg := rfl
@[simp] theorem State.answer_sigTab (s : State) (o : UnitOutcome) : (s.answer o).sigTab = s.sigTab := rfl
@[simp] theorem State.answer_pc (s : State) (o : UnitOutcome) : (s.answer o).pc = s.pc := rfl
@[simp] theorem State.answer_ap (s : State) (o : UnitOutcome) : (s.answer o).ap = s.ap := rfl
@[simp] theorem State.answer_fp (s : State) (o : UnitOutcome) : (s.answer o).fp = s.fp := rfl
@[simp] theorem State.answer_mem (s : State) (o : UnitOutcome) : (s.answer o).mem = s.mem := rfl
@[simp] theorem State.answer_status (s : State) (o : UnitOutcome) : (s.answer o).status = s.status := rfl
@[simp] theorem State.answer_started (s : State) (o : UnitOutcome) : (s.answer o).started = s.started := rfl
@[simp] theorem State.answer_programEnd (s : State) (o : UnitOutcome) : (s.answer o).programEnd = s.programEnd := rfl
@[simp] theorem State.answer_hints (s : State) (o : UnitOutcome) : (s.answer o).hints = s.hints := rfl
@[simp] theorem State.answer_params (s : State) (o : UnitOutcome) : (s.answer o).params = s.params := rfl
@[simp] theorem State.answer_port (s : State) (o : UnitOutcome) : (s.answer o).port = s.port := rfl
@[simp] theorem State.answer_unitOut (s : State) (o : UnitOutcome) : (s.answer o).unitOut = some o := rfl
@[simp] theorem State.answer_draws (s : State) (o : UnitOutcome) : (s.answer o).draws = s.draws := rfl
@[simp] theorem State.answer_hintRuns (s : State) (o : UnitOutcome) : (s.answer o).hintRuns = s.hintRuns := rfl

@[simp] theorem State.answerFail_cfg (s : State) (f : Failure) : (s.answerFail f).cfg = s.cfg := rfl
@[simp] theorem State.answerFail_sigTab (s : State) (f : Failure) : (s.answerFail f).sigTab = s.sigTab := rfl
@[simp] theorem State.answerFail_pc (s : State) (f : Failure) : (s.answerFail f).pc = s.pc := rfl
@[simp] theorem State.answerFail_ap (s : State) (f : Failure) : (s.answerFail f).ap = s.ap := rfl
@[simp] theorem State.answerFail_fp (s : State) (f : Failure) : (s.answerFail f).fp = s.fp := rfl
@[simp] theorem State.answerFail_mem (s : State) (f : Failure) : (s.answerFail f).mem = s.mem := rfl
@[simp] theorem State.answerFail_status (s : State) (f : Failure) : (s.answerFail f).status = s.status := rfl
@[simp] theorem State.answerFail_started (s : State) (f : Failure) : (s.answerFail f).started = s.started := rfl
@[simp] theorem State.answerFail_programEnd (s : State) (f : Failure) : (s.answerFail f).programEnd = s.programEnd := rfl
@[simp] theorem State.answerFail_hints (s : State) (f : Failure) : (s.answerFail f).hints = s.hints := rfl
@[simp] theorem State.answerFail_params (s : State) (f : Failure) : (s.answerFail f).params = s.params := rfl
@[simp] theorem State.answerFail_port (s : State) (f : Failure) : (s.answerFail f).port = s.port := rfl
@[simp] theorem State.answerFail_unitOut (s : State) (f : Failure) : (s.answerFail f).unitOut = some (.fail f) := rfl
@[simp] theorem State.answerFail_draws (s : State) (f : Failure) : (s.answerFail f).draws = s.draws + 1 := rfl
@[simp] theorem State.answerFail_hintRuns (s : State) (f : Failure) : (s.answerFail f).hintRuns = s.hintRuns := rfl

@[simp] theorem State.takeRequest_cfg (s : State) : (s.takeRequest).cfg = s.cfg := rfl
@[simp] theorem State.takeRequest_sigTab (s : State) : (s.takeRequest).sigTab = s.sigTab := rfl
@[simp] theorem State.takeRequest_pc (s : State) : (s.takeRequest).pc = s.pc := rfl
@[simp] theorem State.takeRequest_ap (s : State) : (s.takeRequest).ap = s.ap := rfl
@[simp] theorem State.takeRequest_fp (s : State) : (s.takeRequest).fp = s.fp := rfl
@[simp] theorem State.takeRequest_mem (s : State) : (s.takeRequest).mem = s.mem := rfl
@[simp] theorem State.takeRequest_status (s : State) : (s.takeRequest).status = s.status := rfl
@[simp] theorem State.takeRequest_started (s : State) : (s.takeRequest).started = s.started := rfl
@[simp] theorem State.takeRequest_programEnd (s : State) : (s.takeRequest).programEnd = s.programEnd := rfl
@[simp] theorem State.takeRequest_hints (s : State) : (s.takeRequest).hints = s.hints := rfl
@[simp] theorem State.takeRequest_params (s : State) : (s.takeRequest).params = s.params := rfl
@[simp] theorem State.takeRequest_port (s : State) : (s.takeRequest).port = none := rfl
@[simp] theorem State.takeRequest_unitOut (s : State) : (s.takeRequest).unitOut = s.unitOut := rfl
@[simp] theorem State.takeRequest_draws (s : State) : (s.takeRequest).draws = s.draws := rfl
@[simp] theorem State.takeRequest_hintRuns (s : State) : (s.takeRequest).hintRuns = s.hintRuns := rfl

@[simp] theorem State.setSigTab_cfg (s : State) (t : List (Nat × Sig)) : (s.setSigTab t).cfg = s.cfg := rfl
@[simp] theorem State.setSigTab_sigTab (s : State) (t : List (Nat × Sig)) : (s.setSigTab t).sigTab = some t := rfl
@[simp] theorem State.setSigTab_pc (s : State) (t : List (Nat × Sig)) : (s.setSigTab t).pc = s.pc := rfl
@[simp] theorem State.setSigTab_ap (s : State) (t : List (Nat × Sig)) : (s.setSigTab t).ap = s.ap := rfl
@[simp] theorem State.setSigTab_fp (s : State) (t : List (Nat × Sig)) : (s.setSigTab t).fp = s.fp := rfl
@[simp] theorem State.setSigTab_mem (s : State) (t : List (Nat × Sig)) : (s.setSigTab t).mem = s.mem := rfl
@[simp] theorem State.setSigTab_status (s : State) (t : List (Nat × Sig)) : (s.setSigTab t).status = s.status := rfl
@[simp] theorem State.setSigTab_started (s : State) (t : List (Nat × Sig)) : (s.setSigTab t).started = s.started := rfl
@[simp] theorem State.setSigTab_programEnd (s : State) (t : List (Nat × Sig)) : (s.setSigTab t).programEnd = s.programEnd := rfl
@[simp] theorem State.setSigTab_hints (s : State) (t : List (Nat × Sig)) : (s.setSigTab t).hints = s.hints := rfl
@[simp] theorem State.setSigTab_params (s : State) (t : List (Nat × Sig)) : (s.setSigTab t).params = s.params := rfl
@[simp] theorem State.setSigTab_port (s : State) (t : List (Nat × Sig)) : (s.setSigTab t).port = s.port := rfl
@[simp] theorem State.setSigTab_unitOut (s : State) (t : List (Nat × Sig)) : (s.setSigTab t).unitOut = s.unitOut := rfl
@[simp] theorem State.setSigTab_draws (s : State) (t : List (Nat × Sig)) : (s.setSigTab t).draws = s.draws := rfl
@[simp] theorem State.setSigTab_hintRuns (s : State) (t : List (Nat × Sig)) : (s.setSigTab t).hintRuns = s.hintRuns := rfl

@[simp] theorem State.begin_cfg (s : State) (m : Memory) (n : Nat) : (s.begin m n).cfg = s.cfg := rfl
@[simp] theorem State.begin_sigTab (s : State) (m : Memory) (n : Nat) : (s.begin m n).sigTab = s.sigTab := rfl
@[simp] theorem State.begin_pc (s : State) (m : Memory) (n : Nat) : (s.begin m n).pc = s.pc := rfl
@[simp] theorem State.begin_ap (s : State) (m : Memory) (n : Nat) : (s.begin m n).ap = s.ap := rfl
@[simp] theorem State.begin_fp (s : State) (m : Memory) (n : Nat) : (s.begin m n).fp = s.fp := rfl
@[simp] theorem State.begin_mem (s : State) (m : Memory) (n : Nat) : (s.begin m n).mem = m := rfl
@[simp] theorem State.begin_status (s : State) (m : Memory) (n : Nat) : (s.begin m n).status = s.status := rfl
@[simp] theorem State.begin_started (s : State) (m : Memory) (n : Nat) : (s.begin m n).started = true := rfl
@[simp] theorem State.begin_programEnd (s : State) (m : Memory) (n : Nat) : (s.begin m n).programEnd = s.programEnd := rfl
@[simp] theorem State.begin_hints (s : State) (m : Memory) (n : Nat) : (s.begin m n).hints = s.hints := rfl
@[simp] theorem State.begin_params (s : State) (m : Memory) (n : Nat) : (s.begin m n).params = s.params := rfl
@[simp] theorem State.begin_port (s : State) (m : Memory) (n : Nat) : (s.begin m n).port = s.port := rfl
@[simp] theorem State.begin_unitOut (s : State) (m : Memory) (n : Nat) : (s.begin m n).unitOut = s.unitOut := rfl
@[simp] theorem State.begin_draws (s : State) (m : Memory) (n : Nat) : (s.begin m n).draws = s.draws := rfl
@[simp] theorem State.begin_hintRuns (s : State) (m : Memory) (n : Nat) : (s.begin m n).hintRuns = s.hintRuns + n := rfl

@[simp] theorem State.start_cfg (s : State) : (s.start).cfg = s.cfg := rfl
@[simp] theorem State.start_sigTab (s : State) : (s.start).sigTab = s.sigTab := rfl
@[simp] theorem State.start_pc (s : State) : (s.start).pc = s.pc := rfl
@[simp] theorem State.start_ap (s : State) : (s.start).ap = s.ap := rfl
@[simp] theorem State.start_fp (s : State) : (s.start).fp = s.fp := rfl
@[simp] theorem State.start_mem (s : State) : (s.start).mem = s.mem := rfl
@[simp] theorem State.start_status (s : State) : (s.start).status = s.status := rfl
@[simp] theorem State.start_programEnd (s : State) : (s.start).programEnd = s.programEnd := rfl
@[simp] theorem State.start_hints (s : State) : (s.start).hints = s.hints := rfl
@[simp] theorem State.start_params (s : State) : (s.start).params = s.params := rfl
@[simp] theorem State.start_port (s : State) : (s.start).port = s.port := rfl
@[simp] theorem State.start_unitOut (s : State) : (s.start).unitOut = s.unitOut := rfl
@[simp] theorem State.start_draws (s : State) : (s.start).draws = s.draws := rfl
@[simp] theorem State.start_hintRuns (s : State) : (s.start).hintRuns = s.hintRuns := rfl
@[simp] theorem State.start_started (s : State) : (s.start).started = true := rfl

end Sys2Proof.Machine
end

