-- ==== Sys2Proof/Laws/Vm.lean ====
section
/-! SUPPORT. What the body of an instruction can do, once: its sub-steps when it commits, how memory grows,
where the registers may go, and the three ways an instruction ends. -/

namespace Sys2Proof.Machine

/-- Memory `m'` extends `m`: as many segments, the canonical form kept, every filled cell kept. -/
def Grows (m m' : Memory) : Prop :=
  m'.count = m.count ∧ (m.wf → m'.wf) ∧ ∀ b w, m.peek b = some w → m'.peek b = some w

theorem Grows.refl (m : Memory) : Grows m m := ⟨rfl, id, fun _ _ h => h⟩

theorem Grows.trans {a b c : Memory} (h1 : Grows a b) (h2 : Grows b c) : Grows a c :=
  ⟨h2.1.trans h1.1, fun h => h2.2.1 (h1.2.1 h), fun x w h => h2.2.2 x w (h1.2.2 x w h)⟩

theorem grows_of_memWrite {s : State} {m m' : Memory} {a : Rel} {v : MaybeRel}
    (h : memWrite s m a v = .ok m') : Grows m m' :=
  have g := memWrite_grows h
  ⟨g.1, g.2.1, g.2.2.1⟩

theorem fetchOp0_ok {i : Instruction} {s : State} {a : Rel} {x : Option MaybeRel} {m : Memory}
    (h : fetchOp0 i s a = .ok (x, m)) :
    ∃ y, resolve s s.mem a = .ok (y, m) ∧
      ((∃ v, y = some v ∧ x = some v) ∨
        (y = none ∧ i.opcode = .call ∧ ∃ t, nextPc i s = .ok t ∧ x = some (.rel t)) ∨
        (y = none ∧ i.opcode ≠ .call ∧ x = none)) := by
  unfold fetchOp0 at h
  obtain ⟨⟨y, m1⟩, hr, h⟩ := Res.bind_eq_ok.1 h
  cases y with
  | some v => cases h; exact ⟨_, hr, .inl ⟨v, rfl, rfl⟩⟩
  | none =>
    simp only at h
    split at h
    · next hc =>
      obtain ⟨t, ht, h⟩ := Res.bind_eq_ok.1 h
      cases h
      exact ⟨_, hr, .inr (.inl ⟨rfl, hc, t, ht, rfl⟩)⟩
    · next hc => cases h; exact ⟨_, hr, .inr (.inr ⟨rfl, hc, rfl⟩)⟩

/-- The sub-steps of readOperands when it succeeds. -/
theorem readOperands_ok {i : Instruction} {s : State} {o : Operands} (h : readOperands i s = .ok o) :
    ∃ r0 op1A rd r1 v,
      computeAddress s i.dstReg i.offDst = .ok o.dstA ∧ computeAddress s i.op0Reg i.offOp0 = .ok o.op0A ∧
      fetchOp0 i s o.op0A = .ok r0 ∧ computeOp1Address s i.op1Src i.offOp1 r0.1 = .ok op1A ∧
      resolve s r0.2 o.dstA = .ok rd ∧ resolve s rd.2 op1A = .ok r1 ∧
      infer i s o.op0A op1A (callDst i s rd.1) r0.1 r1.1 = .ok v ∧
      o.dst = v.1 ∧ o.op0 = v.2.1 ∧ o.op1 = v.2.2.1 ∧ o.inferred = v.2.2.2 ∧ o.mem = r1.2 := by
  unfold readOperands at h
  obtain ⟨dstA, h1, h⟩ := Res.bind_eq_ok.1 h
  obtain ⟨op0A, h2, h⟩ := Res.bind_eq_ok.1 h
  obtain ⟨r0, h3, h⟩ := Res.bind_eq_ok.1 h
  obtain ⟨op1A, h4, h⟩ := Res.bind_eq_ok.1 h
  obtain ⟨rd, h5, h⟩ := Res.bind_eq_ok.1 h
  obtain ⟨r1, h6, h⟩ := Res.bind_eq_ok.1 h
  obtain ⟨v, h7, h⟩ := Res.bind_eq_ok.1 h
  cases h
  exact ⟨r0, op1A, rd, r1, v, h1, h2, h3, h4, h5, h6, h7, rfl, rfl, rfl, rfl, rfl⟩

theorem readOperands_grows {i : Instruction} {s : State} {o : Operands}
    (h : readOperands i s = .ok o) : Grows s.mem o.mem := by
  obtain ⟨⟨x0, m0⟩, op1A, ⟨xd, md⟩, ⟨x1, m1⟩, v, -, -, h0, -, hd, h1, -, -, -, -, -, hm⟩ :=
    readOperands_ok h
  obtain ⟨y, hr, -⟩ := fetchOp0_ok h0
  rw [hm]
  exact (show Grows s.mem m0 from resolve_grows hr).trans
    ((show Grows m0 md from resolve_grows hd).trans (resolve_grows h1))

theorem opcodeEffect_grows {i : Instruction} {s : State} {o : Operands} {res : Option MaybeRel}
    {m : Memory} (h : opcodeEffect i s o res = .ok m) : Grows o.mem m := by
  unfold opcodeEffect at h
  obtain ⟨m0, h0, h⟩ := Res.bind_eq_ok.1 h
  have g0 : Grows o.mem m0 := by
    unfold writeInferred at h0
    split at h0
    · cases h0; exact Grows.refl _
    · exact grows_of_memWrite h0
  refine g0.trans ?_
  split at h
  · unfold assertEqWrite at h
    split at h
    · cases h
    · exact grows_of_memWrite h
  · unfold callWrites at h
    obtain ⟨m1, h1, h⟩ := Res.bind_eq_ok.1 h
    obtain ⟨t, -, h⟩ := Res.bind_eq_ok.1 h
    exact (grows_of_memWrite h1).trans (grows_of_memWrite h)
  · cases h; exact Grows.refl _
  · cases h; exact Grows.refl _

/-- The sub-steps of a body that commits, and the committed state (R207, R234). -/
theorem vmBody_ok {i : Instruction} {s t : State} (h : vmBody i s = .ok t) :
    ∃ o res m npc nap nfp, readOperands i s = .ok o ∧ computeRes i s o = .ok res ∧
      opcodeEffect i s o res = .ok m ∧ pcNext i s o res = .ok npc ∧ apNext i s res = .ok nap ∧
      fpNext i s o = .ok nfp ∧ t = s.commit m npc nap nfp := by
  unfold vmBody at h
  obtain ⟨o, h1, h⟩ := Res.bind_eq_ok.1 h
  obtain ⟨res, h2, h⟩ := Res.bind_eq_ok.1 h
  obtain ⟨m, h3, h⟩ := Res.bind_eq_ok.1 h
  obtain ⟨npc, h4, h⟩ := Res.bind_eq_ok.1 h
  obtain ⟨nap, h5, h⟩ := Res.bind_eq_ok.1 h
  obtain ⟨nfp, h6, h⟩ := Res.bind_eq_ok.1 h
  cases h
  exact ⟨o, res, m, npc, nap, nfp, h1, h2, h3, h4, h5, h6, rfl⟩

/-- The committed state from the sub-steps: the converse of `vmBody_ok`. -/
theorem vmBody_eq {i : Instruction} {s : State} {o : Operands} {res : Option MaybeRel} {m : Memory}
    {npc nap nfp : Rel} (h1 : readOperands i s = .ok o) (h2 : computeRes i s o = .ok res)
    (h3 : opcodeEffect i s o res = .ok m) (h4 : pcNext i s o res = .ok npc)
    (h5 : apNext i s res = .ok nap) (h6 : fpNext i s o = .ok nfp) :
    vmBody i s = .ok (s.commit m npc nap nfp) := by
  simp [vmBody, h1, h2, h3, h4, h5, h6]

/-- A record's instruction is executed by its body (every row of the 64-bit format). -/
theorem exec_record {i : Instr} {r : Instruction} (s : State) (h : i.record = some r) :
    exec i s = stepOutcome s (vmBody r s) := by
  cases i <;> first | (cases h; rfl) | (cases h)

/-- An instruction always ends in a next state: committed, failed or refused. -/
theorem stepOutcome_next (s : State) (r : Res State) :
    (∃ t, r = .ok t ∧ stepOutcome s r = .next t) ∨ (∃ f, r = .fail f ∧ stepOutcome s r = .next (s.fail f)) ∨
      ∃ q, r = .refuse q ∧ stepOutcome s r = .next (s.refuse q) := by
  cases r with
  | ok t => exact .inl ⟨t, rfl, rfl⟩
  | fail f => exact .inr (.inl ⟨f, rfl, rfl⟩)
  | refuse q => exact .inr (.inr ⟨q, rfl, rfl⟩)

/-- The failure of the body is the instruction's (R234). -/
theorem exec_fail {i : Instr} {r : Instruction} {s : State} {f : Failure} (h : i.record = some r)
    (hb : vmBody r s = .fail f) : exec i s = .next (s.fail f) := by
  rw [exec_record s h, hb]; rfl

/-- The refusal of the body is the instruction's (R234, R251). -/
theorem exec_refuse {i : Instr} {r : Instruction} {s : State} {q : Refuse} (h : i.record = some r)
    (hb : vmBody r s = .refuse q) : exec i s = .next (s.refuse q) := by
  rw [exec_record s h, hb]; rfl

/-- A unit command always ends in a next state: its answer, its failure or its refusal on the port. -/
theorem unitOutcome_next (s : State) (r : Res UnitValue) :
    (∃ v, r = .ok v ∧ unitOutcome s r = .next (s.answer (.ok v))) ∨
      (∃ f, r = .fail f ∧ unitOutcome s r = .next (s.answerFail f)) ∨
      ∃ q, r = .refuse q ∧ unitOutcome s r = .next (s.answer (.refused q)) := by
  cases r with
  | ok v => exact .inl ⟨v, rfl, rfl⟩
  | fail f => exact .inr (.inl ⟨f, rfl, rfl⟩)
  | refuse q => exact .inr (.inr ⟨q, rfl, rfl⟩)

/-! ### Where the registers go -/

/-- addInt by a natural succeeds exactly with the advanced address (R50). -/
theorem addInt_nat {r t : Rel} {n : Nat} : addInt r n = .ok t ↔ Advanced r n t := by
  unfold addInt Advanced withOff
  constructor
  · intro h
    split at h
    · split at h
      · cases h; exact ⟨by omega, rfl⟩
      · cases h
    · omega
  · rintro ⟨h, rfl⟩
    rw [if_pos (by omega), if_pos (by omega)]
    rfl

theorem nextPc_ok {i : Instruction} {s : State} {t : Rel} :
    nextPc i s = .ok t ↔ Advanced s.pc i.size.toNat t := by
  rw [← addInt_nat, nextPc]
  unfold Instruction.size
  split <;> rfl

theorem relPlus_ok {s : State} {r t : Rel} {x : MaybeRel} :
    relPlus s r x = .ok t ↔ ∃ v, x = .felt v ∧ addFelt s.params r v = .ok t := by
  cases x <;> simp [relPlus]

/-- The pc update answers exactly the targets of R228 to R231. -/
theorem pcNext_ok {i : Instruction} {s : State} {o : Operands} {res : Option MaybeRel} {t : Rel} :
    pcNext i s o res = .ok t ↔ PcTarget i s o res t := by
  unfold pcNext PcTarget
  cases i.pcUpdate with
  | regular => exact nextPc_ok
  | jump =>
    rcases res with _ | r | v
    · simp [undefinedHere]
    · simp only
      by_cases h : r.seg = 0
      · simp only [h, if_true, Res.ok.injEq, Option.some.injEq, MaybeRel.rel.injEq]
        exact ⟨fun e => ⟨e, e ▸ h⟩, And.left⟩
      · simp only [h, if_false, Option.some.injEq, MaybeRel.rel.injEq]
        constructor
        · intro e; cases e
        · rintro ⟨rfl, e⟩; exact absurd e h
    · simp
  | jumpRel =>
    cases res with
    | none => simp [undefinedHere]
    | some v => simp [relPlus_ok]
  | jnz =>
    by_cases h : o.dst = .felt Felt.zero
    · simp [jnzTaken, h, nextPc_ok]
    · simp [jnzTaken, h, relPlus_ok]

/-- The ap update answers exactly the values of R232. -/
theorem apNext_ok {i : Instruction} {s : State} {res : Option MaybeRel} {t : Rel} :
    apNext i s res = .ok t ↔ ApTarget i s res t := by
  unfold apNext ApTarget
  cases i.apUpdate with
  | regular => simp [eq_comm]
  | add1 => exact addInt_nat
  | add2 => exact addInt_nat
  | add =>
    cases res with
    | none => simp [undefinedHere]
    | some v => simp [relPlus_ok]

theorem relPlus_seg {s : State} {r t : Rel} {v : MaybeRel} (h : relPlus s r v = .ok t) :
    t.seg = r.seg := by
  unfold relPlus at h
  split at h
  · exact addFelt_seg h
  · cases h

/-- The next pc is in pc's segment or in segment 0 (R228 to R231). -/
theorem pcNext_seg {i : Instruction} {s : State} {o : Operands} {res : Option MaybeRel} {t : Rel}
    (h : pcNext i s o res = .ok t) : t.seg = s.pc.seg ∨ t.seg = 0 := by
  unfold pcNext at h
  split at h
  · exact .inl (addInt_ok h).1
  · split at h
    · cases h
    · cases h
    · split at h
      · next hr => cases h; exact .inr hr
      · cases h
  · split at h
    · cases h
    · exact .inl (relPlus_seg h)
  · split at h
    · exact .inl (relPlus_seg h)
    · exact .inl (addInt_ok h).1

/-- op0 is fetched exactly as R213 and R216 have it. -/
theorem fetchOp0_iff {i : Instruction} {s : State} {a : Rel} {x : Option MaybeRel} {m : Memory} :
    fetchOp0 i s a = .ok (x, m) ↔ Op0Read i s a x m := by
  constructor
  · intro h
    obtain ⟨y, hy, hx⟩ := fetchOp0_ok h
    refine ⟨y, hy, hx.imp_right (Or.imp_left ?_)⟩
    rintro ⟨h1, h2, t, ht, h3⟩
    exact ⟨h1, h2, t, nextPc_ok.1 ht, h3⟩
  · rintro ⟨y, hy, ⟨v, rfl, rfl⟩ | ⟨rfl, hc, t, ht, rfl⟩ | ⟨rfl, hc, rfl⟩⟩
    · simp [fetchOp0, hy]
    · simp [fetchOp0, hy, hc, nextPc_ok.2 ht]
    · simp [fetchOp0, hy, hc]

/-- The next ap is in ap's segment (R232). -/
theorem apNext_seg {i : Instruction} {s : State} {res : Option MaybeRel} {t : Rel}
    (h : apNext i s res = .ok t) : t.seg = s.ap.seg := by
  unfold apNext at h
  split at h
  · cases h; rfl
  · exact (addInt_ok h).1
  · exact (addInt_ok h).1
  · split at h
    · cases h
    · exact relPlus_seg h

/-- The next fp is in fp's segment, in ap's, or in segment 1 (R233). -/
theorem fpNext_seg {i : Instruction} {s : State} {o : Operands} {t : Rel} (h : fpNext i s o = .ok t) :
    t.seg = s.fp.seg ∨ t.seg = s.ap.seg ∨ t.seg = 1 := by
  unfold fpNext at h
  split at h
  · cases h; exact .inl rfl
  · split at h
    · exact .inr (.inl (addInt_ok h).1)
    · cases h
  · split at h
    · cases h
    · split at h
      · next hr => cases h; exact .inr (.inr hr)
      · cases h

end Sys2Proof.Machine
end

