-- ==== Sys2Proof/Laws/Step.lean ====
section
/-! SUPPORT. What a step can do, once: the cases of a step that answers a next state, and how the hint step
extends memory. -/

namespace Sys2Proof.Machine

/-- A canonical memory extended: perhaps more segments, every filled cell kept. -/
def Extends (m m' : Memory) : Prop :=
  m.wf → m.count ≤ m'.count ∧ m'.wf ∧ ∀ b w, m.peek b = some w → m'.peek b = some w

theorem Extends.refl (m : Memory) : Extends m m := fun h => ⟨le_refl _, h, fun _ _ h => h⟩

theorem Extends.trans {a b c : Memory} (h1 : Extends a b) (h2 : Extends b c) : Extends a c := fun h =>
  have g1 := h1 h
  have g2 := h2 g1.2.1
  ⟨g1.1.trans g2.1, g2.2.1, fun x w hx => g2.2.2 x w (g1.2.2 x w hx)⟩

theorem Grows.extends {m m' : Memory} (h : Grows m m') : Extends m m' := fun hm =>
  ⟨h.1.ge, h.2.1 hm, h.2.2⟩

theorem runActions_extends {s : State} {acts : List HintAction} {m : Memory} {d : HintDone}
    (h : runActions s acts m = .ok d) : Extends m d.mem := by
  induction acts generalizing m with
  | nil => cases h; exact Extends.refl _
  | cons a rest ih =>
    cases a with
    | write a v =>
      obtain ⟨m1, h1, h2⟩ := Res.bind_eq_ok.1 h
      cases a with
      | rel r => exact (grows_of_memWrite h1).extends.trans (ih h2)
      | felt v => cases h1
    | alloc =>
      obtain ⟨x, h1, h⟩ := Res.bind_eq_ok.1 h
      intro hm
      refine Extends.trans (fun hm => ?_) (ih h) hm
      obtain ⟨-, hx⟩ := Memory.allocate_ok h1
      refine ⟨?_, Memory.allocate_wf hm h1, fun b w hb => by rw [Memory.allocate_peek hm h1]; exact hb⟩
      rw [hx]; exact Nat.le_succ _
    | raise f => cases h
    | halt => cases h; exact Extends.refl _

theorem runHints_extends {s : State} {hs : List Hint} {n : Nat} {m : Memory} {d : HintDone}
    (h : runHints s hs n m = .ok d) : Extends m d.mem := by
  induction hs generalizing n m with
  | nil => cases h; exact Extends.refl _
  | cons x rest ih =>
    obtain ⟨d1, h1, h⟩ := Res.bind_eq_ok.1 h
    have g := runActions_extends h1
    split at h
    · cases h; exact g
    · exact g.trans (ih h)

theorem hintStep_extends {s : State} {d : HintDone} (h : hintStep s = .ok d) : Extends s.mem d.mem :=
  runHints_extends h

/-- Where no hint is registered the hint step changes nothing (R210). -/
theorem hintStep_none {s : State} (h : hintsAtPc s = []) : hintStep s = .ok ⟨s.mem, false⟩ := by
  simp [hintStep, h, runHints]

/-- The ways a VM step begins when STATUS is running (R207, sub-steps (a) and (b)). -/
theorem beginStep_cases {s : State} (hr : s.status = .running) :
    (s.pc = s.programEnd ∧ beginStep s = .ended (s.begin s.mem 0).halt) ∨
    (s.pc ≠ s.programEnd ∧ ∃ f n, beginStep s = .ended ((s.begin s.mem n).fail f)) ∨
    (s.pc ≠ s.programEnd ∧ ∃ r n, beginStep s = .ended ((s.begin s.mem n).refuse r)) ∨
    (s.pc ≠ s.programEnd ∧ ∃ d n, hintStep s = .ok d ∧ d.halted = true ∧
      beginStep s = .ended (s.begin d.mem n).halt) ∨
    (s.pc ≠ s.programEnd ∧ ∃ d n i, hintStep s = .ok d ∧ d.halted = false ∧
      fetchDecode (s.begin d.mem n) = .ok i ∧ beginStep s = .run i (s.begin d.mem n)) := by
  unfold beginStep
  rw [if_pos hr]
  by_cases hp : s.pc = s.programEnd
  · exact .inl ⟨hp, by rw [if_pos hp]⟩
  · rw [if_neg hp]
    refine .inr ?_
    cases hh : hintStep s with
    | fail f => exact .inl ⟨hp, f, _, rfl⟩
    | refuse r => exact .inr (.inl ⟨hp, r, _, rfl⟩)
    | ok d =>
      simp only
      cases hd : d.halted with
      | true => exact .inr (.inr (.inl ⟨hp, d, _, rfl, hd, by simp; rfl⟩))
      | false =>
        cases hf : fetchDecode (s.begin d.mem (hintsAtPc s).length) with
        | fail f => exact .inl ⟨hp, f, _, by simp; rfl⟩
        | refuse r => exact .inr (.inl ⟨hp, r, _, by simp; rfl⟩)
        | ok i => exact .inr (.inr (.inr ⟨hp, d, _, i, rfl, hd, hf, by simp⟩))

/-- Every case of a step that answers a next state. -/
theorem step_next {s t : State} (h : step s = .next t) :
    (∃ q i, s.port = some q ∧ decodeRequest q = some i ∧ exec i s.takeRequest = .next t) ∨
    (∃ q, s.port = some q ∧ decodeRequest q = none ∧ t = unknownCommand s) ∨
    (s.port = none ∧ beginStep s = .ended t) ∨
    (∃ i u v, s.port = none ∧ beginStep s = .run i u ∧ exec i u = .next v ∧ t = s.restoreOnAbort v) := by
  unfold step at h
  split at h
  · next q hq =>
    split at h
    · next i hi => exact .inl ⟨q, i, hq, hi, h⟩
    · next hi => cases h; exact .inr (.inl ⟨q, hq, hi, rfl⟩)
  · next hq =>
    split at h
    · cases h
    · next u hu => cases h; exact .inr (.inr (.inl ⟨hq, hu⟩))
    · next i u hu =>
      cases he : exec i u with
      | next v => rw [he] at h; cases h; exact .inr (.inr (.inr ⟨i, u, v, hq, hu, he, rfl⟩))
      | fault f => rw [he] at h; cases h
      | refused r => rw [he] at h; cases h

end Sys2Proof.Machine
end

