-- ==== Sys2Proof/Laws/Canonical.lean ====
section
/-! SUPPORT. Every Felt that the block produces is canonical, and every operation on memory keeps the Felts in it
canonical (R11, R137, R149). -/

namespace Sys2Proof.Machine

variable {par : Params} {s : State} {m m' : Memory} {a : Rel}

/-! ### Values -/

theorem MaybeRel.canonical_felt {P : Nat} {v : Felt} (h : v.val < P) : (MaybeRel.felt v).canonical P = true := by
  simpa [MaybeRel.canonical] using h

theorem MaybeRel.canonical_rel {P : Nat} (r : Rel) : (MaybeRel.rel r).canonical P = true := rfl

theorem mrAdd_canonical {x y v : MaybeRel} (hP : 0 < par.prime) (h : mrAdd par x y = .ok v) :
    v.canonical par.prime = true := by
  unfold mrAdd at h
  split at h
  · cases h; exact MaybeRel.canonical_felt (Fau.add_lt hP)
  · obtain ⟨t, -, h⟩ := Res.bind_eq_ok.1 h; cases h; rfl
  · obtain ⟨t, -, h⟩ := Res.bind_eq_ok.1 h; cases h; rfl
  · cases h

theorem mrSub_canonical {x y v : MaybeRel} (hP : 0 < par.prime) (h : mrSub par x y = .ok v) :
    v.canonical par.prime = true := by
  unfold mrSub at h
  split at h
  · cases h; exact MaybeRel.canonical_felt (Fau.sub_lt hP)
  · obtain ⟨t, -, h⟩ := Res.bind_eq_ok.1 h; cases h; rfl
  · cases h
  · obtain ⟨t, ht, h⟩ := Res.bind_eq_ok.1 h
    cases h
    unfold subRel at ht
    split at ht
    · split at ht <;> cases ht
      exact MaybeRel.canonical_felt (Felt.ofNat_lt hP _)
    · cases ht

theorem mrMul_canonical {x y v : MaybeRel} (hP : 0 < par.prime) (h : mrMul par x y = .ok v) :
    v.canonical par.prime = true := by
  unfold mrMul at h
  split at h
  · cases h; exact MaybeRel.canonical_felt (Fau.mul_lt hP)
  · cases h

theorem mrDiv_canonical {x y v : MaybeRel} (hP : 0 < par.prime) (h : mrDiv par x y = .ok v) :
    v.canonical par.prime = true := by
  unfold mrDiv at h
  split at h
  · obtain ⟨t, ht, h⟩ := Res.bind_eq_ok.1 h; cases h; exact MaybeRel.canonical_felt (Fau.div_lt hP ht)
  · cases h

/-! ### Points -/

theorem ecAddDistinct_canonical {p q r : Point} (hP : 0 < par.prime) (h : ecAddDistinct par p q = .ok r) :
    r.canonical par.prime = true := by
  obtain ⟨l, -, h⟩ := Res.bind_eq_ok.1 h
  cases h
  simp [Point.canonical, Fau.sub_lt hP]

theorem ladder_canonical {n h k : Nat} {p q r acc dbl : Point} {c : Felt} (hP : 0 < par.prime)
    (ha : acc.canonical par.prime = true) (hl : ladder par n p q c h acc dbl k = .ok r) :
    r.canonical par.prime = true := by
  induction h generalizing acc dbl k with
  | zero =>
    unfold ladder at hl
    split at hl <;> cases hl
    exact ha
  | succ h ih =>
    unfold ladder at hl
    split at hl
    · cases hl
    · obtain ⟨acc', h1, hl⟩ := Res.bind_eq_ok.1 hl
      have ha' : acc'.canonical par.prime = true := by
        split at h1
        · exact ecAddDistinct_canonical hP h1
        · cases h1; exact ha
      split at hl
      · cases hl
      · obtain ⟨dbl', -, hl⟩ := Res.bind_eq_ok.1 hl
        exact ih ha' hl

theorem feltPort_canonical {P : Nat} {v : MaybeRel} {x : Felt} (hv : v.canonical P = true)
    (h : feltPort v = .ok x) : x.val < P := by
  cases v with
  | rel r => cases h
  | felt y => cases h; simpa [MaybeRel.canonical] using hv

/-- EC_OP on canonical inputs answers a canonical point. -/
theorem ecOp_canonical {cfg : BitVec 16} {n : Nat} {px py qx qy c : MaybeRel} {r : Point} (hP : 0 < par.prime)
    (hx : px.canonical par.prime = true) (hy : py.canonical par.prime = true)
    (h : ecOp cfg par n px py qx qy c = .ok r) : r.canonical par.prime = true := by
  unfold ecOp at h
  split at h
  · obtain ⟨x1, h1, h⟩ := Res.bind_eq_ok.1 h
    obtain ⟨y1, h2, h⟩ := Res.bind_eq_ok.1 h
    obtain ⟨x2, -, h⟩ := Res.bind_eq_ok.1 h
    obtain ⟨y2, -, h⟩ := Res.bind_eq_ok.1 h
    obtain ⟨k, -, h⟩ := Res.bind_eq_ok.1 h
    unfold ecOpFelts at h
    split at h
    · cases h
    · split at h
      · cases h
      · refine ladder_canonical hP ?_ h
        simp [Point.canonical, feltPort_canonical hx h1, feltPort_canonical hy h2]
  · cases h

/-! ### Memory -/

theorem tableLookup_mem {α : Type} {l : List (Nat × α)} {k : Nat} {v : α} (h : tableLookup l k = some v) :
    ∃ c ∈ l, c.2 = v := by
  induction l with
  | nil => cases h
  | cons e t ih =>
    unfold tableLookup at h
    split at h
    · cases h; exact ⟨e, by simp, rfl⟩
    · obtain ⟨c, hc, hv⟩ := ih h; exact ⟨c, by simp [hc], hv⟩

theorem Memory.peek_canonical {P : Nat} {v : MaybeRel} (hm : m.canonical P) (h : m.peek a = some v) :
    v.canonical P = true := by
  unfold Memory.peek at h
  split at h
  · obtain ⟨c, hc, rfl⟩ := tableLookup_mem h; exact hm c hc
  · cases h

theorem Memory.set_canonical {P : Nat} {v : MaybeRel} (hm : m.canonical P) (hv : v.canonical P = true) :
    (m.set a v).canonical P := by
  intro c hc
  rcases mem_tableInsert _ _ _ hc with rfl | hc
  · exact hv
  · exact hm c hc

theorem memWrite_canonical {P : Nat} {v : MaybeRel} (hm : m.canonical P) (hv : v.canonical P = true)
    (h : memWrite s m a v = .ok m') : m'.canonical P := by
  obtain ⟨-, ⟨-, rfl⟩ | ⟨-, rfl⟩⟩ := memWrite_ok h
  · exact Memory.set_canonical hm hv
  · exact hm

theorem Memory.assertEq_canonical {P : Nat} {v : MaybeRel} (hm : m.canonical P) (hv : v.canonical P = true)
    (h : m.assertEq a v = .ok m') : m'.canonical P := by
  obtain ⟨-, ⟨-, rfl⟩ | ⟨-, rfl⟩⟩ := Memory.assertEq_ok h
  · exact Memory.set_canonical hm hv
  · exact hm

/-- A deduction from a canonical memory answers a canonical point. -/
theorem ecDeduce_canonical {k : Nat} {p : Point} (hP : 0 < s.params.prime) (hm : m.canonical s.params.prime)
    (h : ecDeduce s m a k = some (.ok p)) : p.canonical s.params.prime = true := by
  unfold ecDeduce at h
  split at h
  · next hx hy _ _ _ =>
    exact ecOp_canonical hP (Memory.peek_canonical hm hx) (Memory.peek_canonical hm hy) (Option.some.inj h)
  · cases h

/-- A read of a canonical memory answers a canonical value, and what it fills is canonical. -/
theorem resolve_canonical {x : Option MaybeRel} (hP : 0 < s.params.prime) (hm : m.canonical s.params.prime)
    (h : resolve s m a = .ok (x, m')) :
    m'.canonical s.params.prime ∧ ∀ v, x = some v → v.canonical s.params.prime = true := by
  rcases resolve_ok h with ⟨rfl, rfl⟩ | ⟨k, p, m1, -, -, hd, h1, h2, rfl⟩
  · exact ⟨hm, fun v hv => Memory.peek_canonical hm hv⟩
  · have hp := ecDeduce_canonical hP hm hd
    simp only [Point.canonical, Bool.and_eq_true, Felt.canonical_iff] at hp
    refine ⟨Memory.assertEq_canonical (Memory.assertEq_canonical hm (MaybeRel.canonical_felt hp.1) h1)
      (MaybeRel.canonical_felt hp.2) h2, ?_⟩
    rintro v ⟨rfl⟩
    unfold ecCoordinate
    split
    · exact MaybeRel.canonical_felt hp.1
    · exact MaybeRel.canonical_felt hp.2

/-! ### The body of an instruction -/

/-- The operands that an instruction reads or infers. -/
structure Operands.Canonical (P : Nat) (o : Operands) : Prop where
  mem : o.mem.canonical P
  dst : o.dst.canonical P = true
  op0 : o.op0.canonical P = true
  op1 : o.op1.canonical P = true
  inferred : ∀ b v, o.inferred = some (b, v) → v.canonical P = true

/-- Inference from canonical values gives canonical values (R220). -/
theorem infer_canonical {i : Instruction} {op0A op1A : Rel} {dst op0 op1 : Option MaybeRel}
    {v : MaybeRel × MaybeRel × MaybeRel × Option (Rel × MaybeRel)} (hP : 0 < s.params.prime)
    (hd : ∀ x, dst = some x → x.canonical s.params.prime = true)
    (h0 : ∀ x, op0 = some x → x.canonical s.params.prime = true)
    (h1 : ∀ x, op1 = some x → x.canonical s.params.prime = true)
    (h : infer i s op0A op1A dst op0 op1 = .ok v) :
    v.1.canonical s.params.prime = true ∧ v.2.1.canonical s.params.prime = true ∧
      v.2.2.1.canonical s.params.prime = true ∧
      ∀ b x, v.2.2.2 = some (b, x) → x.canonical s.params.prime = true := by
  unfold infer at h
  split at h
  · cases h; exact ⟨hd _ rfl, h0 _ rfl, h1 _ rfl, fun _ _ e => by cases e⟩
  · split at h
    · obtain ⟨d, hi, h⟩ := Res.bind_eq_ok.1 h
      cases h
      refine ⟨?_, h0 _ rfl, h1 _ rfl, fun _ _ e => by cases e⟩
      unfold inferDst at hi
      split at hi
      · cases hi; exact h1 _ rfl
      · exact mrAdd_canonical hP hi
      · exact mrMul_canonical hP hi
      · cases hi
    · cases h
  · split at h
    · obtain ⟨b, hi, h⟩ := Res.bind_eq_ok.1 h
      cases h
      have hb : b.canonical s.params.prime = true := by
        unfold inferOp1 at hi
        split at hi
        · cases hi; exact hd _ rfl
        · exact mrSub_canonical hP hi
        · exact mrDiv_canonical hP hi
        · cases hi
      exact ⟨hd _ rfl, h0 _ rfl, hb, fun _ _ e => by cases e; exact hb⟩
    · cases h
  · split at h
    · obtain ⟨b, hi, h⟩ := Res.bind_eq_ok.1 h
      cases h
      have hb : b.canonical s.params.prime = true := by
        unfold inferOp0 at hi
        split at hi
        · cases hi
        · exact mrSub_canonical hP hi
        · exact mrDiv_canonical hP hi
        · cases hi
      exact ⟨hd _ rfl, hb, h1 _ rfl, fun _ _ e => by cases e; exact hb⟩
    · cases h
  · cases h
  · cases h
  · cases h

theorem readOperands_canonical {i : Instruction} {o : Operands} (hP : 0 < s.params.prime)
    (hm : s.mem.canonical s.params.prime) (h : readOperands i s = .ok o) :
    o.Canonical s.params.prime := by
  obtain ⟨⟨x0, m0⟩, op1A, ⟨xd, md⟩, ⟨x1, m1⟩, v, -, -, h0, -, hd, h1, hi, e1, e2, e3, e4, e5⟩ :=
    readOperands_ok h
  obtain ⟨y, hy, hx⟩ := fetchOp0_ok h0
  obtain ⟨c0, k0⟩ := resolve_canonical hP hm hy
  obtain ⟨cd, kd⟩ := resolve_canonical hP c0 hd
  obtain ⟨c1, k1⟩ := resolve_canonical hP cd h1
  have hx0 : ∀ x, x0 = some x → x.canonical s.params.prime = true := by
    rintro x rfl
    rcases hx with ⟨w, rfl, hw⟩ | ⟨-, -, t, -, hw⟩ | ⟨-, -, hw⟩
    · cases hw; exact k0 _ rfl
    · cases hw; rfl
    · cases hw
  have hxd : ∀ x, callDst i s xd = some x → x.canonical s.params.prime = true := by
    intro x hx
    unfold callDst at hx
    split at hx
    · cases hx; exact kd _ rfl
    · split at hx
      · cases hx; rfl
      · cases hx
  obtain ⟨a1, a2, a3, a4⟩ := infer_canonical hP hxd hx0 k1 hi
  exact ⟨e5 ▸ c1, e1 ▸ a1, e2 ▸ a2, e3 ▸ a3, e4 ▸ a4⟩

theorem computeRes_canonical {i : Instruction} {o : Operands} {v : MaybeRel} (hP : 0 < s.params.prime)
    (ho : o.Canonical s.params.prime) (h : computeRes i s o = .ok (some v)) :
    v.canonical s.params.prime = true := by
  unfold computeRes at h
  split at h
  · cases h; exact ho.op1
  · obtain ⟨w, hw, h⟩ := Res.bind_eq_ok.1 h; cases h; exact mrAdd_canonical hP hw
  · obtain ⟨w, hw, h⟩ := Res.bind_eq_ok.1 h; cases h; exact mrMul_canonical hP hw
  · cases h

theorem opcodeEffect_canonical {i : Instruction} {o : Operands} {res : Option MaybeRel}
    (ho : o.Canonical s.params.prime) (hr : ∀ v, res = some v → v.canonical s.params.prime = true)
    (h : opcodeEffect i s o res = .ok m) : m.canonical s.params.prime := by
  obtain ⟨m0, h0, h⟩ := Res.bind_eq_ok.1 h
  have c0 : m0.canonical s.params.prime := by
    unfold writeInferred at h0
    split at h0
    · cases h0; exact ho.mem
    · next b v hv => exact memWrite_canonical ho.mem (ho.inferred _ _ hv) h0
  split at h
  · unfold assertEqWrite at h
    split at h
    · cases h
    · next v => exact memWrite_canonical c0 (hr _ rfl) h
  · obtain ⟨m1, h1, h⟩ := Res.bind_eq_ok.1 h
    obtain ⟨t, -, h⟩ := Res.bind_eq_ok.1 h
    exact memWrite_canonical (memWrite_canonical c0 rfl h1) rfl h
  · cases h; exact c0
  · cases h; exact c0

/-- A body that commits leaves every Felt in MEM canonical. -/
theorem vmBody_canonical {i : Instruction} {t : State} (hP : 0 < s.params.prime)
    (hm : s.mem.canonical s.params.prime) (h : vmBody i s = .ok t) : t.mem.canonical s.params.prime := by
  obtain ⟨o, res, m, npc, nap, nfp, h1, h2, h3, -, -, -, rfl⟩ := vmBody_ok h
  have ho := readOperands_canonical hP hm h1
  exact opcodeEffect_canonical ho (fun v hv => computeRes_canonical hP ho (hv ▸ h2)) h3

/-- What a hint writes is reduced, so a hint step keeps every Felt canonical. -/
theorem runActions_canonical {acts : List HintAction} {d : HintDone} (hP : 0 < s.params.prime)
    (hm : m.canonical s.params.prime) (h : runActions s acts m = .ok d) :
    d.mem.canonical s.params.prime := by
  induction acts generalizing m with
  | nil => cases h; exact hm
  | cons x rest ih =>
    cases x with
    | write a v =>
      obtain ⟨m1, h1, h2⟩ := Res.bind_eq_ok.1 h
      cases a with
      | rel r => exact ih (memWrite_canonical hm (MaybeRel.reduce_canonical hP v) h1) h2
      | felt v => cases h1
    | alloc =>
      obtain ⟨x, h1, h⟩ := Res.bind_eq_ok.1 h
      obtain ⟨-, rfl⟩ := Memory.allocate_ok h1
      exact ih (m := ⟨m.count + 1, m.cells⟩) hm h
    | raise f => cases h
    | halt => cases h; exact hm

theorem hintStep_canonical {d : HintDone} (hP : 0 < s.params.prime) (hm : s.mem.canonical s.params.prime)
    (h : hintStep s = .ok d) : d.mem.canonical s.params.prime := by
  have key : ∀ (hs : List Hint) (n : Nat) (m : Memory) (d : HintDone), m.canonical s.params.prime →
      runHints s hs n m = .ok d → d.mem.canonical s.params.prime := by
    intro hs
    induction hs with
    | nil => intro n m d hm h; cases h; exact hm
    | cons x rest ih =>
      intro n m d hm h
      obtain ⟨d1, h1, h⟩ := Res.bind_eq_ok.1 h
      have g := runActions_canonical hP hm h1
      split at h
      · cases h; exact g
      · exact ih _ _ _ g h
  exact key _ _ _ _ hm h

end Sys2Proof.Machine
end

