-- ==== Sys2Proof/Laws/Ec.lean ====
section
/-! SUPPORT. The ladder of EC_OP: one iteration, and a ladder answers a point exactly when all its iterations go
through (R196). The ECU's cells: what is deduced from five filled inputs (R203), and an input that is a Relocatable
(R204). -/

namespace Sys2Proof.Machine

/-- A doubling that succeeds had y ≠ 0 (R176). -/
theorem ecDouble_y {par : Params} {p r : Point} (h : ecDouble par p = .ok r) : p.y.val ≠ 0 := by
  intro hy
  have hz : (tangentRun par p).val = 0 := by simp [tangentRun, Fau.mul, Felt.ofNat, hy]
  simp [ecDouble, Fau.div, hz] at h

/-- A ladder goes on exactly by an iteration that goes through. -/
theorem ladder_succ_ok {par : Params} {n h : Nat} {p q r : Point} {m : Felt} {acc dbl : Point} {k : Nat} :
    ladder par n p q m (h + 1) acc dbl k = .ok r ↔
      ∃ acc' dbl' k', LadderStep par (acc, dbl, k) (acc', dbl', k') ∧
        ladder par n p q m h acc' dbl' k' = .ok r := by
  constructor
  · intro hl
    unfold ladder at hl
    split at hl
    · cases hl
    · next hx =>
      obtain ⟨acc', ha, hl⟩ := Res.bind_eq_ok.1 hl
      split at hl
      · cases hl
      · obtain ⟨dbl', hd, hl⟩ := Res.bind_eq_ok.1 hl
        split at ha
        · next hk => exact ⟨_, _, _, .one hx hk ha hd, hl⟩
        · next hk => cases ha; exact ⟨_, _, _, .zero hx (by omega) hd, hl⟩
  · rintro ⟨acc', dbl', k', hs, hl⟩
    cases hs with
    | zero hx hk hd => simp [ladder, hx, hk, hd, ecDouble_y hd, hl]
    | one hx hk ha hd => simp [ladder, hx, hk, ha, hd, ecDouble_y hd, hl]

/-- A ladder answers a point exactly when its iterations go through and leave the scalar 0. -/
theorem ladder_ok {par : Params} {n h : Nat} {p q r : Point} {m : Felt} {acc dbl : Point} {k : Nat} :
    ladder par n p q m h acc dbl k = .ok r ↔ ∃ d, LadderSteps par h (acc, dbl, k) (r, d, 0) := by
  induction h generalizing acc dbl k with
  | zero =>
    unfold ladder
    constructor
    · intro hl
      split at hl
      · next hk => cases hl; subst hk; exact ⟨_, .zero _⟩
      · cases hl
    · rintro ⟨d, hs⟩
      cases hs
      rfl
  | succ h ih =>
    rw [ladder_succ_ok]
    constructor
    · rintro ⟨acc', dbl', k', hs, hl⟩
      obtain ⟨d, hd⟩ := ih.1 hl
      exact ⟨d, .next hs hd⟩
    · rintro ⟨d, hd⟩
      cases hd with
      | @next _ _ y _ hs hr => exact ⟨y.1, y.2.1, y.2.2, hs, ih.2 ⟨d, hr⟩⟩

/-! ### The ECU's cells -/

variable {s : State} {m : Memory} {a : Rel} {k : Nat}

/-- A cell is an output cell exactly at 7k + 5 and 7k + 6 of the ECU's segment (R203). -/
theorem ecOutput_of_offset (hs : ecSegment s.cfg = some a.seg.toNat)
    (ho : a.off.toNat = 7 * k + 5 ∨ a.off.toNat = 7 * k + 6) : ecOutput s.cfg a = some k := by
  unfold ecOutput
  rw [if_pos ⟨hs, by omega⟩]
  exact congrArg some (by omega)

/-- The other cells of the ECU's segment are written and read like any cell (R203). -/
theorem ecOutput_none (h : ecSegment s.cfg = some a.seg.toNat → a.off.toNat % 7 < 5) :
    ecOutput s.cfg a = none := by
  unfold ecOutput
  refine if_neg fun hc => ?_
  have := h hc.1
  omega

/-- The ECU has a segment only while it is active (R70). -/
theorem ecActive_of_segment {cfg : BitVec 16} {n : Nat} (h : ecSegment cfg = some n) : ecActive cfg = true := by
  unfold ecSegment at h
  split at h
  · assumption
  · cases h

/-- Five filled inputs are EC_OP's operands (R203). -/
theorem ecDeduce_of_inputs {px py qx qy c : MaybeRel} (h : EcInputs m a.seg k px py qx qy c) :
    ecDeduce s m a k = some (ecOp s.cfg s.params s.draws px py qx qy c) := by
  obtain ⟨h1, h2, h3, h4, h5⟩ := h
  simp only [ecDeduce, cellAt, withOff, h1, h2, h3, h4, h5]

/-- A Relocatable among EC_OP's operands is refused, whatever the others are (R204, R106). -/
theorem ecOp_relocatable {cfg : BitVec 16} {par : Params} {n : Nat} {px py qx qy c : MaybeRel} {t : Rel}
    (ha : ecActive cfg = true) (h : .rel t ∈ [px, py, qx, qy, c]) :
    ecOp cfg par n px py qx qy c = .refuse .relocatableOperand := by
  unfold ecOp
  rw [if_pos ha]
  rcases px with _ | px <;> rcases py with _ | py <;> rcases qx with _ | qx <;> rcases qy with _ | qy <;>
    rcases c with _ | c <;> simp [feltPort] at h ⊢

end Sys2Proof.Machine
end

