-- ==== Sys2Proof/Laws/Prime.lean ====
section
/-! SUPPORT. Powers by squaring, and that FIELD_PRIME's default is a prime (R136). -/

namespace Sys2Proof.Machine

/-- The loop of powMod multiplies the power into its accumulator. -/
theorem powModAcc_spec (m : Nat) : ∀ (fuel b e acc : Nat), e < 2 ^ fuel →
    powModAcc m fuel b e acc ≡ acc * b ^ e [MOD m] := by
  intro fuel
  induction fuel with
  | zero =>
    intro b e acc h
    obtain rfl : e = 0 := by omega
    simpa [powModAcc] using Nat.ModEq.refl acc
  | succ fuel ih =>
    intro b e acc h
    refine (ih _ _ _ (by rw [pow_succ] at h; omega)).trans ?_
    have hsq : (b * b % m) ^ (e / 2) ≡ b ^ (2 * (e / 2)) [MOD m] := by
      rw [pow_mul, pow_two]; exact (Nat.mod_modEq _ _).pow _
    split
    · next ho =>
      have he : b ^ e = b * b ^ (2 * (e / 2)) := by rw [← pow_succ']; congr 1; omega
      rw [he, ← mul_assoc]
      exact (Nat.mod_modEq _ _).mul hsq
    · next ho =>
      have he : b ^ e = b ^ (2 * (e / 2)) := by congr 1; omega
      rw [he]
      exact hsq.mul_left _

/-- powMod is the power modulo m. -/
theorem powMod_spec (m b e : Nat) : powMod m b e ≡ b ^ e [MOD m] := by
  have h := powModAcc_spec m (Nat.log2 e + 1) b e (1 % m) Nat.lt_log2_self
  have h1 := (Nat.mod_modEq 1 m).mul_right (b ^ e)
  rw [one_mul] at h1
  exact h.trans h1

/-- powMod answers below m. -/
theorem powMod_lt {m b e : Nat} (hm : 0 < m) : powMod m b e < m := by
  have key : ∀ (fuel b e acc : Nat), acc < m → powModAcc m fuel b e acc < m := by
    intro fuel
    induction fuel with
    | zero => intro _ _ _ h; exact h
    | succ fuel ih =>
      intro b e acc h
      refine ih _ _ _ ?_
      split
      · exact Nat.mod_lt _ hm
      · exact h
  exact key _ _ _ _ (Nat.mod_lt _ hm)

/-- 3 generates the units of the field, by Lucas' criterion with the factors of P - 1. -/
theorem fieldPrime_prime : Nat.Prime Config.fieldPrime := by
  have cast : ∀ e, (3 : ZMod Config.fieldPrime) ^ e = (powMod Config.fieldPrime 3 e : ℕ) := by
    intro e
    have h := (ZMod.natCast_eq_natCast_iff _ _ _).2 (powMod_spec Config.fieldPrime 3 e)
    rw [h]; push_cast; rfl
  have ne : ∀ e, powMod Config.fieldPrime 3 e % Config.fieldPrime ≠ 1 →
      (3 : ZMod Config.fieldPrime) ^ e ≠ 1 := by
    intro e he h
    rw [cast] at h
    have h1 : ((powMod Config.fieldPrime 3 e : ℕ) : ZMod Config.fieldPrime) = (1 : ℕ) := by simpa using h
    rw [ZMod.natCast_eq_natCast_iff, Nat.ModEq] at h1
    exact he (h1.trans (by decide +kernel))
  refine lucas_primality _ 3 ?_ ?_
  · rw [cast, show powMod Config.fieldPrime 3 (Config.fieldPrime - 1) = 1 by decide +kernel]; simp
  · intro q hq hd
    have hf : Config.fieldPrime - 1 = 2 ^ 192 * (5 * (7 * (98714381 * 166848103))) := by decide +kernel
    rw [hf] at hd
    have p1 : Nat.Prime 98714381 := by norm_num
    have p2 : Nat.Prime 166848103 := by norm_num
    have hmem : q = 2 ∨ q = 5 ∨ q = 7 ∨ q = 98714381 ∨ q = 166848103 := by
      rcases hq.dvd_mul.1 hd with h | h
      · exact .inl ((Nat.prime_dvd_prime_iff_eq hq Nat.prime_two).1 (hq.dvd_of_dvd_pow h))
      rcases hq.dvd_mul.1 h with h | h
      · exact .inr (.inl ((Nat.prime_dvd_prime_iff_eq hq Nat.prime_five).1 h))
      rcases hq.dvd_mul.1 h with h | h
      · exact .inr (.inr (.inl ((Nat.prime_dvd_prime_iff_eq hq (by norm_num)).1 h)))
      rcases hq.dvd_mul.1 h with h | h
      · exact .inr (.inr (.inr (.inl ((Nat.prime_dvd_prime_iff_eq hq p1).1 h))))
      · exact .inr (.inr (.inr (.inr ((Nat.prime_dvd_prime_iff_eq hq p2).1 h))))
    rcases hmem with rfl | rfl | rfl | rfl | rfl <;> exact ne _ (by decide +kernel)

end Sys2Proof.Machine
end

