-- ==== Sys2Proof/Laws/Failures.lean ====
section
/-! SUPPORT. Every failure that an operation answers carries canonical Felts only, and so does every answer of a
unit command: what STATUS and the port hold is canonical (R11, R137). -/

namespace Sys2Proof.Machine

variable {α β : Type} {P : Nat} {par : Params} {s : State} {m : Memory} {a : Rel}

/-! ### Failures -/

/-- A second reduction of a value changes nothing. -/
@[simp] theorem MaybeRel.reduce_reduce (v : MaybeRel) : (v.reduce P).reduce P = v.reduce P := by
  cases v <;> simp [MaybeRel.reduce]

@[simp] theorem Point.reduce_reduce (p : Point) : (p.reduce P).reduce P = p.reduce P := by
  simp [Point.reduce]

/-- What a hint's failure becomes is canonical (R137). -/
theorem Failure.reduce_canonical (f : Failure) : (f.reduce P).canonical P = true := by
  unfold Failure.canonical
  rw [decide_eq_true_eq]
  cases f with
  | overflow i =>
    cases i with
    | address r k => cases k <;> simp [reduce, OverflowInfo.reduce, Addend.reduce]
    | conversion v w => simp [reduce, OverflowInfo.reduce]
  | underflow r k => cases k <;> simp [reduce, Addend.reduce]
  | _ => simp [reduce]

/-- A canonical failure is its own reduction. -/
theorem Failure.reduce_self {f : Failure} (h : f.canonical P = true) : f.reduce P = f := by
  simpa [Failure.canonical] using h

theorem Point.reduce_self {p : Point} (h : p.canonical P = true) : p.reduce P = p := by
  simp only [Point.canonical, Bool.and_eq_true, Felt.canonical_iff] at h
  simp [Point.reduce, Felt.reduce_self h.1, Felt.reduce_self h.2]

theorem forbidden_canonical {x y : MaybeRel} (hx : x.canonical P = true) (hy : y.canonical P = true) :
    (Failure.forbiddenOperation x y).canonical P = true := by
  simp [Failure.canonical, Failure.reduce, MaybeRel.reduce_self hx, MaybeRel.reduce_self hy]

theorem inconsistent_canonical {x y : MaybeRel} (hx : x.canonical P = true) (hy : y.canonical P = true) :
    (Failure.inconsistentMemory a x y).canonical P = true := by
  simp [Failure.canonical, Failure.reduce, MaybeRel.reduce_self hx, MaybeRel.reduce_self hy]

theorem ladderFailure_canonical {p q : Point} {k : Felt} (hp : p.canonical P = true) (hq : q.canonical P = true)
    (hk : k.val < P) : (Failure.ladderFailure p q k).canonical P = true := by
  simp [Failure.canonical, Failure.reduce, Point.reduce_self hp, Point.reduce_self hq, Felt.reduce_self hk]

theorem division_canonical {x y : Felt} (hx : x.val < P) (hy : y.val < P) :
    (Failure.divisionByZero [x, y]).canonical P = true := by
  simp [Failure.canonical, Failure.reduce, Felt.reduce_self hx, Felt.reduce_self hy]

/-- Every failure of the operation is canonical. -/
def FailsCanonically (P : Nat) (r : Res α) : Prop := ∀ f, r = .fail f → f.canonical P = true

@[simp] theorem FailsCanonically.ok (v : α) : FailsCanonically P (.ok v) := fun _ h => by cases h
@[simp] theorem FailsCanonically.refuse (r : Refuse) : FailsCanonically P (.refuse r : Res α) :=
  fun _ h => by cases h
@[simp] theorem FailsCanonically.fail {f : Failure} :
    FailsCanonically P (.fail f : Res α) ↔ f.canonical P = true :=
  ⟨fun h => h f rfl, fun h _ e => by cases e; exact h⟩

/-- A chain fails canonically when its first part does, and its rest on every value of the first. -/
theorem FailsCanonically.bind {x : Res α} {k : α → Res β} (hx : FailsCanonically P x)
    (hk : ∀ v, x = .ok v → FailsCanonically P (k v)) : FailsCanonically P (x.bind k) := by
  intro f h
  rcases Res.bind_eq_fail.1 h with h | ⟨v, hv, h⟩
  · exact hx f h
  · exact hk v hv f h

theorem undefinedHere_fails : FailsCanonically P (undefinedHere s : Res α) :=
  FailsCanonically.fail.2 (by simp [Failure.canonical, Failure.reduce])

/-! ### Address arithmetic and the operators -/

theorem addInt_fails {r : Rel} {k : Int} : FailsCanonically P (addInt r k) := by
  unfold addInt
  split <;> split <;> simp [Failure.canonical, Failure.reduce, OverflowInfo.reduce, Addend.reduce]

theorem addFelt_fails {r : Rel} {v : Felt} (hv : v.val < P) : FailsCanonically P (addFelt par r v) := by
  unfold addFelt
  split <;> split <;>
    simp [Failure.canonical, Failure.reduce, OverflowInfo.reduce, Addend.reduce, MaybeRel.reduce,
      Felt.reduce_self hv]

theorem subFelt_fails {r : Rel} {v : Felt} (hv : v.val < P) : FailsCanonically P (subFelt par r v) := by
  unfold subFelt
  split
  · split
    · split <;> simp [Failure.canonical, Failure.reduce, Addend.reduce, MaybeRel.reduce, Felt.reduce_self hv]
    · simp [Failure.canonical, Failure.reduce, OverflowInfo.reduce, Addend.reduce, MaybeRel.reduce,
        Felt.reduce_self hv]
  · split <;> simp [Failure.canonical, Failure.reduce, Addend.reduce, MaybeRel.reduce, Felt.reduce_self hv]

theorem subRel_fails {r t : Rel} : FailsCanonically P (subRel par r t) := by
  unfold subRel
  split
  · split <;> simp [Failure.canonical, Failure.reduce, Addend.reduce, MaybeRel.reduce]
  · simp [Failure.canonical, Failure.reduce]

theorem div_fails {x y : Felt} (hx : x.val < P) (hy : y.val < P) : FailsCanonically P (Fau.div P x y) := by
  unfold Fau.div
  split
  · exact FailsCanonically.fail.2 (division_canonical hx hy)
  · exact .ok _

theorem MaybeRel.felt_lt {v : Felt} (h : (MaybeRel.felt v).canonical P = true) : v.val < P := by
  simpa [MaybeRel.canonical] using h

theorem mrAdd_fails {x y : MaybeRel} (hx : x.canonical par.prime = true) (hy : y.canonical par.prime = true) :
    FailsCanonically par.prime (mrAdd par x y) := by
  unfold mrAdd
  split
  · exact .ok _
  · exact .bind (addFelt_fails (MaybeRel.felt_lt hy)) fun _ _ => .ok _
  · exact .bind (addFelt_fails (MaybeRel.felt_lt hx)) fun _ _ => .ok _
  · exact FailsCanonically.fail.2 (forbidden_canonical hx hy)

theorem mrSub_fails {x y : MaybeRel} (hx : x.canonical par.prime = true) (hy : y.canonical par.prime = true) :
    FailsCanonically par.prime (mrSub par x y) := by
  unfold mrSub
  split
  · exact .ok _
  · exact .bind (subFelt_fails (MaybeRel.felt_lt hy)) fun _ _ => .ok _
  · exact FailsCanonically.fail.2 (forbidden_canonical hx hy)
  · exact .bind subRel_fails fun _ _ => .ok _

theorem mrMul_fails {x y : MaybeRel} (hx : x.canonical par.prime = true) (hy : y.canonical par.prime = true) :
    FailsCanonically par.prime (mrMul par x y) := by
  unfold mrMul
  split
  · exact .ok _
  · exact FailsCanonically.fail.2 (forbidden_canonical hx hy)

theorem mrDiv_fails {x y : MaybeRel} (hx : x.canonical par.prime = true) (hy : y.canonical par.prime = true) :
    FailsCanonically par.prime (mrDiv par x y) := by
  unfold mrDiv
  split
  · exact .bind (div_fails (MaybeRel.felt_lt hx) (MaybeRel.felt_lt hy)) fun _ _ => .ok _
  · exact FailsCanonically.fail.2 (forbidden_canonical hx hy)

/-! ### The builtin units -/

theorem feltPort_fails {v : MaybeRel} : FailsCanonically P (feltPort v) := by
  cases v <;> simp [feltPort]

theorem rcCheck_fails {cfg : BitVec 16} {v : MaybeRel} (hv : v.canonical P = true) :
    FailsCanonically P (rcCheck cfg v) := by
  have h : FailsCanonically P (.fail (.rangeCheckOutOfBounds v (2 ^ rcBoundExp cfg)) : Res Unit) := by
    simp [Failure.canonical, Failure.reduce, MaybeRel.reduce_self hv]
  unfold rcCheck
  split
  · split
    · split
      · exact .ok _
      · exact h
    · exact h
  · exact .refuse _

/-- A square root is canonical. -/
theorem sqrt_lt {x y : Felt} (hP : 0 < P) (h : sqrt P x = some y) : y.val < P := by
  have key : ∀ (n : Nat) (r t c : Felt), r.val < P → (sqrtLoop P n r t c).val < P := by
    intro n
    induction n with
    | zero => intro r t c hr; exact hr
    | succ n ih =>
      intro r t c hr
      unfold sqrtLoop
      simp only
      split
      · exact ih _ _ _ hr
      · exact ih _ _ _ (Fau.mul_lt hP)
  unfold sqrt at h
  simp only at h
  split at h
  · cases h; exact key _ _ _ _ (powMod_lt hP)
  · cases h

/-- The candidates of a canonical x are canonical points. -/
theorem candidates_canonical {x : Felt} {p : Point} (hP : 0 < par.prime) (hx : x.val < par.prime)
    (h : p ∈ candidates par x) : p.canonical par.prime = true := by
  unfold candidates at h
  split at h
  · cases h
  · next y hy =>
    have h1 := sqrt_lt hP hy
    have h2 : (Fau.neg par.prime y).val < par.prime := Fau.neg_lt hP
    simp only at h
    split at h
    · simp only [List.mem_singleton] at h
      subst h
      simp [Point.canonical, hx, h1]
    · split at h <;>
        · simp only [List.mem_cons, List.not_mem_nil, or_false] at h
          rcases h with rfl | rfl <;> simp [Point.canonical, hx, h1, h2]

theorem sigVerify_fails {cfg : BitVec 16} {tab : Option (List (Nat × Sig))} {off : U32} {pk msg : MaybeRel}
    (hP : 0 < par.prime) (hk : pk.canonical par.prime = true) (hm : msg.canonical par.prime = true) :
    FailsCanonically par.prime (sigVerify cfg par tab off pk msg) := by
  unfold sigVerify
  split
  · refine .bind feltPort_fails fun x hx => .bind feltPort_fails fun z hz => ?_
    have hx' := feltPort_canonical hk hx
    have hz' := feltPort_canonical hm hz
    have hc : (candidates par x).map (Point.reduce par.prime) = candidates par x :=
      (List.map_congr_left fun p hp => Point.reduce_self (candidates_canonical hP hx' hp)).trans (List.map_id' _)
    unfold sigVerifyFelts
    split
    · simp [Failure.canonical, Failure.reduce]
    · split
      · simp [Failure.canonical, Failure.reduce]
      · split
        · exact .ok _
        · simp [Failure.canonical, Failure.reduce, Felt.reduce_self hz', hc]
  · exact .refuse _

theorem ecAddDistinct_fails {p q : Point} (hP : 0 < par.prime) :
    FailsCanonically par.prime (ecAddDistinct par p q) :=
  .bind (div_fails (Fau.sub_lt hP) (Fau.sub_lt hP)) fun _ _ => .ok _

theorem ecDouble_fails {p : Point} (hP : 0 < par.prime) : FailsCanonically par.prime (ecDouble par p) :=
  .bind (div_fails (Fau.add_lt hP) (Fau.mul_lt hP)) fun _ _ => .ok _

theorem ladder_fails {n h k : Nat} {p q acc dbl : Point} {c : Felt} (hP : 0 < par.prime)
    (hp : p.canonical par.prime = true) (hq : q.canonical par.prime = true) (hc : c.val < par.prime) :
    FailsCanonically par.prime (ladder par n p q c h acc dbl k) := by
  have hf := ladderFailure_canonical hp hq hc
  induction h generalizing acc dbl k with
  | zero =>
    unfold ladder
    split
    · exact .ok _
    · exact FailsCanonically.fail.2 hf
  | succ h ih =>
    unfold ladder
    split
    · exact FailsCanonically.fail.2 hf
    · refine .bind ?_ fun acc' _ => ?_
      · split
        · exact ecAddDistinct_fails hP
        · exact .ok _
      · split
        · unfold doublingFailure
          split
          · exact FailsCanonically.fail.2 hf
          · exact FailsCanonically.fail.2 (division_canonical (Fau.add_lt hP) (Fau.mul_lt hP))
        · exact .bind (ecDouble_fails hP) fun _ _ => ih

theorem ecOp_fails {cfg : BitVec 16} {n : Nat} {px py qx qy c : MaybeRel} (hP : 0 < par.prime)
    (h1 : px.canonical par.prime = true) (h2 : py.canonical par.prime = true)
    (h3 : qx.canonical par.prime = true) (h4 : qy.canonical par.prime = true)
    (h5 : c.canonical par.prime = true) :
    FailsCanonically par.prime (ecOp cfg par n px py qx qy c) := by
  unfold ecOp
  split
  · refine .bind feltPort_fails fun x1 e1 => .bind feltPort_fails fun y1 e2 => .bind feltPort_fails fun x2 e3 =>
      .bind feltPort_fails fun y2 e4 => .bind feltPort_fails fun k e5 => ?_
    have hp : (⟨x1, y1⟩ : Point).canonical par.prime = true := by
      simp [Point.canonical, feltPort_canonical h1 e1, feltPort_canonical h2 e2]
    have hq : (⟨x2, y2⟩ : Point).canonical par.prime = true := by
      simp [Point.canonical, feltPort_canonical h3 e3, feltPort_canonical h4 e4]
    unfold ecOpFelts
    split
    · simp [Failure.canonical, Failure.reduce, Point.reduce_self hp]
    · split
      · simp [Failure.canonical, Failure.reduce, Point.reduce_self hq]
      · exact ladder_fails hP hp hq (feltPort_canonical h5 e5)
  · exact .refuse _

/-! ### Memory -/

theorem Memory.assertEq_fails {v : MaybeRel} (hm : m.canonical P) (hv : v.canonical P = true) :
    FailsCanonically P (m.assertEq a v) := by
  unfold Memory.assertEq
  split
  · split
    · exact .ok _
    · next c hc =>
      split
      · exact .ok _
      · exact FailsCanonically.fail.2 (inconsistent_canonical (Memory.peek_canonical hm hc) hv)
  · exact .refuse _

theorem ecDeduce_fails {k : Nat} {r : Res Point} (hP : 0 < s.params.prime) (hm : m.canonical s.params.prime)
    (h : ecDeduce s m a k = some r) : FailsCanonically s.params.prime r := by
  unfold ecDeduce at h
  split at h
  · next e1 e2 e3 e4 e5 =>
    cases h
    exact ecOp_fails hP (Memory.peek_canonical hm e1) (Memory.peek_canonical hm e2)
      (Memory.peek_canonical hm e3) (Memory.peek_canonical hm e4) (Memory.peek_canonical hm e5)
  · cases h

theorem resolve_fails (hP : 0 < s.params.prime) (hm : m.canonical s.params.prime) :
    FailsCanonically s.params.prime (resolve s m a) := by
  unfold resolve
  split
  · exact .ok _
  · split
    · exact .ok _
    · split
      · simp [Failure.canonical, Failure.reduce]
      · next r hr =>
        refine .bind (ecDeduce_fails hP hm hr) fun p hp => ?_
        have hc := ecDeduce_canonical hP hm (hp ▸ hr)
        simp only [Point.canonical, Bool.and_eq_true, Felt.canonical_iff] at hc
        refine .bind (Memory.assertEq_fails hm (MaybeRel.canonical_felt hc.1)) fun m1 h1 => ?_
        have hm1 := Memory.assertEq_canonical hm (MaybeRel.canonical_felt hc.1) h1
        exact .bind (Memory.assertEq_fails hm1 (MaybeRel.canonical_felt hc.2)) fun _ _ => .ok _

theorem validate_fails {v : MaybeRel} (hP : 0 < s.params.prime) (hm : m.canonical s.params.prime)
    (hv : v.canonical s.params.prime = true) : FailsCanonically s.params.prime (validate s m a v) := by
  unfold validate
  split
  · exact rcCheck_fails hv
  · split
    · split
      · exact .ok _
      · next off pk msg hi =>
        unfold sigInstance at hi
        simp only at hi
        split at hi
        · next e1 e2 =>
          cases hi
          exact sigVerify_fails hP (Memory.peek_canonical hm e1) (Memory.peek_canonical hm e2)
        · cases hi
    · exact .ok _

theorem memWrite_fails {v : MaybeRel} (hP : 0 < s.params.prime) (hm : m.canonical s.params.prime)
    (hv : v.canonical s.params.prime = true) : FailsCanonically s.params.prime (memWrite s m a v) := by
  unfold memWrite
  split
  · split
    · next c hc =>
      split
      · exact .ok _
      · exact FailsCanonically.fail.2 (inconsistent_canonical (Memory.peek_canonical hm hc) hv)
    · split
      · exact .bind (validate_fails hP (Memory.set_canonical hm hv) hv) fun _ _ => .ok _
      · split
        · exact .refuse _
        · next r hr =>
          refine .bind (ecDeduce_fails hP hm hr) fun p hp => ?_
          have hc := ecDeduce_canonical hP hm (hp ▸ hr)
          simp only [Point.canonical, Bool.and_eq_true, Felt.canonical_iff] at hc
          split
          · exact .ok _
          · refine FailsCanonically.fail.2 (inconsistent_canonical ?_ hv)
            unfold ecCoordinate
            split
            · exact MaybeRel.canonical_felt hc.1
            · exact MaybeRel.canonical_felt hc.2
  · exact .refuse _

/-! ### The body of an instruction -/

theorem computeOp1Address_fails {src : Op1Src} {off : BitVec 16} {op0 : Option MaybeRel}
    (h : ∀ v, op0 = some v → v.canonical P = true) : FailsCanonically P (computeOp1Address s src off op0) := by
  unfold computeOp1Address
  split
  · exact addInt_fails
  · exact addInt_fails
  · split
    · exact addInt_fails
    · simp [Failure.canonical, Failure.reduce]
  · split
    · simp [Failure.canonical, Failure.reduce]
    · exact addInt_fails
    · simp [Failure.canonical, Failure.reduce, MaybeRel.reduce_self (h _ rfl)]

theorem infer_fails {i : Instruction} {op0A op1A : Rel} {dst op0 op1 : Option MaybeRel}
    (hd : ∀ x, dst = some x → x.canonical s.params.prime = true)
    (h0 : ∀ x, op0 = some x → x.canonical s.params.prime = true)
    (h1 : ∀ x, op1 = some x → x.canonical s.params.prime = true) :
    FailsCanonically s.params.prime (infer i s op0A op1A dst op0 op1) := by
  unfold infer
  split
  · exact .ok _
  · split
    · refine .bind ?_ fun _ _ => .ok _
      unfold inferDst
      split
      · exact .ok _
      · exact mrAdd_fails (h0 _ rfl) (h1 _ rfl)
      · exact mrMul_fails (h0 _ rfl) (h1 _ rfl)
      · exact undefinedHere_fails
    · exact undefinedHere_fails
  · split
    · refine .bind ?_ fun _ _ => .ok _
      unfold inferOp1
      split
      · exact .ok _
      · exact mrSub_fails (hd _ rfl) (h0 _ rfl)
      · exact mrDiv_fails (hd _ rfl) (h0 _ rfl)
      · exact undefinedHere_fails
    · exact undefinedHere_fails
  · split
    · refine .bind ?_ fun _ _ => .ok _
      unfold inferOp0
      split
      · exact undefinedHere_fails
      · exact mrSub_fails (hd _ rfl) (h1 _ rfl)
      · exact mrDiv_fails (hd _ rfl) (h1 _ rfl)
      · exact undefinedHere_fails
    · exact undefinedHere_fails
  · exact undefinedHere_fails
  · exact undefinedHere_fails
  · exact undefinedHere_fails

theorem fetchOp0_fails {i : Instruction} (hP : 0 < s.params.prime) (hm : s.mem.canonical s.params.prime) :
    FailsCanonically s.params.prime (fetchOp0 i s a) := by
  refine .bind (resolve_fails hP hm) fun x _ => ?_
  split
  · exact .ok _
  · split
    · exact .bind addInt_fails fun _ _ => .ok _
    · exact .ok _

/-- What op0 is, read or taken from the pc by a Call, is canonical. -/
theorem fetchOp0_canonical {i : Instruction} {x : Option MaybeRel × Memory} (hP : 0 < s.params.prime)
    (hm : s.mem.canonical s.params.prime) (h : fetchOp0 i s a = .ok x) :
    x.2.canonical s.params.prime ∧ ∀ v, x.1 = some v → v.canonical s.params.prime = true := by
  obtain ⟨x, m0⟩ := x
  obtain ⟨y, hy, hx⟩ := fetchOp0_ok h
  obtain ⟨c0, k0⟩ := resolve_canonical hP hm hy
  refine ⟨c0, ?_⟩
  rintro v ⟨rfl⟩
  rcases hx with ⟨w, rfl, hw⟩ | ⟨-, -, t, -, hw⟩ | ⟨-, -, hw⟩
  · cases hw; exact k0 _ rfl
  · cases hw; rfl
  · cases hw

theorem callDst_canonical {i : Instruction} {d : Option MaybeRel} (h : ∀ v, d = some v → v.canonical P = true) :
    ∀ v, callDst i s d = some v → v.canonical P = true := by
  intro v hv
  unfold callDst at hv
  split at hv
  · cases hv; exact h _ rfl
  · split at hv
    · cases hv; rfl
    · cases hv

theorem readOperands_fails {i : Instruction} (hP : 0 < s.params.prime) (hm : s.mem.canonical s.params.prime) :
    FailsCanonically s.params.prime (readOperands i s) := by
  refine .bind addInt_fails fun dstA _ => .bind addInt_fails fun op0A _ => .bind (fetchOp0_fails hP hm)
    fun r0 h0 => ?_
  obtain ⟨c0, k0⟩ := fetchOp0_canonical hP hm h0
  refine .bind (computeOp1Address_fails k0) fun op1A _ => .bind (resolve_fails hP c0) fun rd hd => ?_
  obtain ⟨cd, kd⟩ := resolve_canonical hP c0 hd
  refine .bind (resolve_fails hP cd) fun r1 h1 => ?_
  obtain ⟨-, k1⟩ := resolve_canonical hP cd h1
  exact .bind (infer_fails (callDst_canonical kd) k0 k1) fun _ _ => .ok _

theorem computeRes_fails {i : Instruction} {o : Operands} (ho : o.Canonical s.params.prime) :
    FailsCanonically s.params.prime (computeRes i s o) := by
  unfold computeRes
  split
  · exact .ok _
  · exact .bind (mrAdd_fails ho.op0 ho.op1) fun _ _ => .ok _
  · exact .bind (mrMul_fails ho.op0 ho.op1) fun _ _ => .ok _
  · exact .ok _

theorem opcodeEffect_fails {i : Instruction} {o : Operands} {res : Option MaybeRel} (hP : 0 < s.params.prime)
    (ho : o.Canonical s.params.prime) (hr : ∀ v, res = some v → v.canonical s.params.prime = true) :
    FailsCanonically s.params.prime (opcodeEffect i s o res) := by
  refine .bind ?_ fun m0 h0 => ?_
  · unfold writeInferred
    split
    · exact .ok _
    · next b v hv => exact memWrite_fails hP ho.mem (ho.inferred _ _ hv)
  · have c0 : m0.canonical s.params.prime := by
      unfold writeInferred at h0
      split at h0
      · cases h0; exact ho.mem
      · next b v hv => exact memWrite_canonical ho.mem (ho.inferred _ _ hv) h0
    split
    · unfold assertEqWrite
      split
      · exact undefinedHere_fails
      · exact memWrite_fails hP c0 (hr _ rfl)
    · exact .bind (memWrite_fails hP c0 rfl) fun m1 h1 => .bind addInt_fails fun t _ =>
        memWrite_fails hP (memWrite_canonical c0 rfl h1) rfl
    · exact .ok _
    · exact .ok _

theorem relPlus_fails {r : Rel} {v : MaybeRel} (hv : v.canonical s.params.prime = true) :
    FailsCanonically s.params.prime (relPlus s r v) := by
  unfold relPlus
  split
  · exact addFelt_fails (MaybeRel.felt_lt hv)
  · exact FailsCanonically.fail.2 (forbidden_canonical rfl rfl)

theorem pcNext_fails {i : Instruction} {o : Operands} {res : Option MaybeRel} (ho : o.Canonical s.params.prime)
    (hr : ∀ v, res = some v → v.canonical s.params.prime = true) :
    FailsCanonically s.params.prime (pcNext i s o res) := by
  unfold pcNext
  split
  · exact addInt_fails
  · split
    · exact undefinedHere_fails
    · exact .refuse _
    · split
      · exact .ok _
      · exact .refuse _
  · split
    · exact undefinedHere_fails
    · exact relPlus_fails (hr _ rfl)
  · split
    · exact relPlus_fails ho.op1
    · exact addInt_fails

theorem apNext_fails {i : Instruction} {res : Option MaybeRel}
    (hr : ∀ v, res = some v → v.canonical s.params.prime = true) :
    FailsCanonically s.params.prime (apNext i s res) := by
  unfold apNext
  split
  · exact .ok _
  · exact addInt_fails
  · exact addInt_fails
  · split
    · exact undefinedHere_fails
    · exact relPlus_fails (hr _ rfl)

theorem fpNext_fails {i : Instruction} {o : Operands} : FailsCanonically P (fpNext i s o) := by
  unfold fpNext
  split
  · exact .ok _
  · split
    · exact addInt_fails
    · exact .refuse _
  · split
    · exact .refuse _
    · split
      · exact .ok _
      · exact .refuse _

/-- The failure of an instruction's body carries canonical Felts only. -/
theorem vmBody_fails {i : Instruction} (hP : 0 < s.params.prime) (hm : s.mem.canonical s.params.prime) :
    FailsCanonically s.params.prime (vmBody i s) := by
  refine .bind (readOperands_fails hP hm) fun o h1 => ?_
  have ho := readOperands_canonical hP hm h1
  refine .bind (computeRes_fails ho) fun res h2 => ?_
  have hr : ∀ v, res = some v → v.canonical s.params.prime = true :=
    fun v hv => computeRes_canonical hP ho (hv ▸ h2)
  exact .bind (opcodeEffect_fails hP ho hr) fun _ _ => .bind (pcNext_fails ho hr) fun _ _ =>
    .bind (apNext_fails hr) fun _ _ => .bind fpNext_fails fun _ _ => .ok _

/-! ### Hints, fetch and decode -/

theorem runActions_fails {acts : List HintAction} (hP : 0 < s.params.prime) (hm : m.canonical s.params.prime) :
    FailsCanonically s.params.prime (runActions s acts m) := by
  induction acts generalizing m with
  | nil => exact .ok _
  | cons x rest ih =>
    cases x with
    | write a v =>
      have hv := MaybeRel.reduce_canonical hP v
      cases a with
      | rel r => exact .bind (memWrite_fails hP hm hv) fun m1 h1 => ih (memWrite_canonical hm hv h1)
      | felt u => exact .bind (.refuse _) fun m1 h1 => by cases h1
    | alloc =>
      refine .bind ?_ fun x h => ?_
      · unfold Memory.allocate
        split
        · exact .ok _
        · exact .refuse _
      · obtain ⟨-, rfl⟩ := Memory.allocate_ok h
        exact ih (m := ⟨m.count + 1, m.cells⟩) hm
    | raise f => exact FailsCanonically.fail.2 f.reduce_canonical
    | halt => exact .ok _

/-- What a hint step fails with carries canonical Felts only, a raise included. -/
theorem hintStep_fails (hP : 0 < s.params.prime) (hm : s.mem.canonical s.params.prime) :
    FailsCanonically s.params.prime (hintStep s) := by
  have key : ∀ (hs : List Hint) (n : Nat) (m : Memory), m.canonical s.params.prime →
      FailsCanonically s.params.prime (runHints s hs n m) := by
    intro hs
    induction hs with
    | nil => intro n m hm; exact .ok _
    | cons x rest ih =>
      intro n m hm
      refine .bind (runActions_fails hP hm) fun d h1 => ?_
      split
      · exact .ok _
      · exact ih _ _ (runActions_canonical hP hm h1)
  exact key _ _ _ hm

/-- A decode failure carries the word and no Felt. -/
theorem iduDecode_fails {n w : Nat} : FailsCanonically P (iduDecode par n w) := by
  have hb : (Failure.reservedBitSet w).canonical P = true := by simp [Failure.canonical, Failure.reduce]
  have he : ∀ f ∈ decodeErrors par w, f.canonical P = true := by
    intro f hf
    simp only [decodeErrors, List.mem_append, List.mem_ite_nil_right, List.mem_singleton] at hf
    rcases hf with (((⟨-, rfl⟩ | ⟨-, rfl⟩) | ⟨-, rfl⟩) | ⟨-, rfl⟩) | ⟨-, rfl⟩ <;>
      simp [Failure.canonical, Failure.reduce]
  have hk : ∀ kinds, decodeRecord par w = .bad kinds → ∀ f ∈ kinds, f.canonical P = true := by
    intro kinds h
    unfold decodeRecord at h
    split at h
    · cases h; simpa using hb
    · split at h
      · cases h
      · cases h; exact he
  unfold iduDecode
  split
  · exact .ok _
  · next kinds h =>
    refine FailsCanonically.fail.2 ?_
    have hk' := hk kinds h
    unfold drawFailure
    split
    · exact hb
    · exact hk' _ (by simp)
    · next f fs _ =>
      refine hk' _ ?_
      rw [List.getD_eq_getElem _ _ (by simpa using Nat.mod_lt _ (Nat.succ_pos fs.length))]
      exact List.getElem_mem _

theorem fetchDecode_fails : FailsCanonically P (fetchDecode s) := by
  refine .bind (.bind ?_ fun c _ => ?_) fun w _ => .bind iduDecode_fails fun _ _ => .ok _
  · unfold Memory.read
    split
    · exact .ok _
    · simp [Failure.canonical, Failure.reduce]
  · split
    · exact .ok _
    · exact .refuse _

/-! ### What an instruction leaves in STATUS and on the port -/

/-- An instruction of the 64-bit format leaves a canonical STATUS (R11, R36). -/
theorem execRecord_status {i : Instruction} {t : State} (hP : 0 < s.params.prime)
    (hm : s.mem.canonical s.params.prime) (hs : s.status.canonical s.params.prime = true)
    (h : stepOutcome s (vmBody i s) = .next t) : t.status.canonical s.params.prime = true := by
  rcases stepOutcome_next s (vmBody i s) with ⟨u, hu, e⟩ | ⟨f, hf, e⟩ | ⟨r, -, e⟩
  · rw [e] at h
    cases h
    obtain ⟨o, res, m, npc, nap, nfp, -, -, -, -, -, -, rfl⟩ := vmBody_ok hu
    exact hs
  · rw [e] at h
    cases h
    exact vmBody_fails hP hm f hf
  · rw [e] at h
    cases h
    rfl

/-- The answer of a unit's operation, its value or its failure, is canonical. -/
def AnswersCanonically (P : Nat) (r : Res UnitValue) : Prop :=
  FailsCanonically P r ∧ ∀ v, r = .ok v → v.canonical P = true

theorem AnswersCanonically.ok {v : UnitValue} (h : v.canonical P = true) : AnswersCanonically P (.ok v) :=
  ⟨.ok _, by rintro w ⟨rfl⟩; exact h⟩

theorem AnswersCanonically.bind {x : Res α} {k : α → Res UnitValue} (hx : FailsCanonically P x)
    (hk : ∀ v, x = .ok v → AnswersCanonically P (k v)) : AnswersCanonically P (x.bind k) := by
  refine ⟨.bind hx fun v hv => (hk v hv).1, fun w hw => ?_⟩
  obtain ⟨v, hv, hw⟩ := Res.bind_eq_ok.1 hw
  exact (hk v hv).2 w hw

/-- What a unit command puts on the port, from the answer of its operation. -/
theorem unitOutcome_answer {u t : State} {r : Res UnitValue} (h : unitOutcome u r = .next t)
    (hr : AnswersCanonically P r) : ∀ o, t.unitOut = some o → o.canonical P = true := by
  rcases unitOutcome_next u r with ⟨v, e1, e⟩ | ⟨f, e1, e⟩ | ⟨q, -, e⟩ <;> rw [e] at h <;> cases h <;>
    rintro o ⟨rfl⟩
  · exact hr.2 v e1
  · exact hr.1 f e1
  · rfl

theorem operand_canonical (hP : 0 < s.params.prime) (v : MaybeRel) :
    (s.operand v).canonical s.params.prime = true := MaybeRel.reduce_canonical hP v

theorem fau1_answer {x : MaybeRel} {f : Felt → Res UnitValue} (hP : 0 < s.params.prime)
    (hf : ∀ a, a.val < s.params.prime → AnswersCanonically s.params.prime (f a)) :
    AnswersCanonically s.params.prime (fau1 s x f) :=
  .bind feltPort_fails fun a ha => hf a (feltPort_canonical (operand_canonical hP x) ha)

theorem fau2_answer {x y : MaybeRel} {f : Felt → Felt → Res UnitValue} (hP : 0 < s.params.prime)
    (hf : ∀ a b, a.val < s.params.prime → b.val < s.params.prime → AnswersCanonically s.params.prime (f a b)) :
    AnswersCanonically s.params.prime (fau2 s x y f) :=
  .bind feltPort_fails fun a ha => .bind feltPort_fails fun b hb =>
    hf a b (feltPort_canonical (operand_canonical hP x) ha) (feltPort_canonical (operand_canonical hP y) hb)

theorem UnitValue.felt_canonical {v : Felt} (h : v.val < P) : (UnitValue.felt v).canonical P = true := by
  simpa [UnitValue.canonical] using h

theorem inv_fails {x : Felt} (hx : x.val < P) : FailsCanonically P (Fau.inv P x) := by
  unfold Fau.inv
  split
  · simp [Failure.canonical, Failure.reduce, Felt.reduce_self hx]
  · exact .ok _

theorem conversion_canonical {x : Felt} {k : Nat} (hx : x.val < P) :
    (Failure.overflow (.conversion x k)).canonical P = true := by
  simp [Failure.canonical, Failure.reduce, OverflowInfo.reduce, Felt.reduce_self hx]

theorem toUint_fails {x : Felt} {k : Nat} (hx : x.val < P) : FailsCanonically P (Fau.toUint x k) := by
  unfold Fau.toUint
  split
  · exact .ok _
  · exact FailsCanonically.fail.2 (conversion_canonical hx)

theorem toInt_fails {x : Felt} {k : Nat} (hx : x.val < P) : FailsCanonically P (Fau.toInt P x k) := by
  unfold Fau.toInt
  split
  · exact .ok _
  · split
    · exact .ok _
    · exact FailsCanonically.fail.2 (conversion_canonical hx)

theorem iduEncode_fails {i : Instruction} : FailsCanonically P (iduEncode par i) := by
  unfold iduEncode
  split
  · exact .ok _
  · exact .refuse _

/-- What a unit command puts on the port is canonical (R11, R149). -/
theorem exec_answer {i : Instr} {t : State} (hP : 0 < s.params.prime) (hi : i.record = none)
    (h : exec i s = .next t) : ∀ o, t.unitOut = some o → o.canonical s.params.prime = true := by
  have hc := operand_canonical hP
  cases i with
  | decode w => exact unitOutcome_answer h (.bind iduDecode_fails fun _ _ => .ok rfl)
  | encode r => exact unitOutcome_answer h (.bind iduEncode_fails fun _ _ => .ok rfl)
  | add a b =>
    exact unitOutcome_answer h (fau2_answer hP fun _ _ _ _ => .ok (UnitValue.felt_canonical (Fau.add_lt hP)))
  | sub a b =>
    exact unitOutcome_answer h (fau2_answer hP fun _ _ _ _ => .ok (UnitValue.felt_canonical (Fau.sub_lt hP)))
  | mul a b =>
    exact unitOutcome_answer h (fau2_answer hP fun _ _ _ _ => .ok (UnitValue.felt_canonical (Fau.mul_lt hP)))
  | neg a =>
    exact unitOutcome_answer h (fau1_answer hP fun _ _ => .ok (UnitValue.felt_canonical (Fau.neg_lt hP)))
  | inv a =>
    exact unitOutcome_answer h (fau1_answer hP fun _ hx => .bind (inv_fails hx) fun _ hv =>
      .ok (UnitValue.felt_canonical (Fau.inv_lt hP hv)))
  | div a b =>
    exact unitOutcome_answer h (fau2_answer hP fun _ _ hx hy => .bind (div_fails hx hy) fun _ hv =>
      .ok (UnitValue.felt_canonical (Fau.div_lt hP hv)))
  | eq a b => exact unitOutcome_answer h (fau2_answer hP fun _ _ _ _ => .ok rfl)
  | lt a b => exact unitOutcome_answer h (fau2_answer hP fun _ _ _ _ => .ok rfl)
  | reduce n =>
    exact unitOutcome_answer (u := s) (r := .ok _) h (.ok (UnitValue.felt_canonical (Felt.ofInt_lt hP n)))
  | toUint a k =>
    exact unitOutcome_answer h (fau1_answer hP fun _ hx => .bind (toUint_fails hx) fun _ _ => .ok rfl)
  | toInt a k =>
    exact unitOutcome_answer h (fau1_answer hP fun _ hx => .bind (toInt_fails hx) fun _ _ => .ok rfl)
  | rcCheck v => exact unitOutcome_answer h (.bind (rcCheck_fails (hc v)) fun _ _ => .ok rfl)
  | sigVerify off pk msg =>
    exact unitOutcome_answer h (.bind (sigVerify_fails hP (hc pk) (hc msg)) fun _ _ => .ok rfl)
  | sigSet off r q =>
    change execSigSet off r q s = .next t at h
    unfold execSigSet at h
    split at h
    · exact unitOutcome_answer h ⟨.refuse _, fun v e => by cases e⟩
    · split at h
      · exact unitOutcome_answer h ⟨.refuse _, fun v e => by cases e⟩
      · exact unitOutcome_answer h (.ok rfl)
  | ecOp px py qx qy m =>
    exact unitOutcome_answer h (.bind (ecOp_fails hP (hc px) (hc py) (hc qx) (hc qy) (hc m)) fun _ hp =>
      .ok (ecOp_canonical hP (hc px) (hc py) hp))
  | _ => cases hi

end Sys2Proof.Machine
end

