-- ==== Sys2Proof/Laws/Group.lean ====
section
/-! SUPPORT. The group law on the points of the curve (R177): `groupAdd`, `groupMul` and `groupSum` compute the sum
and the k-fold sum in the group of the curve's nonsingular points, over GF(P) for an odd prime P; and a
ladder of EC_OP that goes through answers P + m·Q (R202). -/

namespace Sys2Proof.Machine

variable {par : Params} {p q r : Point} {g h : GroupPoint}

/-! ### The chord and the tangent -/

/-- A divisor that is not zero in GF(P) divides. -/
theorem div_cast {P : Nat} {a b : Felt} (hP : Nat.Prime P) (hb : (b.val : ZMod P) ≠ 0) :
    ∃ l, Fau.div P a b = .ok l ∧ (l.val : ZMod P) * b.val = a.val := by
  have h0 : b.val ≠ 0 := fun h => hb (by simp [h])
  refine ⟨_, if_neg h0, ?_⟩
  rw [Fau.cast_mul, mul_assoc, mul_comm _ (b.val : ZMod P), Fau.cast_invValue hP hb, mul_one]

theorem cast_ne {P : Nat} {a b : Felt} (ha : a.val < P) (hb : b.val < P) (h : a ≠ b) :
    (a.val : ZMod P) ≠ b.val := fun e => h (Felt.eq_of_cast ha hb e)

theorem Point.canonical_iff {P : Nat} : p.canonical P = true ↔ p.x.val < P ∧ p.y.val < P := by
  simp [Point.canonical]

/-- Twice a residue of an odd prime that is not 0 is not 0. -/
theorem two_mul_ne {P : Nat} {a : Felt} (hP : Nat.Prime P) (h2 : P ≠ 2) (ha : a.val < P) (h : a.val ≠ 0) :
    (2 : ZMod P) * a.val ≠ 0 := by
  have : Fact P.Prime := ⟨hP⟩
  refine mul_ne_zero (fun e => ?_) fun e => ?_
  · have : ((2 : ℕ) : ZMod P) = 0 := by exact_mod_cast e
    rw [ZMod.natCast_eq_zero_iff] at this
    exact h2 ((Nat.prime_dvd_prime_iff_eq hP Nat.prime_two).1 this)
  · rw [ZMod.natCast_eq_zero_iff] at e
    exact h (Nat.eq_zero_of_dvd_of_lt e ha)

/-- The sum of two points with different x, in GF(P) (R175). -/
theorem ecAddDistinct_cast (hP : Nat.Prime par.prime) (hp : p.canonical par.prime = true)
    (hq : q.canonical par.prime = true) (hx : p.x ≠ q.x) :
    ∃ r l, ecAddDistinct par p q = .ok r ∧ r.canonical par.prime = true ∧
      (l : ZMod par.prime) * (q.x.val - p.x.val) = q.y.val - p.y.val ∧
      (r.x.val : ZMod par.prime) = l * l - p.x.val - q.x.val ∧
      (r.y.val : ZMod par.prime) = l * (p.x.val - r.x.val) - p.y.val := by
  have hP0 := hP.pos
  rw [Point.canonical_iff] at hp hq
  have hne : ((Fau.sub par.prime q.x p.x).val : ZMod par.prime) ≠ 0 := by
    rw [Fau.cast_sub hP0]
    exact sub_ne_zero.2 (cast_ne hp.1 hq.1 hx).symm
  obtain ⟨l, hl, he⟩ := div_cast (a := Fau.sub par.prime q.y p.y) hP hne
  rw [Fau.cast_sub hP0, Fau.cast_sub hP0] at he
  exact ⟨_, l.val, by simp [ecAddDistinct, hl]; rfl, by simp [Point.canonical, Fau.sub_lt hP0], he,
    by simp [Fau.cast_sub hP0], by simp [Fau.cast_sub hP0]⟩

/-- The double of a point with y ≠ 0, in GF(P) (R176). -/
theorem ecDouble_cast (hP : Nat.Prime par.prime) (h2 : par.prime ≠ 2) (hp : p.canonical par.prime = true)
    (hy : p.y.val ≠ 0) :
    ∃ r l, ecDouble par p = .ok r ∧ r.canonical par.prime = true ∧
      (l : ZMod par.prime) * (2 * p.y.val) = 3 * (p.x.val * p.x.val) + par.curve.alpha ∧
      (r.x.val : ZMod par.prime) = l * l - 2 * p.x.val ∧
      (r.y.val : ZMod par.prime) = l * (p.x.val - r.x.val) - p.y.val := by
  have hP0 := hP.pos
  rw [Point.canonical_iff] at hp
  have hne : ((tangentRun par p).val : ZMod par.prime) ≠ 0 := by
    simpa [tangentRun] using two_mul_ne hP h2 hp.2 hy
  obtain ⟨l, hl, he⟩ := div_cast (a := tangentRise par p) hP hne
  exact ⟨_, l.val, by simp [ecDouble, hl]; rfl, by simp [Point.canonical, Fau.sub_lt hP0],
    by simpa [tangentRise, tangentRun, curveAlpha] using he, by simp [Fau.cast_sub hP0],
    by simp [Fau.cast_sub hP0]⟩

/-- A point of the curve, in GF(P) (R173). -/
theorem onCurve_cast (hP : 0 < par.prime) :
    onCurve par p = true ↔ (p.y.val : ZMod par.prime) ^ 2 =
      (p.x.val : ZMod par.prime) ^ 3 + par.curve.alpha * p.x.val + par.curve.beta := by
  rw [onCurve, decide_eq_true_eq]
  constructor
  · intro h
    have := congrArg (fun a => ((Felt.val a : Nat) : ZMod par.prime)) h
    simp [ySquared, curveAlpha, curveBeta] at this
    linear_combination this
  · intro h
    refine Felt.eq_of_cast (Fau.mul_lt hP) (Fau.add_lt hP) ?_
    simp [ySquared, curveAlpha, curveBeta]
    linear_combination h

/-! ### The group of the curve -/

/-- The curve of R171 over the ring of residues. -/
abbrev groupCurve (par : Params) : WeierstrassCurve.Affine (ZMod par.prime) where
  a₁ := 0
  a₂ := 0
  a₃ := 0
  a₄ := (par.curve.alpha : ZMod par.prime)
  a₆ := (par.curve.beta : ZMod par.prime)

/-- A point of the model names an element of the group of nonsingular points. -/
def Denotes (par : Params) : GroupPoint → (groupCurve par).Point → Prop
  | none, X => X = .zero
  | some p, X => p.canonical par.prime = true ∧ ∃ h, X = .some (p.x.val : ZMod par.prime) p.y.val h

/-- Two names of one element are one. -/
theorem Denotes.unique {X : (groupCurve par).Point} (hg : Denotes par g X) (hh : Denotes par h X) : g = h := by
  rcases g with _ | p <;> rcases h with _ | q
  · rfl
  · obtain ⟨-, k, e⟩ := hh; cases hg.symm.trans e
  · obtain ⟨-, k, e⟩ := hg; cases hh.symm.trans e
  · obtain ⟨cp, k, e⟩ := hg
    obtain ⟨cq, k', e'⟩ := hh
    rw [Point.canonical_iff] at cp cq
    rw [e] at e'
    injection e' with ex ey
    cases p; cases q
    exact congrArg some ((Point.mk.injEq _ _ _ _).mpr
      ⟨Felt.eq_of_cast cp.1 cq.1 ex, Felt.eq_of_cast cp.2 cq.2 ey⟩)

theorem denotes_some {x y : ZMod par.prime} (hr : r.canonical par.prime = true)
    (hn : (groupCurve par).Nonsingular x y) (hx : (r.x.val : ZMod par.prime) = x)
    (hy : (r.y.val : ZMod par.prime) = y) : Denotes par (some r) (.some x y hn) := by
  subst hx; subst hy; exact ⟨hr, hn, rfl⟩

/-- The singular point of the curve, if it has one: y = 0 and no slope (R176). -/
def Singular (par : Params) (p : Point) : Prop :=
  p.y.val = 0 ∧ 3 * (p.x.val : ZMod par.prime) ^ 2 + par.curve.alpha = 0

/-- A point of the curve names an element, but for a singular one. -/
theorem denotes_or_singular (hP : Nat.Prime par.prime) (h2 : par.prime ≠ 2) (hp : p.canonical par.prime = true)
    (hc : onCurve par p = true) : (∃ X, Denotes par (some p) X) ∨ Singular par p := by
  by_cases hs : Singular par p
  · exact .inr hs
  have hn : (groupCurve par).Nonsingular (p.x.val : ZMod par.prime) p.y.val := by
    rw [WeierstrassCurve.Affine.nonsingular_iff', WeierstrassCurve.Affine.equation_iff]
    refine ⟨by simpa using (onCurve_cast hP.pos).1 hc, ?_⟩
    by_cases hy : p.y.val = 0
    · refine .inl fun e => hs ⟨hy, ?_⟩
      simp only [zero_mul, mul_zero, zero_sub, add_zero, neg_eq_zero] at e
      exact e
    · exact .inr (by simpa using two_mul_ne hP h2 (Point.canonical_iff.1 hp).2 hy)
  exact .inl ⟨_, hp, hn, rfl⟩

/-- A point of the curve with y ≠ 0 names an element. -/
theorem denotes_of_onCurve (hP : Nat.Prime par.prime) (h2 : par.prime ≠ 2) (hp : p.canonical par.prime = true)
    (hc : onCurve par p = true) (hy : p.y.val ≠ 0) : ∃ X, Denotes par (some p) X :=
  (denotes_or_singular hP h2 hp hc).resolve_right fun hs => hy hs.1

/-- The group law adds in the group (R177). -/
theorem groupAdd_denotes (hP : Nat.Prime par.prime) (h2 : par.prime ≠ 2) {X Y : (groupCurve par).Point}
    (hg : Denotes par g X) (hh : Denotes par h Y) :
    haveI : Fact par.prime.Prime := ⟨hP⟩
    ∃ r, groupAdd par g h = .ok r ∧ Denotes par r (X + Y) := by
  have : Fact par.prime.Prime := ⟨hP⟩
  have hP0 := hP.pos
  rcases g with _ | p
  · have hX : X = 0 := hg
    exact ⟨h, rfl, by rw [hX, zero_add]; exact hh⟩
  rcases h with _ | q
  · have hY : Y = 0 := hh
    exact ⟨some p, rfl, by rw [hY, add_zero]; exact hg⟩
  obtain ⟨cp, np, rfl⟩ := hg
  obtain ⟨cq, nq, rfl⟩ := hh
  have cp' := Point.canonical_iff.1 cp
  have cq' := Point.canonical_iff.1 cq
  have hneg : ∀ a b : Felt, b.val < par.prime → (b = Fau.neg par.prime a ↔
      (a.val : ZMod par.prime) = (groupCurve par).negY (q.x.val : ZMod par.prime) b.val) := by
    intro a b hb
    simp only [WeierstrassCurve.Affine.negY, zero_mul, sub_zero]
    constructor
    · rintro rfl; simp [Fau.cast_neg hP0]
    · intro e
      exact Felt.eq_of_cast hb (Fau.neg_lt hP0) (by rw [Fau.cast_neg hP0, e, neg_neg])
  by_cases hx : p.x = q.x
  · have hx' : (p.x.val : ZMod par.prime) = q.x.val := by rw [hx]
    by_cases hy : q.y = Fau.neg par.prime p.y
    · refine ⟨none, by simp [groupAdd, hx, hy], ?_⟩
      exact WeierstrassCurve.Affine.Point.add_of_Y_eq hx' ((hneg _ _ cq'.2).1 hy)
    · have hy' := fun e => hy ((hneg _ _ cq'.2).2 e)
      have hyy := Felt.eq_of_cast cp'.2 cq'.2 (WeierstrassCurve.Affine.Y_eq_of_Y_ne np.1 nq.1 hx' hy')
      obtain rfl : p = q := by cases p; cases q; simp_all
      have hy0 : p.y.val ≠ 0 := by
        intro e
        refine hy (Felt.eq_of_cast cp'.2 (Fau.neg_lt hP0) ?_)
        rw [Fau.cast_neg hP0, e]; simp
      obtain ⟨r, l, hr, cr, hl, ex, ey⟩ := ecDouble_cast hP h2 cp hy0
      refine ⟨some r, by simp [groupAdd, hy, hr], ?_⟩
      have hs : (groupCurve par).slope (p.x.val : ZMod par.prime) p.x.val p.y.val p.y.val = l := by
        rw [WeierstrassCurve.Affine.slope_of_Y_ne rfl hy', div_eq_iff (sub_ne_zero.2 hy')]
        simp only [WeierstrassCurve.Affine.negY]
        linear_combination -hl
      rw [WeierstrassCurve.Affine.Point.add_some fun e => hy' e.2]
      refine denotes_some cr _ ?_ ?_
      · rw [hs, ex]; simp only [WeierstrassCurve.Affine.addX]; ring
      · rw [hs, ey, ex]
        simp only [WeierstrassCurve.Affine.addY, WeierstrassCurve.Affine.negY, WeierstrassCurve.Affine.negAddY,
          WeierstrassCurve.Affine.addX]
        ring
  · have hx' := cast_ne cp'.1 cq'.1 hx
    obtain ⟨r, l, hr, cr, hl, ex, ey⟩ := ecAddDistinct_cast hP cp cq hx
    refine ⟨some r, by simp [groupAdd, hx, hr], ?_⟩
    have hs : (groupCurve par).slope (p.x.val : ZMod par.prime) q.x.val p.y.val q.y.val = l := by
      rw [WeierstrassCurve.Affine.slope_of_X_ne hx', div_eq_iff (sub_ne_zero.2 hx')]
      linear_combination hl
    rw [WeierstrassCurve.Affine.Point.add_some fun e => hx' e.1]
    refine denotes_some cr _ ?_ ?_
    · rw [hs, ex]; simp only [WeierstrassCurve.Affine.addX]; ring
    · rw [hs, ey, ex]
      simp only [WeierstrassCurve.Affine.addY, WeierstrassCurve.Affine.negY, WeierstrassCurve.Affine.negAddY,
        WeierstrassCurve.Affine.addX]
      ring

/-- The sum by doubling and adding is the multiple in the group (R177). -/
theorem groupMul_denotes (hP : Nat.Prime par.prime) (h2 : par.prime ≠ 2) {X : (groupCurve par).Point}
    (hg : Denotes par g X) (k : Nat) :
    haveI : Fact par.prime.Prime := ⟨hP⟩
    ∃ r, groupMul par k g = .ok r ∧ Denotes par r (k • X) := by
  have : Fact par.prime.Prime := ⟨hP⟩
  have key : ∀ (fuel k : Nat) (g acc : GroupPoint) (X A : (groupCurve par).Point), k < 2 ^ fuel →
      Denotes par g X → Denotes par acc A →
      ∃ r, groupMulAdd par fuel k g acc = .ok r ∧ Denotes par r (A + k • X) := by
    intro fuel
    induction fuel with
    | zero =>
      intro k g acc X A hk hg ha
      obtain rfl : k = 0 := by omega
      exact ⟨acc, rfl, by simpa using ha⟩
    | succ fuel ih =>
      intro k g acc X A hk hg ha
      unfold groupMulAdd
      by_cases h0 : k = 0
      · subst h0
        exact ⟨acc, by simp, by simpa using ha⟩
      rw [if_neg h0]
      obtain ⟨d, hd, dd⟩ := groupAdd_denotes hP h2 hg hg
      rw [← two_nsmul] at dd
      have hk' : k / 2 < 2 ^ fuel := by rw [pow_succ] at hk; omega
      by_cases ho : k % 2 = 1
      · obtain ⟨a, e, da⟩ := groupAdd_denotes hP h2 ha hg
        obtain ⟨r, er, dr⟩ := ih _ _ _ _ _ hk' dd da
        refine ⟨r, by simp [ho, e, hd, er], ?_⟩
        rw [smul_smul, add_assoc, ← succ_nsmul', show k / 2 * 2 + 1 = k by omega] at dr
        exact dr
      · obtain ⟨r, er, dr⟩ := ih _ _ _ _ _ hk' dd ha
        refine ⟨r, by simp [ho, hd, er], ?_⟩
        rw [smul_smul, show k / 2 * 2 = k by omega] at dr
        exact dr
  obtain ⟨r, hr, dr⟩ := key (Nat.log2 k + 1) k g none X .zero Nat.lt_log2_self hg rfl
  exact ⟨r, hr, by rwa [← WeierstrassCurve.Affine.Point.zero_def, zero_add] at dr⟩

/-- So is the sum one at a time (R177). -/
theorem groupSum_denotes (hP : Nat.Prime par.prime) (h2 : par.prime ≠ 2) {X : (groupCurve par).Point}
    (hg : Denotes par g X) (k : Nat) :
    haveI : Fact par.prime.Prime := ⟨hP⟩
    ∃ r, groupSum par g k = .ok r ∧ Denotes par r (k • X) := by
  have : Fact par.prime.Prime := ⟨hP⟩
  induction k with
  | zero => exact ⟨none, rfl, zero_nsmul X⟩
  | succ k ih =>
    obtain ⟨r, hr, dr⟩ := ih
    obtain ⟨t, ht, dt⟩ := groupAdd_denotes hP h2 dr hg
    exact ⟨t, by simp [groupSum, hr, ht], by rwa [succ_nsmul]⟩

/-! ### Points with y = 0 -/

/-- A point that is its own negative: both sums give it at an odd k, and O at an even one (R177). -/
theorem groupMul_self_negative (hp : p.y = Fau.neg par.prime p.y) (k : Nat) :
    groupMul par k (some p) = .ok (if k % 2 = 1 then some p else none) := by
  have key : ∀ (fuel k : Nat) (acc : GroupPoint), groupMulAdd par fuel k none acc = .ok acc := by
    intro fuel
    induction fuel with
    | zero => intro k acc; rfl
    | succ fuel ih =>
      intro k acc
      have ha : groupAdd par acc none = .ok acc := by cases acc <;> rfl
      unfold groupMulAdd
      split
      · rfl
      · rw [ha, ite_self]
        simp [groupAdd, ih]
  unfold groupMul groupMulAdd
  by_cases h0 : k = 0
  · simp [h0]
  · rw [if_neg h0]
    split <;> simp [groupAdd, ← hp, key]

theorem groupSum_self_negative (hp : p.y = Fau.neg par.prime p.y) (k : Nat) :
    groupSum par (some p) k = .ok (if k % 2 = 1 then some p else none) := by
  induction k with
  | zero => rfl
  | succ k ih =>
    by_cases h : k % 2 = 1
    · simp [groupSum, ih, h, groupAdd, ← hp, show ¬ (k + 1) % 2 = 1 by omega]
    · simp [groupSum, ih, h, groupAdd, show (k + 1) % 2 = 1 by omega]

/-! ### The ladder (R202) -/

theorem groupAdd_of_ne (hx : p.x ≠ q.x) :
    groupAdd par (some p) (some q) = (ecAddDistinct par p q).bind fun t => .ok (some t) := by
  simp [groupAdd, hx]

/-- A point that doubles is not its own negative, for an odd prime P. -/
theorem groupAdd_self (hP : Nat.Prime par.prime) (h2 : par.prime ≠ 2) (hp : p.canonical par.prime = true)
    (hy : p.y.val ≠ 0) :
    groupAdd par (some p) (some p) = (ecDouble par p).bind fun t => .ok (some t) := by
  have hn : p.y ≠ Fau.neg par.prime p.y := by
    intro e
    have h := congrArg (fun a => ((Felt.val a : Nat) : ZMod par.prime)) e
    simp only [Fau.cast_neg hP.pos] at h
    exact two_mul_ne hP h2 (Point.canonical_iff.1 hp).2 hy (by linear_combination h)
  simp [groupAdd, hn]

/-- Iterations of the ladder from points of the group keep the sum. -/
theorem ladderSteps_denotes (hP : Nat.Prime par.prime) (h2 : par.prime ≠ 2) {n : Nat} {u v : Point × Point × Nat}
    (hl : LadderSteps par n u v) {A D : (groupCurve par).Point} (ha : Denotes par (some u.1) A)
    (hd : Denotes par (some u.2.1) D) :
    haveI : Fact par.prime.Prime := ⟨hP⟩
    ∃ R E, Denotes par (some v.1) R ∧ Denotes par (some v.2.1) E ∧ R + v.2.2 • E = A + u.2.2 • D := by
  have : Fact par.prime.Prime := ⟨hP⟩
  induction hl generalizing A D with
  | zero x => exact ⟨A, D, ha, hd, rfl⟩
  | next hs hr ih =>
    have double : ∀ {d d' : Point}, Denotes par (some d) D → ecDouble par d = .ok d' →
        Denotes par (some d') (D + D) := by
      intro d d' hd he
      obtain ⟨t, ht, dt⟩ := groupAdd_denotes hP h2 hd hd
      rw [groupAdd_self hP h2 hd.1 (ecDouble_y he), he] at ht
      cases ht
      exact dt
    cases hs with
    | zero hx hk he =>
      obtain ⟨R, E, hR, hE, e⟩ := ih ha (double hd he)
      refine ⟨R, E, hR, hE, ?_⟩
      simp only at e ⊢
      rw [e, ← two_nsmul, smul_smul, Nat.div_mul_cancel (Nat.dvd_of_mod_eq_zero hk)]
    | @one acc acc' dbl dbl' k hx hk hadd he =>
      obtain ⟨t, ht, dt⟩ := groupAdd_denotes hP h2 ha hd
      rw [groupAdd_of_ne (Ne.symm hx), hadd] at ht
      cases ht
      obtain ⟨R, E, hR, hE, e⟩ := ih dt (double hd he)
      refine ⟨R, E, hR, hE, ?_⟩
      simp only at e ⊢
      rw [e, ← two_nsmul, smul_smul, add_assoc, ← succ_nsmul', show k / 2 * 2 + 1 = k by omega]

/-- A point of the group is on the curve. -/
theorem Denotes.onCurve {X : (groupCurve par).Point} (hP : 0 < par.prime) (h : Denotes par (some p) X) :
    onCurve par p = true := by
  obtain ⟨-, hn, -⟩ := h
  refine (onCurve_cast hP).2 ?_
  have e := (WeierstrassCurve.Affine.equation_iff ..).1 hn.1
  simpa using e

/-- The chord through the singular point comes back to it. -/
theorem ecAddDistinct_singular (hP : Nat.Prime par.prime) (hp : p.canonical par.prime = true)
    (hc : onCurve par p = true) (hs : Singular par p) (hq : q.canonical par.prime = true)
    (hqc : onCurve par q = true) (hx : p.x ≠ q.x) : ecAddDistinct par p q = .ok p := by
  have : Fact par.prime.Prime := ⟨hP⟩
  obtain ⟨r, l, hr, cr, hl, ex, ey⟩ := ecAddDistinct_cast hP hp hq hx
  rw [Point.canonical_iff] at hp hq cr
  have e1 := (onCurve_cast hP.pos).1 hc
  have e2 := (onCurve_cast hP.pos).1 hqc
  have hne := sub_ne_zero.2 (cast_ne hp.1 hq.1 hx).symm
  obtain ⟨hy, ht⟩ := hs
  rw [hy] at e1 hl ey
  have key : l * l - p.x.val - q.x.val = (p.x.val : ZMod par.prime) := by
    refine mul_left_cancel₀ (mul_ne_zero hne hne) ?_
    push_cast at hl e1
    linear_combination (l * ((q.x.val : ZMod par.prime) - p.x.val) + q.y.val) * hl + e2 - e1 +
      ((q.x.val : ZMod par.prime) - p.x.val) * ht
  have hx' : r.x = p.x := Felt.eq_of_cast cr.1 hp.1 (by rw [ex, key])
  have hy' : r.y = p.y := Felt.eq_of_cast cr.2 hp.2 (by rw [ey, ex, key, hy]; simp)
  rw [hr]
  cases r; cases p; simp_all

/-- Iterations of the ladder from the singular point stay there. -/
theorem ladderSteps_singular (hP : Nat.Prime par.prime) (h2 : par.prime ≠ 2) (hp : p.canonical par.prime = true)
    (hc : onCurve par p = true) (hs : Singular par p) {n : Nat} {u v : Point × Point × Nat}
    (hl : LadderSteps par n u v) {D : (groupCurve par).Point} (ha : u.1 = p)
    (hd : Denotes par (some u.2.1) D) : v.1 = p := by
  induction hl generalizing D with
  | zero x => exact ha
  | next hst hr ih =>
    have double : ∀ {d d' : Point}, Denotes par (some d) D → ecDouble par d = .ok d' →
        ∃ E, Denotes par (some d') E := by
      intro d d' hd he
      obtain ⟨t, ht, dt⟩ := groupAdd_denotes hP h2 hd hd
      rw [groupAdd_self hP h2 hd.1 (ecDouble_y he), he] at ht
      cases ht
      exact ⟨_, dt⟩
    cases hst with
    | zero hx hk he =>
      obtain ⟨E, hE⟩ := double hd he
      exact ih ha hE
    | one hx hk hadd he =>
      obtain ⟨E, hE⟩ := double hd he
      refine ih ?_ hE
      simp only at ha hd hx ⊢
      subst ha
      rw [ecAddDistinct_singular hP hp hc hs hd.1 (hd.onCurve hP.pos) (Ne.symm hx)] at hadd
      cases hadd; rfl

/-- The singular point absorbs the points of the group. -/
theorem groupAdd_singular (hP : Nat.Prime par.prime) (hp : p.canonical par.prime = true)
    (hc : onCurve par p = true) (hs : Singular par p) {X : (groupCurve par).Point} (hg : Denotes par g X) :
    groupAdd par (some p) g = .ok (some p) := by
  rcases g with _ | q
  · rfl
  have : Fact par.prime.Prime := ⟨hP⟩
  have hqc := hg.onCurve hP.pos
  obtain ⟨hq, hn, -⟩ := hg
  have hx : p.x ≠ q.x := by
    intro e
    have e1 := (onCurve_cast hP.pos).1 hc
    have e2 := (onCurve_cast hP.pos).1 hqc
    rw [hs.1, e] at e1
    have hy : (q.y.val : ZMod par.prime) = 0 :=
      pow_eq_zero_iff (two_ne_zero) |>.1 (by rw [e2, ← e1]; simp)
    have ht := hs.2
    rw [e] at ht
    rcases ((WeierstrassCurve.Affine.nonsingular_iff' ..).1 hn).2 with h | h
    · apply h; linear_combination -ht
    · apply h; simp [hy]
  rw [groupAdd_of_ne hx, ecAddDistinct_singular hP hp hc hs hq hqc hx]
  rfl

/-- R202: a ladder on points of the curve that goes through answers P + m·Q. -/
theorem ladderRun_group {m : Felt} (hP : Nat.Prime par.prime) (h2 : par.prime ≠ 2)
    (hp : p.canonical par.prime = true) (hpc : onCurve par p = true) (hq : q.canonical par.prime = true)
    (hqc : onCurve par q = true) (hl : LadderRun par p q m r) :
    ∃ mq, groupMul par m.val (some q) = .ok mq ∧ groupAdd par (some p) mq = .ok (some r) := by
  have : Fact par.prime.Prime := ⟨hP⟩
  obtain ⟨d, hl⟩ := hl
  rcases Nat.eq_zero_or_pos par.ecHeight with h0 | h0
  · rw [h0] at hl
    generalize hv : ((r, d, 0) : Point × Point × Nat) = v at hl
    cases hl
    injection hv with e1 e2
    injection e2 with _ e3
    subst e1
    exact ⟨none, by rw [← e3]; rfl, rfl⟩
  have hy : q.y.val ≠ 0 := by
    obtain ⟨n, hn⟩ := Nat.exists_eq_succ_of_ne_zero h0.ne'
    rw [hn] at hl
    cases hl with
    | next hs _ => cases hs with
      | zero _ _ he => exact ecDouble_y he
      | one _ _ _ he => exact ecDouble_y he
  obtain ⟨Q, dq⟩ := denotes_of_onCurve hP h2 hq hqc hy
  obtain ⟨mq, hm, dm⟩ := groupMul_denotes hP h2 dq m.val
  refine ⟨mq, hm, ?_⟩
  rcases denotes_or_singular hP h2 hp hpc with ⟨A, da⟩ | hs
  · obtain ⟨t, ht, dt⟩ := groupAdd_denotes hP h2 da dm
    obtain ⟨R, E, hR, -, e⟩ := ladderSteps_denotes hP h2 hl da dq
    simp only [zero_nsmul, add_zero] at e
    subst e
    rw [ht, dt.unique hR]
  · have e := ladderSteps_singular hP h2 hp hpc hs hl rfl dq
    simp only at e
    rw [e]
    exact groupAdd_singular hP hp hpc hs dm

end Sys2Proof.Machine
end

