-- ==== Sys2Proof/Laws/Hints.lean ====
section
/-! SUPPORT. The hint step as a run of actions and scripts (R210, R279): what goes through is what the functions
answer, and a script that is not ended goes on with the rest. -/

namespace Sys2Proof.Machine

variable {s : State} {m m' : Memory}

/-- An allocation below 2^32 segments adds one (R62). -/
theorem Memory.allocate_eq (h : m.count < 2 ^ 32) :
    m.allocate = .ok (m.count, { m with count := m.count + 1 }) := if_pos h

/-- At 2^32 segments there is no more (R62). -/
theorem Memory.allocate_refused (h : 2 ^ 32 ≤ m.count) : m.allocate = .refuse .segmentSpaceExhausted :=
  if_neg (by omega)

/-- Actions that go through are what runActions answers. -/
theorem runActions_of_run {acts : List HintAction} {halted : Bool} (h : ActsRun s acts m m' halted) :
    runActions s acts m = .ok ⟨m', halted⟩ := by
  induction h with
  | done m => rfl
  | write hw hr ih => simp [runActions, memWriteAt, State.operand, hw, ih]
  | alloc hc hr ih => simp [runActions, Memory.allocate_eq hc, ih]
  | halt rest m => rfl

/-- Actions that go through and signal no halt are followed by the rest. -/
theorem runActions_append {acts rest : List HintAction} (h : ActsRun s acts m m' false) :
    runActions s (acts ++ rest) m = runActions s rest m' := by
  generalize hb : false = b at h
  induction h with
  | done m => rfl
  | write hw hr ih => simp [runActions, memWriteAt, State.operand, hw, ih hb]
  | alloc hc hr ih => simp [runActions, Memory.allocate_eq hc, ih hb]
  | halt rest m => cases hb

/-- Scripts that go through end the hint step in a halt, or are followed by the rest. -/
theorem runHints_append {hs after : List Hint} {n : Nat} {halted : Bool} (h : ScriptsRun s hs m m' halted) :
    runHints s (hs ++ after) n m =
      if halted then .ok ⟨m', true⟩ else runHints s after (n + hs.length) m' := by
  induction h generalizing n with
  | done m => simp
  | next ha hr ih =>
    simp [runHints, hintActions, runActions_of_run ha, ih, show ∀ a b : Nat, a + 1 + b = a + (b + 1) by omega]
  | halt ha => simp [runHints, hintActions, runActions_of_run ha]

end Sys2Proof.Machine
end

