-- ==== Sys2Proof/Laws/PerInstr.lean ====
section
/-! SUPPORT. The family TableRow: the word or the command an instruction is written as lies in its own row of
spec/opcode_table.json, by the row's match and mask. The table's masks place the opcode and the
pc update by the spec's decision D1 (log 37). -/

namespace Sys2Proof.Laws.TableRow

open Sys2Proof

/-- The bits 63:60 and 57:55 of a word, which the masks of the rows of the 64-bit format cover. -/
def rowBits (w : Nat) : Nat × Nat := (bits w 63 60, bits w 57 55)

/-- The `match` of a row, as the opcode nibble and the pc-update field. None where the row leaves the pc
update free. -/
def rowOf : Instr → Nat × Option Nat
  | .assertEq _ _ _ => (4, none)
  | .callAbs _ _ => (1, some 1)
  | .callRel _ _ => (1, some 2)
  | .call _ _ _ => (1, none)
  | .ret _ _ => (2, some 1)
  | .retAny _ _ _ => (2, none)
  | .nop _ => (0, some 0)
  | .jmpAbs _ _ => (0, some 1)
  | .jmpRel _ _ => (0, some 2)
  | .jnz _ _ => (0, some 4)
  | .apAdd _ => (0, some 0)
  | .nopApInc _ => (0, some 0)
  | .decode _ => (0x01, none)
  | .encode _ => (0x02, none)
  | .add _ _ => (0x10, none)
  | .sub _ _ => (0x11, none)
  | .mul _ _ => (0x12, none)
  | .neg _ => (0x13, none)
  | .inv _ => (0x14, none)
  | .div _ _ => (0x15, none)
  | .eq _ _ => (0x16, none)
  | .lt _ _ => (0x17, none)
  | .reduce _ => (0x18, none)
  | .toUint _ _ => (0x19, none)
  | .toInt _ _ => (0x1A, none)
  | .rcCheck _ => (0x20, none)
  | .sigVerify _ _ _ => (0x30, none)
  | .sigSet _ _ _ => (0x31, none)
  | .ecOp _ _ _ _ _ => (0x40, none)

/-- The encoding of `i` carries the fixed bits of its row: the opcode nibble (and the pc-update field where
the row fixes it) of a word, the code of a command. -/
def Statement (i : Instr) : Prop :=
  match i.record with
  | some r =>
    (rowBits (encodeRecord r)).1 = (rowOf i).1 ∧ ∀ n, (rowOf i).2 = some n → (rowBits (encodeRecord r)).2 = n
  | none => ∀ q, encodeRequest i = some q → q.code.toNat = (rowOf i).1

theorem bias_lt (o : BitVec 16) : bias o < 65536 := (o + 0x8000#16).isLt
theorem encReg_lt (b : BaseReg) : encReg b < 2 := by cases b <;> decide
theorem encOp1Src_lt (b : Op1Src) : encOp1Src b < 8 := by cases b <;> decide
theorem encRes_lt (b : ResLogic) : encRes b < 4 := by cases b <;> decide
theorem encPc_lt (b : PcUpdate) : encPc b < 8 := by cases b <;> decide
theorem encAp_lt (b : ApUpdate) : encAp b < 4 := by cases b <;> decide
theorem encOpcode_lt (b : Opcode) : encOpcode b < 8 := by cases b <;> decide

/-- The opcode nibble of an encoded record (R90, R91). -/
theorem encode_opcode (r : Instruction) : bits (encodeRecord r) 63 60 = encOpcode r.opcode := by
  have h1 := bias_lt r.offDst
  have h2 := bias_lt r.offOp0
  have h3 := bias_lt r.offOp1
  have h4 := encReg_lt r.dstReg
  have h5 := encReg_lt r.op0Reg
  have h6 := encOp1Src_lt r.op1Src
  have h7 := encRes_lt r.resLogic
  have h8 := encPc_lt r.pcUpdate
  have h9 := encAp_lt r.apUpdate
  have h10 := encOpcode_lt r.opcode
  simp only [bits, encodeRecord]
  omega

/-- The pc-update field of an encoded record (R87). -/
theorem encode_pcUpdate (r : Instruction) : bits (encodeRecord r) 57 55 = encPc r.pcUpdate := by
  have h1 := bias_lt r.offDst
  have h2 := bias_lt r.offOp0
  have h3 := bias_lt r.offOp1
  have h4 := encReg_lt r.dstReg
  have h5 := encReg_lt r.op0Reg
  have h6 := encOp1Src_lt r.op1Src
  have h7 := encRes_lt r.resLogic
  have h8 := encPc_lt r.pcUpdate
  have h9 := encAp_lt r.apUpdate
  have h10 := encOpcode_lt r.opcode
  simp only [bits, encodeRecord]
  omega

/-- A word of the 64-bit format lies in its row if the record's opcode and pc update are the row's. -/
theorem of_record {i : Instr} {r : Instruction} (h : i.record = some r)
    (ho : encOpcode r.opcode = (rowOf i).1) (hp : ∀ n, (rowOf i).2 = some n → encPc r.pcUpdate = n) :
    Statement i := by
  unfold Statement
  rw [h]
  exact ⟨(encode_opcode r).trans ho, fun n hn => (encode_pcUpdate r).trans (hp n hn)⟩

theorem assertEq (f : Fields) (p : PcUpdate) (a : ApUpdate) : Statement (.assertEq f p a) :=
  of_record rfl rfl (fun _ h => by cases h)
theorem callAbs (f : Fields) (a : ApUpdate) : Statement (.callAbs f a) :=
  of_record rfl rfl (fun _ h => by cases h; rfl)
theorem callRel (f : Fields) (a : ApUpdate) : Statement (.callRel f a) :=
  of_record rfl rfl (fun _ h => by cases h; rfl)
theorem call (f : Fields) (p : PcUpdate) (a : ApUpdate) : Statement (.call f p a) :=
  of_record rfl rfl (fun _ h => by cases h)
theorem ret (f : Fields) (a : ApUpdate) : Statement (.ret f a) :=
  of_record rfl rfl (fun _ h => by cases h; rfl)
theorem retAny (f : Fields) (p : PcUpdate) (a : ApUpdate) : Statement (.retAny f p a) :=
  of_record rfl rfl (fun _ h => by cases h)
theorem nop (f : Fields) : Statement (.nop f) := of_record rfl rfl (fun _ h => by cases h; rfl)
theorem jmpAbs (f : Fields) (a : ApUpdate) : Statement (.jmpAbs f a) :=
  of_record rfl rfl (fun _ h => by cases h; rfl)
theorem jmpRel (f : Fields) (a : ApUpdate) : Statement (.jmpRel f a) :=
  of_record rfl rfl (fun _ h => by cases h; rfl)
theorem jnz (f : Fields) (a : ApUpdate) : Statement (.jnz f a) :=
  of_record rfl rfl (fun _ h => by cases h; rfl)
theorem apAdd (f : Fields) : Statement (.apAdd f) := of_record rfl rfl (fun _ h => by cases h; rfl)
theorem nopApInc (f : Fields) : Statement (.nopApInc f) := of_record rfl rfl (fun _ h => by cases h; rfl)
theorem decode (w : BitVec 64) : Statement (.decode w) := fun _ h => by cases h; rfl
theorem encode (r : Instruction) : Statement (.encode r) := fun _ h => by cases h; rfl
theorem add (a b : MaybeRel) : Statement (.add a b) := fun _ h => by cases h; rfl
theorem sub (a b : MaybeRel) : Statement (.sub a b) := fun _ h => by cases h; rfl
theorem mul (a b : MaybeRel) : Statement (.mul a b) := fun _ h => by cases h; rfl
theorem neg (a : MaybeRel) : Statement (.neg a) := fun _ h => by cases h; rfl
theorem inv (a : MaybeRel) : Statement (.inv a) := fun _ h => by cases h; rfl
theorem div (a b : MaybeRel) : Statement (.div a b) := fun _ h => by cases h; rfl
theorem eq (a b : MaybeRel) : Statement (.eq a b) := fun _ h => by cases h; rfl
theorem lt (a b : MaybeRel) : Statement (.lt a b) := fun _ h => by cases h; rfl
theorem reduce (n : Int) : Statement (.reduce n) := fun _ h => by cases h; rfl
theorem toUint (a : MaybeRel) (k : Nat) : Statement (.toUint a k) := fun _ h => by cases h; rfl
theorem toInt (a : MaybeRel) (k : Nat) : Statement (.toInt a k) := fun _ h => by cases h; rfl
theorem rcCheck (v : MaybeRel) : Statement (.rcCheck v) := fun _ h => by cases h; rfl
theorem sigVerify (o : U32) (a b : MaybeRel) : Statement (.sigVerify o a b) := fun _ h => by cases h; rfl
theorem sigSet (o : U32) (r s : BitVec 256) : Statement (.sigSet o r s) := fun _ h => by cases h; rfl
theorem ecOp (a b c d e : MaybeRel) : Statement (.ecOp a b c d e) := fun _ h => by cases h; rfl

end Sys2Proof.Laws.TableRow
end

