-- ==== Sys2Proof/Tests/Slice0.lean ====
section
/-! SUPPORT. Tests: ill-formed terms that the check refuses, decoding of words written out from the encoding,
single steps from spec/95_test_vectors.md, and for every statement with hypotheses a witness that meets
them. -/

namespace Sys2Proof.Tests

open Sys2Proof Sys2Proof.Machine

-- One test after another: check.sh compiles the whole package in one process with bounded memory.
set_option Elab.async false

/-! ### Helpers -/

/-- P's default (R136). -/
def P : Nat := Config.fieldPrime
/-- Lenient parameters. -/
def pL : Params := ⟨false, false, false, 256, .unsigned32, .starkEcdsa, P, Config.starkCurve⟩
/-- Strict parameters, curve check on, the other reading of Felt offsets. -/
def pS : Params := ⟨true, true, true, 256, .fieldWrap, .starkEcdsa, P, Config.starkCurve⟩

/-- GF(7), and on it the curve y^2 = x^3 + x + 1 with the generator (0, 1) of order 5. -/
def p7 : Params := { pL with prime := 7, curve := ⟨1, 1, 0, 1, 5⟩ }

/-- `felt(n)`. -/
def fe (n : Nat) : Felt := Felt.ofNat P n
/-- `F(n)`. -/
def F (n : Nat) : MaybeRel := .felt (fe n)
/-- `Rel(s, o)` as a value. -/
def R (s o : Nat) : MaybeRel := .rel ⟨BitVec.ofNat 32 s, BitVec.ofNat 32 o⟩

/-- The launch of the step vectors (spec/95 section 2.7): ap = fp = Rel(1, 2), PROGRAM_END elsewhere. -/
def launch (cfg : BitVec 16) (prog : List Nat) (cells : List (U32 × MaybeRel)) : Launch :=
  { Launch.default (prog.map fe) 2 with
    programEnd := ⟨0, 1000⟩
    launchCells := cells
    cfg := cfg }

/-- The state after that launch under lenient parameters. -/
def mk (cfg : BitVec 16) (prog : List Nat) (cells : List (U32 × MaybeRel)) : State :=
  boot pL (launch cfg prog cells)

/-- No builtin active, the plain start state. -/
def s0 : State := mk 0x8000#16 [] []

/-- The next state, where the outcome is one. -/
def nextOf (o : Host.Outcome State Fault Refusal) : Option State :=
  match o with
  | .next t => some t
  | .fault _ => none
  | .refused _ => none

/-- A next state that the helper shows is the outcome. -/
theorem next_of {o : Host.Outcome State Fault Refusal} {t : State} (h : nextOf o = some t) : o = .next t := by
  cases o with
  | next u => cases h; rfl
  | fault f => cases h
  | refused r => cases h

/-- The state after a step. -/
def after (s : State) : Option State := nextOf (step s)

/-- What a step shows: STATUS, pc, ap, fp and the value of one cell. -/
def seen (s : State) (a : Rel) : Option (Status × Rel × Rel × Rel × Option MaybeRel) :=
  (after s).map fun t => (t.status, t.pc, t.ap, t.fp, t.mem.peek a)

/-- What a unit command answers. -/
def answerOf (i : Instr) (s : State) : Option UnitOutcome := (nextOf (exec i s)).bind fun t => t.unitOut

/-- The points of spec/95 section 2.5. -/
def g1 : Point := generator pL
def g2 : Point :=
  ⟨fe 0x0759ca09377679ecd535a81e83039658bf40959283187c654c5416f439403cf5,
    fe 0x06f524a3400e7708d5c01a28598ad272e7455aa88778b19f93b562d7a9646c41⟩
def g3 : Point :=
  ⟨fe 0x0411494b501a98abd8262b0da1351e17899a0c4ef23dd2f96fec5ba847310b20,
    fe 0x07e1b3ebac08924d2c26f409549191fcf94f3bf6f301ed3553e22dfb802f0686⟩

/-! ### WellFormed: a term that each check refuses -/

/-- Fields with offsets 0, base ap, op1 an immediate, and the given result logic. -/
def fields (r : ResLogic) : Fields := ⟨0#16, 0#16, 1#16, .ap, .ap, .imm, r⟩

theorem test_ill_unconstrained_without_jnz : WellFormed pL (.nop (fields .unconstrained)) = false := by decide
theorem test_ill_op1_with_jnz : WellFormed pL (.jnz (fields .op1) .regular) = false := by decide
theorem test_ill_add2_without_call : WellFormed pL (.assertEq (fields .op1) .regular .add2) = false := by decide
theorem test_ill_call_with_regular_ap : WellFormed pL (.callAbs (fields .op1) .regular) = false := by decide
theorem test_ill_fp_update :
    representable pL { (fields .op1).toRecord .regular .regular .noOp with fpUpdate := .dst } = false := by decide
theorem test_ill_jnz_add_when_strict :
    WellFormed pS (.jnz (fields .add) .regular) = false ∧ WellFormed pL (.jnz (fields .add) .regular) = true := by
  decide
theorem test_ill_call_add_when_strict :
    WellFormed pS (.callRel (fields .op1) .add) = false ∧ WellFormed pL (.callRel (fields .op1) .add) = true := by
  decide
theorem test_ill_call_row_of_another : WellFormed pL (.call (fields .op1) .jump .add2) = false ∧
    WellFormed pL (.call (fields .op1) .jumpRel .add2) = false := by decide
theorem test_ill_ret_row_of_another : WellFormed pL (.retAny (fields .op1) .jump .regular) = false := by decide
theorem test_ill_width_zero :
    WellFormed pL (.toUint (F 1) 0) = false ∧ WellFormed pL (.toInt (F 1) 0) = false := by decide

/-! ### Decoding: words written out from the layout of R81 to R90, under the strict parameters

The places and codes of the flag fields in every word of this file are those of the spec's decision D1 (log 37).

Offsets are biased: 0x8000 is 0, 0x7fff is -1, 0x7ffe is -2, 0x8001 is 1. The top 16 bits are 0, the opcode
(3), the ap update (2), the pc update (3), the result logic (2), the op1 source (3), op0's base, dst's base. -/

/-- 0 100 00 000 01 001 1 0: the word of S2, `[ap + 10] = [fp] + imm`. -/
theorem test_decode_assertEq : decodeWord pS 0x402680018000800a =
    some (.assertEq ⟨10#16, 0#16, 1#16, .ap, .fp, .imm, .add⟩ .regular .regular) := by decide
/-- 0 001 00 001 00 001 0 0. -/
theorem test_decode_callAbs : decodeWord pS 0x1084800180018000 =
    some (.callAbs ⟨0#16, 1#16, 1#16, .ap, .ap, .imm, .op1⟩ .add2) := by decide
/-- 0 001 00 010 00 001 0 0. -/
theorem test_decode_callRel : decodeWord pS 0x1104800180018000 =
    some (.callRel ⟨0#16, 1#16, 1#16, .ap, .ap, .imm, .op1⟩ .add2) := by decide
/-- 0 001 00 000 00 001 0 0. -/
theorem test_decode_call : decodeWord pS 0x1004800180018000 =
    some (.call ⟨0#16, 1#16, 1#16, .ap, .ap, .imm, .op1⟩ .regular .add2) := by decide
/-- 0 010 00 001 00 010 1 1. -/
theorem test_decode_ret : decodeWord pS 0x208b7fff7fff7ffe =
    some (.ret ⟨0xfffe#16, 0xffff#16, 0xffff#16, .fp, .fp, .fp, .op1⟩ .regular) := by decide
/-- 0 010 00 010 00 010 1 1. -/
theorem test_decode_retAny : decodeWord pS 0x210b7fff7fff7ffe =
    some (.retAny ⟨0xfffe#16, 0xffff#16, 0xffff#16, .fp, .fp, .fp, .op1⟩ .jumpRel .regular) := by decide
/-- 0 000 00 000 10 100 0 1. -/
theorem test_decode_nop : decodeWord pS 0x00517fff7fff7ffe =
    some (.nop ⟨0xfffe#16, 0xffff#16, 0xffff#16, .fp, .ap, .ap, .mul⟩) := by decide
/-- 0 000 10 001 00 000 1 0: op1 through op0, `ap++`. -/
theorem test_decode_jmpAbs : decodeWord pS 0x08828001ffff0000 =
    some (.jmpAbs ⟨0x8000#16, 0x7fff#16, 1#16, .ap, .fp, .op0, .op1⟩ .add1) := by decide
/-- 0 000 00 010 00 001 1 1. -/
theorem test_decode_jmpRel : decodeWord pS 0x010780017fff8000 =
    some (.jmpRel ⟨0#16, 0xffff#16, 1#16, .fp, .fp, .imm, .op1⟩ .regular) := by decide
/-- 0 000 00 100 00 001 1 0. -/
theorem test_decode_jnz : decodeWord pS 0x020680017fff7fff =
    some (.jnz ⟨0xffff#16, 0xffff#16, 1#16, .ap, .fp, .imm, .unconstrained⟩ .regular) := by decide
/-- 0 000 01 000 00 001 1 1. -/
theorem test_decode_apAdd : decodeWord pS 0x040780017fff7fff =
    some (.apAdd ⟨0xffff#16, 0xffff#16, 1#16, .fp, .fp, .imm, .op1⟩) := by decide
/-- 0 000 10 000 00 010 1 1. -/
theorem test_decode_nopApInc : decodeWord pS 0x080b7fff7fff7fff =
    some (.nopApInc ⟨0xffff#16, 0xffff#16, 0xffff#16, .fp, .fp, .fp, .op1⟩) := by decide

/-- The command codes of R105, and two codes that are in no row. -/
theorem test_decode_commands :
    (∀ w : BitVec 64, decodeRequest { Request.zero 0x01 with word := w } = some (.decode w)) ∧
    (∀ i, decodeRequest { Request.zero 0x02 with record := i } = some (.encode i)) ∧
    (∀ a b, decodeRequest { Request.zero 0x10 with v0 := a, v1 := b } = some (.add a b)) ∧
    (∀ a b, decodeRequest { Request.zero 0x11 with v0 := a, v1 := b } = some (.sub a b)) ∧
    (∀ a b, decodeRequest { Request.zero 0x12 with v0 := a, v1 := b } = some (.mul a b)) ∧
    (∀ a, decodeRequest { Request.zero 0x13 with v0 := a } = some (.neg a)) ∧
    (∀ a, decodeRequest { Request.zero 0x14 with v0 := a } = some (.inv a)) ∧
    (∀ a b, decodeRequest { Request.zero 0x15 with v0 := a, v1 := b } = some (.div a b)) ∧
    (∀ a b, decodeRequest { Request.zero 0x16 with v0 := a, v1 := b } = some (.eq a b)) ∧
    (∀ a b, decodeRequest { Request.zero 0x17 with v0 := a, v1 := b } = some (.lt a b)) ∧
    (∀ n, decodeRequest { Request.zero 0x18 with n := n } = some (.reduce n)) :=
  ⟨fun _ => rfl, fun _ => rfl, fun _ _ => rfl, fun _ _ => rfl, fun _ _ => rfl, fun _ => rfl, fun _ => rfl,
    fun _ _ => rfl, fun _ _ => rfl, fun _ _ => rfl, fun _ => rfl⟩

theorem test_decode_commands_2 :
    (∀ a k, decodeRequest { Request.zero 0x19 with v0 := a, widthLess1 := k } = some (.toUint a (k + 1))) ∧
    (∀ a k, decodeRequest { Request.zero 0x1A with v0 := a, widthLess1 := k } = some (.toInt a (k + 1))) ∧
    (∀ a, decodeRequest { Request.zero 0x20 with v0 := a } = some (.rcCheck a)) ∧
    (∀ o a b, decodeRequest { Request.zero 0x30 with off := o, v0 := a, v1 := b } =
      some (.sigVerify o a b)) ∧
    (∀ o r s, decodeRequest { Request.zero 0x31 with off := o, r := r, s := s } = some (.sigSet o r s)) ∧
    (∀ a b c d m, decodeRequest { Request.zero 0x40 with v0 := a, v1 := b, v2 := c, v3 := d, v4 := m } =
      some (.ecOp a b c d m)) ∧
    decodeRequest (Request.zero 0x00) = none ∧ decodeRequest (Request.zero 0x1B) = none :=
  ⟨fun _ _ => rfl, fun _ _ => rfl, fun _ => rfl, fun _ _ _ => rfl, fun _ _ _ => rfl, fun _ _ _ _ _ => rfl,
    rfl, rfl⟩

/-- spec/95 section 2.1: invalid words, the kinds that apply. -/
theorem test_decode_invalid :
    [0x000c800080008000, 0x0060800080008000, 0x0180800080008000, 0x0c00800080008000, 0x3000800080008000,
      0x7060800080008000, 0x94a7800080008000, 2 ^ 64].map (fun w => match decodeRecord pL w with
        | .ok _ => []
        | .bad l => l.map Failure.code) = [[2], [3], [4], [5], [6], [6, 3], [1], [1]] := by decide

/-! ### The host's two questions on single rows, and reset -/

theorem test_table_word : decodeTableWord 64 0x208b7fff7fff7ffe =
      some (.ret ⟨0xfffe#16, 0xffff#16, 0xffff#16, .fp, .fp, .fp, .op1⟩ .regular) ∧
    decodeTableWord 8 0x12 = some (.mul (F 0) (F 0)) := by decide

/-- The word 0x010b7ffe80008000 is `jmp rel [fp - 2]` with dst and op0 [fp]; at reset fp - 2 is out of
range (R50), so the step fails; the command RC_CHECK is refused, its unit being inactive. -/
theorem test_first_step :
    (after (State.reset.withFetchWord 64 0x010b7ffe80008000)).map (·.status) =
      some (.failed (.underflow ⟨1, 0⟩ (.int (-2)))) ∧
    (after (State.reset.withFetchWord 8 0x20)).bind (·.unitOut) = some (.refused .inactiveUnit) := by
  decide +kernel

/-- R38. -/
theorem test_reset : State.reset.cfg = 0x8000#16 ∧ State.reset.pc = ⟨0, 0⟩ ∧ State.reset.ap = ⟨1, 0⟩ ∧
    State.reset.fp = ⟨1, 0⟩ ∧ State.reset.sigTab = none ∧ State.reset.mem.wf := by decide

/-! ### Single steps (spec/95 sections 2.7 and 3) -/

/-- Program 1 step 1: `[ap] = 5; ap++`. -/
theorem test_assert_immediate : seen (mk 0x8000#16 [0x480680017fff8000, 5] [(1, R 0 0)]) ⟨1, 2⟩ =
    some (.running, ⟨0, 2⟩, ⟨1, 3⟩, ⟨1, 2⟩, some (F 5)) := by decide +kernel
/-- `[ap - 1] = [ap] + [ap - 2]` with [ap] unknown: inferred as 3 - 10. -/
theorem test_assert_infers : seen (mk 0x8000#16 [0x40307ffe80007fff] [(0, F 10), (1, F 3)]) ⟨1, 2⟩ =
    some (.running, ⟨0, 1⟩, ⟨1, 2⟩, ⟨1, 2⟩, some (F (P - 7))) := by decide +kernel
/-- Call rel 5 of Program 3. -/
theorem test_callRel : seen (mk 0x8000#16 [0x1104800180018000, 5] []) ⟨1, 3⟩ =
    some (.running, ⟨0, 5⟩, ⟨1, 4⟩, ⟨1, 4⟩, some (R 0 2)) := by decide +kernel
/-- The same word lenient with apUpdate Add is refused. -/
theorem test_call_without_add2 : seen (mk 0x8000#16 [0x1504800180018000, 4] []) ⟨1, 2⟩ =
    some (.refused .callWithoutAdd2, ⟨0, 0⟩, ⟨1, 2⟩, ⟨1, 2⟩, none) := by decide +kernel
/-- call abs [fp - 1] (one cell: the return address is pc + 1). -/
theorem test_callAbs : seen (mk 0x8000#16 [0x108a7fff80018000] [(1, R 0 9)]) ⟨1, 3⟩ =
    some (.running, ⟨0, 9⟩, ⟨1, 4⟩, ⟨1, 4⟩, some (R 0 1)) := by decide +kernel
/-- A Call with pcUpdate Regular goes on behind itself. -/
theorem test_call_regular : seen (mk 0x8000#16 [0x1004800180018000, 5] []) ⟨1, 2⟩ =
    some (.running, ⟨0, 2⟩, ⟨1, 4⟩, ⟨1, 4⟩, some (R 1 2)) := by decide +kernel
theorem test_ret : seen (mk 0x8000#16 [0x208b7fff7fff7ffe] [(0, R 1 7), (1, R 0 5)]) ⟨1, 0⟩ =
    some (.running, ⟨0, 5⟩, ⟨1, 2⟩, ⟨1, 7⟩, some (R 1 7)) := by decide +kernel
/-- ret, vector with [1:0] = 3. -/
theorem test_ret_refused : seen (mk 0x8000#16 [0x208b7fff7fff7ffe] [(0, F 3), (1, R 0 0)]) ⟨1, 0⟩ =
    some (.refused .fpOutOfExecutionSegment, ⟨0, 0⟩, ⟨1, 2⟩, ⟨1, 2⟩, some (F 3)) := by decide +kernel
/-- A Ret with JumpRel by [fp - 1] = 4. -/
theorem test_retAny : seen (mk 0x8000#16 [0x210b7fff7fff7ffe] [(0, R 1 7), (1, F 4)]) ⟨1, 0⟩ =
    some (.running, ⟨0, 4⟩, ⟨1, 2⟩, ⟨1, 7⟩, some (R 1 7)) := by decide +kernel
theorem test_nop : seen (mk 0x8000#16 [0x000b7fff7fff7fff] [(1, F 1)]) ⟨1, 2⟩ =
    some (.running, ⟨0, 1⟩, ⟨1, 2⟩, ⟨1, 2⟩, none) := by decide +kernel
theorem test_nopApInc : seen (mk 0x8000#16 [0x080b7fff7fff7fff] [(1, F 1)]) ⟨1, 2⟩ =
    some (.running, ⟨0, 1⟩, ⟨1, 3⟩, ⟨1, 2⟩, none) := by decide +kernel
theorem test_apAdd : seen (mk 0x8000#16 [0x040780017fff7fff, 6] [(1, F 1)]) ⟨1, 2⟩ =
    some (.running, ⟨0, 2⟩, ⟨1, 8⟩, ⟨1, 2⟩, none) := by decide +kernel
/-- `ap += [fp - 1]` with a Relocatable there. -/
theorem test_apAdd_forbidden : (after (mk 0x8000#16 [0x040b7fff7fff7fff] [(1, R 0 0)])).map (·.status) =
    some (.failed (.forbiddenOperation (R 1 2) (R 0 0))) := by decide +kernel
/-- jmp abs [fp - 1] = 0, and Rel(0, 7). -/
theorem test_jmpAbs_refused : seen (mk 0x8000#16 [0x008b7fff7fff7fff] [(1, F 0)]) ⟨1, 2⟩ =
    some (.refused .pcOutOfProgramSegment, ⟨0, 0⟩, ⟨1, 2⟩, ⟨1, 2⟩, none) := by decide +kernel
theorem test_jmpAbs : seen (mk 0x8000#16 [0x008b7fff7fff7fff] [(1, R 0 7)]) ⟨1, 2⟩ =
    some (.running, ⟨0, 7⟩, ⟨1, 2⟩, ⟨1, 2⟩, none) := by decide +kernel
theorem test_jmpRel : seen (mk 0x8000#16 [0x010780017fff7fff, 9] [(1, F 1)]) ⟨1, 2⟩ =
    some (.running, ⟨0, 9⟩, ⟨1, 2⟩, ⟨1, 2⟩, none) := by decide +kernel
/-- jnz 4 if [ap - 1] != 0: a Relocatable is non-zero, F(0) is zero. -/
theorem test_jnz : seen (mk 0x8000#16 [0x020680017fff7fff, 4] [(1, R 1 5)]) ⟨1, 2⟩ =
    some (.running, ⟨0, 4⟩, ⟨1, 2⟩, ⟨1, 2⟩, none) := by decide +kernel
theorem test_jnz_zero : seen (mk 0x8000#16 [0x020680017fff7fff, 4] [(1, F 0)]) ⟨1, 2⟩ =
    some (.running, ⟨0, 2⟩, ⟨1, 2⟩, ⟨1, 2⟩, none) := by decide +kernel

/-! ### Unit commands (spec/95 sections 2.3 to 2.6) -/

theorem test_decode_encode : answerOf (.decode 0x8000000000000000#64) s0 =
      some (.fail (.reservedBitSet 0x8000000000000000)) ∧
    answerOf (.encode ((fields .op1).toRecord .jnz .regular .noOp)) s0 =
      some (.refused .notRepresentable) := by decide +kernel
theorem test_add_sub : answerOf (.add (F (P - 1)) (F 2)) s0 = some (.ok (.felt (fe 1))) ∧
    answerOf (.sub (F 3) (F 5)) s0 = some (.ok (.felt (fe (P - 2)))) := by decide +kernel
theorem test_mul_neg :
    answerOf (.mul (F (P - 1)) (F (P - 1))) s0 = some (.ok (.felt (fe 1))) ∧
    answerOf (.neg (F 0)) s0 = some (.ok (.felt (fe 0))) := by decide +kernel
/-- The same commands over GF(7): P is an argument. -/
theorem test_other_prime :
    answerOf (.add (.felt ⟨5⟩) (.felt ⟨4⟩)) { s0 with params := p7 } = some (.ok (.felt ⟨2⟩)) ∧
    answerOf (.div (.felt ⟨1⟩) (.felt ⟨3⟩)) { s0 with params := p7 } = some (.ok (.felt ⟨5⟩)) ∧
    sqrt 7 ⟨2⟩ = some ⟨4⟩ ∧ sqrt 7 ⟨3⟩ = none := by decide +kernel
theorem test_inv_div : answerOf (.inv (F 3)) s0 = some (.ok (.felt (fe
      0x02aaaaaaaaaaaab0555555555555555555555555555555555555555555555556))) ∧
    answerOf (.div (F 42) (F 6)) s0 = some (.ok (.felt (fe 7))) ∧
    answerOf (.div (F 0) (F 0)) s0 = some (.fail (.divisionByZero [fe 0, fe 0])) := by
  decide +kernel
theorem test_eq_lt_reduce : answerOf (.eq (F P) (F 0)) s0 = some (.ok (.bool true)) ∧
    answerOf (.lt (F (P - 1)) (F 0)) s0 = some (.ok (.bool false)) ∧
    answerOf (.reduce (-1)) s0 = some (.ok (.felt (fe (P - 1)))) ∧
    answerOf (.reduce (2 ^ 256)) s0 = some (.ok (.felt (fe
      0x07fffffffffffdf0ffffffffffffffffffffffffffffffffffffffffffffffe1))) := by decide +kernel
theorem test_conversions : answerOf (.toUint (F (2 ^ 32 - 1)) 32) s0 = some (.ok (.nat 4294967295)) ∧
    answerOf (.toUint (F (2 ^ 32)) 32) s0 =
      some (.fail (.overflow (.conversion (fe (2 ^ 32)) 32))) ∧
    answerOf (.toInt (F (P - 2 ^ 15)) 16) s0 = some (.ok (.int (-32768))) ∧
    answerOf (.toInt (F (2 ^ 15)) 16) s0 =
      some (.fail (.overflow (.conversion (fe (2 ^ 15)) 16))) := by decide +kernel
/-- b = 128, and b = 0. -/
theorem test_rcCheck : answerOf (.rcCheck (F (2 ^ 128 - 1))) (mk 0x8001#16 [] []) = some (.ok .unit) ∧
    answerOf (.rcCheck (F (2 ^ 128))) (mk 0x8001#16 [] []) =
      some (.fail (.rangeCheckOutOfBounds (F (2 ^ 128)) (2 ^ 128))) ∧
    answerOf (.rcCheck (F 1)) (mk 0x0001#16 [] []) = some (.fail (.rangeCheckOutOfBounds (F 1) 1)) := by
  decide +kernel
/-- No table, no entry; a public key 0 has no candidate. -/
theorem test_sigVerify : answerOf (.sigVerify 0 (F 0) (F 5)) (mk 0x8002#16 [] []) =
      some (.fail .undefinedDictionary) ∧
    answerOf (.sigVerify 2 (F 0) (F 5)) ((mk 0x8002#16 [] []).setSigTab [(0, ⟨1, 1⟩)]) =
      some (.fail (.undefinedSignature 2)) ∧
    answerOf (.sigVerify 0 (F 0) (F 5)) ((mk 0x8002#16 [] []).setSigTab [(0, ⟨1, 1⟩)]) =
      some (.fail (.invalidSignature 1 1 (fe 5) [])) := by decide +kernel
/-- Before boot step 7, and after the boot (R272). -/
theorem test_sigSet : (nextOf (exec (.sigSet 4 7 9) (bootSetup pL (launch 0x8002#16 [] [])))).bind (·.sigTab) =
      some [(4, ⟨7, 9⟩)] ∧
    answerOf (.sigSet 4 7 9) (mk 0x8002#16 [] []) = some (.refused .hostWriteDuringRun) := by decide +kernel
/-- EC_OP(G, G, 0): the x-coordinates are compared although the bit is 0. -/
theorem test_ecOp_equal_x : answerOf (.ecOp (.felt g1.x) (.felt g1.y) (.felt g1.x) (.felt g1.y) (F 0))
    (mk 0x8004#16 [] []) = some (.fail (.ladderFailure g1 g1 (fe 0))) := by decide +kernel
/-- EC_OP(G, 2G, 1) = 3G. -/
theorem test_ecOp : ladder pL 0 g1 g2 (fe 1) 256 g1 g2 1 = .ok g3 := by decide +kernel

/-- spec/95 section 2.2, both readings of a Felt offset. -/
theorem test_addresses : addInt ⟨1, 0⟩ (-1) = .fail (.underflow ⟨1, 0⟩ (.int (-1))) ∧
    addFelt pS ⟨1, 5⟩ (fe (P - 2)) = .ok ⟨1, 3⟩ ∧
    subFelt pS ⟨1, 5⟩ (fe (P - 2)) = .ok ⟨1, 7⟩ ∧
    subRel pL ⟨1, 4⟩ ⟨2, 9⟩ = .fail (.segmentMismatch ⟨1, 4⟩ ⟨2, 9⟩) := by decide +kernel

/-! ### Witnesses: the hypotheses of each statement are met, clause by clause -/

/-- P's default is a prime, so the statements over every prime P speak of the machine at reset (R136). -/
theorem prime_P : Nat.Prime P := fieldPrime_prime
theorem pos_P : 0 < P := by decide

/-- The record of the canonical ret. -/
def retRec : Instruction := (Fields.mk 0xfffe#16 0xffff#16 0xffff#16 .fp .fp .fp .op1).toRecord .jump .regular .ret

theorem witness_RecordRoundTrip : representable pS retRec = true ∧ ValidWord pS 0x208b7fff7fff7ffe ∧
    decodeRecord pS 0x208b7fff7fff7ffe = .ok retRec ∧ ValidWord pS 0 ∧ ValidWord pL 0x4a52ffffffffffff :=
  ⟨by decide, by decide, by decide, by decide, by decide⟩
theorem witness_InstrRoundTrip :
    WellFormed pS (.retAny retRec.fields .jumpRel .add1) = true ∧ WellFormed pS (.toInt (R 1 2) 1) = true := by
  decide
theorem witness_DecodeIsTotal : ValidWord pS 0x208b7fff7fff7ffe ∧ ¬ ValidWord pS (2 ^ 63) ∧
    ¬ ValidWord pS 0x1504800180018000 ∧ ValidWord pL 0x1504800180018000 :=
  ⟨by decide, by decide, by decide, by decide⟩
theorem witness_ReservedBitWins : 2 ^ 63 ≤ 2 ^ 63 ∧ 2 ^ 63 ≤ P - 1 := by decide
theorem witness_DecodeFailureNamesAnInvalidField :
    iduDecode pL 0 0x000c800080008000 = .fail (.invalidOp1Source 0x000c800080008000) ∧
    iduDecode pL 0 0x0180800080008000 = .fail (.invalidPcUpdate 0x0180800080008000) ∧
    iduDecode pL 0 0x7000800080008000 = .fail (.invalidOpcode 0x7000800080008000) ∧
    iduDecode pS 0 0x022480017fff7fff = .fail (.invalidResultLogic 0x022480017fff7fff) ∧
    iduDecode pS 0 0x1904800180018000 = .fail (.invalidApUpdate 0x1904800180018000) := by decide
theorem witness_DecodedFieldsAreTheWords : decodeRecord pS 0x208b7fff7fff7ffe = .ok retRec := by decide
theorem witness_DecodeCommandAnswers : ValidWord s0.params (0x208b7fff7fff7ffe#64).toNat ∧
    2 ^ 63 ≤ (0x8000000000000000#64).toNat ∧ (0x7fffffffffffffff#64).toNat < 2 ^ 63 ∧
    ¬ ValidWord s0.params (0x7fffffffffffffff#64).toNat :=
  ⟨by decide, by decide, by decide, by decide⟩
theorem witness_EncodeCommandAnswers : representable s0.params retRec = true ∧
    representable s0.params { retRec with fpUpdate := .regular } = false := by decide

/-- `[ap] = 5; ap++` at pc. -/
def sAssert : State := mk 0x8000#16 [0x480680017fff8000, 5] [(1, F 1)]

theorem witness_StepRunsDecodedInstruction :
    (sAssert.port = none ∧ sAssert.status = .running ∧ sAssert.pc ≠ sAssert.programEnd ∧
      hintStep sAssert = .ok ⟨sAssert.mem, false⟩ ∧
      sAssert.mem.peek sAssert.pc = some (.felt (fe 0x480680017fff8000)) ∧
      decodeWord sAssert.params (fe 0x480680017fff8000).val =
        some (.assertEq ⟨0#16, 0xffff#16, 1#16, .ap, .fp, .imm, .op1⟩ .regular .add1)) ∧
    decodeRequest (Request.zero 0x10) = some (.add (F 0) (F 0)) := by decide +kernel

/-- A state in which the run has ended, with a command on the port. -/
def sHalted : State := { s0 with status := .halted, port := some (Request.zero 0x10) }

theorem witness_StepsExistExactlyWhileRunning :
    (s0.status = .running ∧ sHalted.port ≠ none ∧ sHalted.status ≠ .running) ∧
    ({ sHalted with port := none } : State).port = none ∧
    step sHalted = .next { sHalted with port := none, unitOut := some (.ok (.felt (fe 0))) } :=
  ⟨by decide, rfl, next_of (by decide +kernel)⟩

/-- A running state with one hint at pc. -/
def sHint (acts : List HintAction) : State := { s0 with hints := [⟨0, .script acts⟩] }

theorem witness_RunEndsAtProgramEndOrByHint :
    (State.reset.port = none ∧ State.reset.status = .running ∧ State.reset.pc = State.reset.programEnd) ∧
    ((sHint [.write (R 1 0) (F 3), .halt]).port = none ∧
      hintStep (sHint [.write (R 1 0) (F 3), .halt]) = .ok ⟨s0.mem.set ⟨1, 0⟩ (F 3), true⟩) ∧
    hintStep (sHint [.raise .op0Undefined]) = .fail .op0Undefined ∧
    hintStep (sHint [.write (F 1) (F 1)]) = .refuse .feltAddress ∧
    (sHint []).pc ≠ (sHint []).programEnd := by decide +kernel

/-- A write, then in a second hint at the same pc an allocation and a halt. -/
def sScripts : State :=
  { s0 with hints := [⟨0, .script [.write (R 1 0) (F 3)]⟩, ⟨7, .script []⟩, ⟨0, .script [.alloc, .halt]⟩] }
def mScripts : Memory := { s0.mem.set ⟨1, 0⟩ (F 3) with count := 3 }

theorem witness_RunEndsAtProgramEndOrByHint_scripts :
    ScriptsRun sScripts (sScripts.hints.filter fun h => decide (h.offset = sScripts.pc.off)) sScripts.mem
      mScripts true :=
  .next (m1 := s0.mem.set ⟨1, 0⟩ (F 3)) (.write (by decide +kernel) (.done _))
    (.halt (.alloc (by decide +kernel) (.halt _ _)))

/-- A script that writes the raw natural P goes through; a later one allocates, then raises with the raw natural P,
before host code at the same pc. -/
def sRaw : State :=
  { s0 with hints := [⟨0, .script [.write (R 1 0) (.felt ⟨P⟩)]⟩, ⟨7, .script []⟩,
      ⟨0, .script ([.alloc] ++ .raise (.divisionByZero [⟨P⟩]) :: [.halt])⟩, ⟨0, .host 0⟩] }
def mRaw : Memory := s0.mem.set ⟨1, 0⟩ (F 0)
def mRaw3 : Memory := { mRaw with count := 3 }

/-- R137: the cell holds F(0), and the failure carries F(0). -/
theorem witness_RunEndsAtProgramEndOrByHint_raise :
    (sRaw.hints.filter fun h => decide (h.offset = sRaw.pc.off)) =
      [⟨0, .script [.write (R 1 0) (.felt ⟨P⟩)]⟩] ++
        ⟨0, .script ([.alloc] ++ .raise (.divisionByZero [⟨P⟩]) :: [.halt])⟩ :: [⟨0, .host 0⟩] ∧
    ScriptsRun sRaw [⟨0, .script [.write (R 1 0) (.felt ⟨P⟩)]⟩] sRaw.mem mRaw false ∧
    ActsRun sRaw [.alloc] mRaw mRaw3 false ∧
    ActFails sRaw mRaw3 (.raise (.divisionByZero [⟨P⟩])) (.divisionByZero [fe 0]) ∧
    hintStep sRaw = .fail (.divisionByZero [fe 0]) :=
  ⟨by decide +kernel, .next (.write (by decide +kernel) (.done _)) (.done _),
    .alloc (by decide +kernel) (.done _), .inl ⟨_, rfl, by decide +kernel⟩, by decide +kernel⟩

/-- A write of another value into the cell that holds F(0) fails; the raw P is the equal value F(0). -/
theorem witness_RunEndsAtProgramEndOrByHint_write :
    ActFails sRaw mRaw3 (.write (R 1 0) (F 4)) (.inconsistentMemory ⟨1, 0⟩ (F 0) (F 4)) ∧
    ActsRun sRaw [.write (R 1 0) (.felt ⟨P⟩)] mRaw3 mRaw3 false :=
  ⟨.inr ⟨_, _, rfl, by decide +kernel⟩, .write (by decide +kernel) (.done _)⟩

/-- The three refusals: a write through a Felt, into an absent segment, and the allocation after 2^32 of them. -/
theorem witness_RunEndsAtProgramEndOrByHint_refused :
    ActRefused sRaw mRaw3 (.write (F 1) (F 1)) .feltAddress ∧
    ActRefused sRaw mRaw3 (.write (R 3 0) (F 1)) .unallocatedSegment ∧
    ActRefused sRaw ⟨2 ^ 32, []⟩ .alloc .segmentSpaceExhausted :=
  ⟨.inl ⟨_, _, rfl, rfl⟩, .inr (.inl ⟨_, _, rfl, by decide +kernel⟩), .inr (.inr ⟨rfl, by decide, rfl⟩)⟩
theorem witness_FetchFailures :
    (s0.port = none ∧ s0.status = .running ∧ s0.pc ≠ s0.programEnd ∧ hintsAtPc s0 = [] ∧
      s0.mem.peek s0.pc = none) ∧
    ({ s0 with mem := s0.mem.set ⟨0, 0⟩ (R 1 0) } : State).mem.peek s0.pc = some (R 1 0) ∧
    ((mk 0x8000#16 [P - 1] []).mem.peek s0.pc = some (.felt (fe (P - 1))) ∧ 2 ^ 63 ≤ (fe (P - 1)).val) ∧
    (mk 0x8000#16 [2 ^ 63] []).mem.peek s0.pc = some (.felt (fe (2 ^ 63))) ∧
    ((mk 0x8000#16 [2 ^ 63 - 1] []).mem.peek s0.pc = some (.felt (fe (2 ^ 63 - 1))) ∧
      (fe (2 ^ 63 - 1)).val < 2 ^ 63 ∧ ¬ ValidWord s0.params (fe (2 ^ 63 - 1)).val) := by decide +kernel
theorem witness_AbortedStepsCommitNothing :
    step s0 = .next ((s0.begin s0.mem 0).fail (.undefinedValue (.cell ⟨0, 0⟩))) ∧
    (after (mk 0x8000#16 [0x008b7fff7fff7fff] [(1, F 0)])).map (·.status) =
      some (.refused .pcOutOfProgramSegment) ∧ s0.port = none :=
  ⟨next_of (by decide +kernel), by decide +kernel, by decide⟩

theorem inv_s0 : Inv s0 :=
  { mem := by decide +kernel, segments := by decide +kernel, prime := by decide, canonical := by decide +kernel,
    status := rfl, unitOut := fun _ h => (by cases h), pinned := by decide, cfg := by decide,
    sigTab := fun _ h => by cases h }

/-- A memory with a Felt in it, P - 1 being canonical and P not. -/
theorem witness_Inv_canonical : (mk 0x8000#16 [P - 1] []).mem.canonical P ∧
    ¬ (s0.mem.set ⟨0, 0⟩ (.felt ⟨P⟩)).canonical P := by decide +kernel

/-- STATUS and the outcome of a command with a Felt in them, F(0) being canonical and the raw P not. -/
theorem witness_Inv_status :
    (Status.failed (.divisionByZero [fe 0])).canonical P = true ∧
    (Status.failed (.divisionByZero [⟨P⟩])).canonical P = false ∧
    (UnitOutcome.ok (.felt (fe 0))).canonical P = true ∧
    (UnitOutcome.ok (.felt ⟨P⟩)).canonical P = false := by decide +kernel

theorem witness_StepKeepsInvariant : Inv s0 ∧
    step s0 = .next ((s0.begin s0.mem 0).fail (.undefinedValue (.cell ⟨0, 0⟩))) :=
  ⟨inv_s0, witness_AbortedStepsCommitNothing.1⟩
theorem witness_CellsAreWriteOnce : sAssert.mem.wf ∧ (after sAssert).isSome = true := by decide +kernel
theorem witness_ConfigurationIsReadOnly :
    (after { sAssert with started := true }).map (·.started) = some true := by decide +kernel
theorem witness_LaunchChecksConfiguration :
    rcBoundExp (launch 0xfc00#16 [] []).cfg > 251 ∧ cfgReserved (launch 0x0008#16 [] []).cfg ≠ 0 ∧
    rcBoundExp (launch 0xfb07#16 [] []).cfg ≤ 251 ∧ cfgReserved (launch 0xfb07#16 [] []).cfg = 0 := by decide
/-- R185: a second SIG_SET to the same offset replaces the first; with the unit inactive no call is made. -/
def launchSigs (cfg : BitVec 16) : Launch :=
  { launch cfg [] [] with signatures := [(4, ⟨7, 9⟩), (6, ⟨1, 2⟩), (4, ⟨8, 9⟩)] }
theorem witness_LaunchChecksConfiguration_signatures :
    (rcBoundExp (launchSigs 0x8002#16).cfg ≤ 251 ∧ cfgReserved (launchSigs 0x8002#16).cfg = 0 ∧
      (launchSigs 0x8002#16).signatures ≠ [] ∧ sigActive (launchSigs 0x8002#16).cfg = true) ∧
    (boot pL (launchSigs 0x8002#16)).sigTab = some [(4, ⟨8, 9⟩), (6, ⟨1, 2⟩)] ∧
    (sigActive (launchSigs 0x8000#16).cfg = false ∧ (launch 0x8002#16 [] []).signatures = []) := by decide
theorem witness_LaunchPlacesProgram :
    cfgLegal (launch 0xfb07#16 [1, 2] []).cfg = true ∧ (launch 0xfb07#16 [1, 2] []).program.length ≤ 2 ^ 32 ∧
    1 < (launch 0xfb07#16 [1, 2] []).program.length ∧
    (launch 0xfb07#16 [1, 2] []).program.length ≤ (2 : U32).toNat ∧
    ((launch 0xfb07#16 [1, 2] [(0, R 1 0), (1, F 5)]).launchCells.map Prod.fst).Nodup ∧
    ((1 : U32), F 5) ∈ (launch 0xfb07#16 [1, 2] [(0, R 1 0), (1, F 5)]).launchCells ∧
    (2 : U32) ∉ (launch 0xfb07#16 [1, 2] [(0, R 1 0), (1, F 5)]).launchCells.map Prod.fst ∧
    2 ≤ (⟨2, 0⟩ : Rel).seg.toNat := by decide

theorem witness_FieldAddSubMulNeg : 0 < s0.params.prime := by decide
theorem witness_InverseIsUnique : Nat.Prime s0.params.prime ∧ (fe (P - 1)).val < s0.params.prime ∧
    (fe (P - 1)).val ≠ 0 ∧ (fe 1).val ≠ 0 ∧ (fe 0).val = 0 ∧ (fe 1).val * (fe 1).val % P = 1 :=
  ⟨prime_P, by decide, by decide, by decide, by decide, by decide⟩
theorem witness_DivisionIsFieldQuotient : Nat.Prime s0.params.prime ∧ (fe 6).val < s0.params.prime ∧
    (fe 6).val ≠ 0 ∧ (fe 0).val = 0 := ⟨prime_P, by decide, by decide, by decide⟩
theorem witness_ComparesAndReduces : 0 < s0.params.prime := by decide
/-- At width 16 and at width 1: the greatest and least values that fit, and the next ones. -/
theorem witness_ConversionsCheckTheWidth : 1 ≤ 16 ∧ (fe (P - 1)).val < s0.params.prime ∧
    (fe (2 ^ 16 - 1)).val < 2 ^ 16 ∧ 2 ^ 16 ≤ (fe (2 ^ 16)).val ∧
    2 * (fe (2 ^ 15 - 1)).val < 2 ^ 16 ∧
    (2 ^ 16 ≤ 2 * (fe (P - 2 ^ 15)).val ∧
      2 * (P - (fe (P - 2 ^ 15)).val) ≤ 2 ^ 16) ∧
    (2 ^ 16 ≤ 2 * (fe (2 ^ 15)).val ∧ 2 ^ 16 < 2 * (P - (fe (2 ^ 15)).val)) ∧
    (2 ^ 16 ≤ 2 * (fe (P - 2 ^ 15 - 1)).val ∧
      2 ^ 16 < 2 * (P - (fe (P - 2 ^ 15 - 1)).val)) ∧
    (2 ^ 1 ≤ 2 * (fe (P - 1)).val ∧
      2 * (P - (fe (P - 1)).val) ≤ 2 ^ 1) := by decide
theorem witness_FieldLaws : Nat.Prime P ∧ (fe (P - 1)).val < P ∧ (fe 6).val < P ∧
    Fau.inv P (fe (P - 1)) = .ok (fe (P - 1)) ∧ Fau.div P (fe 42) (fe 6) = .ok (fe 7) :=
  ⟨prime_P, by decide, by decide, by decide +kernel, by decide +kernel⟩
theorem witness_FeltPortsRefuseRelocatables : sigActive (mk 0x8006#16 [] []).cfg = true ∧
    ecActive (mk 0x8006#16 [] []).cfg = true ∧ (R 1 2) ∈ [F 1, F 2, F 3, F 4, R 1 2] := by decide
theorem witness_UnitCommandFrame : (Instr.add (F 1) (F 2)).record = none ∧
    exec (.add (F 1) (F 2)) s0 = .next (s0.answer (.ok (.felt (fe 3)))) ∧
    ∀ off r q, Instr.add (F 1) (F 2) ≠ .sigSet off r q :=
  ⟨rfl, next_of (by decide +kernel), fun _ _ _ h => by cases h⟩

theorem witness_RangeCheckAcceptsBelowBound : rcActive (mk 0x8001#16 [] []).cfg = true ∧
    (fe (2 ^ 128)).val < (mk 0x8001#16 [] []).params.prime ∧
    (fe (2 ^ 128 - 1)).val < 2 ^ rcBoundExp (mk 0x8001#16 [] []).cfg ∧
    2 ^ rcBoundExp (mk 0x8001#16 [] []).cfg ≤ (fe (2 ^ 128)).val := by decide

/-- The pair that verifies for the key 2G: with r = s = z = x(3G) both factors of R183 are 1, so the point is
G + 2G = 3G. -/
def sSig (sig : Sig) : State := (mk 0x8002#16 [] []).setSigTab [(0, sig)]
def sigGood : Sig := ⟨BitVec.ofNat 256 g3.x.val, BitVec.ofNat 256 g3.x.val⟩

theorem witness_SigVerifyCases : sigActive (sSig sigGood).cfg = true ∧
    g2.x.val < (sSig sigGood).params.prime ∧ g3.x.val < (sSig sigGood).params.prime ∧
    (mk 0x8002#16 [] []).sigTab = none ∧ tableLookup [(0, sigGood)] 2 = none ∧
    tableLookup [(0, sigGood)] (0 : U32).toNat = some sigGood ∧
    (∃ q ∈ candidates pL g2.x, sigPredicate (sSig sigGood).params g3.x sigGood.r.toNat
      sigGood.s.toNat q = true) ∧
    (∀ q ∈ candidates pL g2.x, sigPredicate (sSig ⟨0, 1⟩).params g3.x (0 : BitVec 256).toNat
      (1 : BitVec 256).toNat q = false) := by decide +kernel
/-- The default predicate's clauses at their bounds: s = 1 is its own inverse. -/
theorem witness_SigVerifyCases_default : pL.sigScheme = .starkEcdsa ∧ pL.curve.order = Config.starkCurve.order ∧
    Config.starkCurve.order ≤ Config.starkCurve.order ∧ 2 ^ 251 ≤ 2 ^ 251 ∧
    2 ^ 251 ≤ (fe (2 ^ 251)).val ∧ 1 ≤ 2 ^ 251 - 1 ∧ 2 ^ 251 - 1 < 2 ^ 251 ∧ 1 < Config.starkCurve.order ∧
    (fe (2 ^ 251 - 1)).val < 2 ^ 251 ∧ 1 * 1 % Config.starkCurve.order = 1 := by decide
theorem witness_SigSetWritesOneEntry : sigActive (mk 0x8002#16 [] []).cfg = true ∧
    (bootSetup pL (launch 0x8002#16 [] [])).started = false ∧
    sigActive (bootSetup pL (launch 0x8002#16 [] [])).cfg = true ∧
    (mk 0x8002#16 [] []).started = true := by decide
theorem witness_CandidatesAreThePoints : Nat.Prime pL.prime ∧ g2.x.val < pL.prime ∧ g2.canonical pL.prime = true :=
  ⟨prime_P, by decide, by decide⟩
theorem witness_PointFormulasStayOnCurve : Nat.Prime pL.prime ∧ pL.prime ≠ 2 ∧ g1.canonical pL.prime = true ∧
    g2.canonical pL.prime = true ∧ onCurve pL g1 = true ∧ onCurve pL g2 = true ∧ g1.x ≠ g2.x ∧ g1.y.val ≠ 0 :=
  ⟨prime_P, by decide, by decide, by decide, by decide +kernel, by decide +kernel, by decide, by decide⟩
/-- 2G and 3G of spec/95 section 2.5, by both sums; the point O. -/
theorem witness_PointFormulasStayOnCurve_multiple :
    (∀ p, some g1 = some p → p.canonical pL.prime = true ∧ onCurve pL p = true) ∧
    groupMul pL 2 (some g1) = .ok (some g2) ∧ groupSum pL (some g1) 2 = .ok (some g2) ∧
    groupMul pL 3 (some g1) = .ok (some g3) ∧ groupSum pL (some g1) 3 = .ok (some g3) ∧
    groupMul pL 1 none = .ok none :=
  ⟨fun _ h => by cases h; exact ⟨by decide, by decide +kernel⟩, by decide +kernel, by decide +kernel,
    by decide +kernel, by decide +kernel, rfl⟩
theorem witness_EcOpRunsTheLadder : ecActive (mk 0x8004#16 [] []).cfg = true ∧
    g1.canonical P = true ∧ g2.canonical P = true ∧ (fe 1).val < P ∧
    EcChecked (mk 0x8004#16 [] []).params g1 g2 ∧ LadderRun (mk 0x8004#16 [] []).params g1 g2 (fe 1) g3 ∧
    exec (.ecOp (.felt g1.x) (.felt g1.y) (.felt g2.x) (.felt g2.y) (.felt (fe 1))) (mk 0x8004#16 [] []) =
      .next ((mk 0x8004#16 [] []).answer (.ok (.point g3))) :=
  ⟨by decide, by decide, by decide, by decide, (fun h => by cases h), ladder_ok.1 test_ecOp,
    next_of (by decide +kernel)⟩

/-- R202: G + 1·2G is 3G by the group law. -/
theorem witness_EcOpRunsTheLadder_group : Nat.Prime (mk 0x8004#16 [] []).params.prime ∧
    (mk 0x8004#16 [] []).params.prime ≠ 2 ∧ onCurve (mk 0x8004#16 [] []).params g1 = true ∧
    onCurve (mk 0x8004#16 [] []).params g2 = true ∧ groupMul pL 1 (some g2) = .ok (some g2) ∧
    groupAdd pL (some g1) (some g2) = .ok (some g3) :=
  ⟨prime_P, by decide, by decide +kernel, by decide +kernel, by decide +kernel, by decide +kernel⟩

/-- The point (5, 0), off the curve. -/
def off5 : Point := ⟨fe 5, fe 0⟩

theorem witness_EcOpRejectsItsInputs :
    (ecActive (boot pS (launch 0x8004#16 [] [])).cfg = true ∧
      (boot pS (launch 0x8004#16 [] [])).params.ecCheckOnCurve = true ∧
      off5.canonical P = true ∧ (fe 2).val < P) ∧
    onCurve pL off5 = false ∧ onCurve pL g1 = true ∧
    2 ^ ({ boot pS (launch 0x8004#16 [] []) with params := { pS with ecHeight := 1 } } : State).params.ecHeight ≤
      (fe 2).val := by decide +kernel
/-- Equal x before the first iteration, with -G, and before the second: EC_OP(2G, G, 0) finds G doubled to 2G. A
doubled point with y = 0, and a scalar 2 that one iteration does not use up. -/
theorem witness_EcOpRejectsItsInputs_ladder :
    (EcChecked pL g2 g1 ∧ 1 < pL.ecHeight) ∧
    (LadderSteps pL 0 (g1, ecNegate pL g1, 0) (g1, ecNegate pL g1, 0) ∧ (ecNegate pL g1).x = g1.x) ∧
    LadderSteps pL 1 (g2, g1, (fe 0).val) (g2, g2, 0) ∧
    (LadderSteps pL 0 (g1, off5, 0) (g1, off5, 0) ∧ off5.x ≠ g1.x ∧ off5.y.val = 0) ∧
    (LadderSteps { pL with ecHeight := 1 } 1 (g3, g1, (fe 2).val) (g3, g2, 1) ∧ (1 : Nat) ≠ 0) :=
  have hd : ecDouble pL g1 = .ok g2 := by decide +kernel
  ⟨⟨(fun h => by cases h), by decide⟩, ⟨.zero _, by decide⟩,
    .next (.zero (by decide) (by decide) hd) (.zero _), ⟨.zero _, by decide, by decide⟩,
    ⟨.next (.zero (by decide) (by decide) hd) (.zero _), by decide⟩⟩
theorem witness_InactiveAndUnknownRefused : rcActive s0.cfg = false ∧ sigActive s0.cfg = false ∧
    ecActive s0.cfg = false ∧ ({ s0 with port := some (Request.zero 0x1B) } : State).port =
      some (Request.zero 0x1B) ∧
    ∀ i c, encodeRequest i = some c → c.code ≠ (Request.zero 0x1B).code :=
  ⟨by decide, by decide, by decide, rfl,
    fun i c h => by cases i <;> cases h <;> simp [Request.zero]⟩

/-- The offset 2^32 - 1. -/
def top : U32 := 0xffffffff#32

theorem witness_AddressArithmeticIsChecked :
    ((0 : Int) ≤ (top.toNat : Int) + 0 ∧ (top.toNat : Int) + 0 ≤ 2 ^ 32 - 1) ∧
    (top.toNat : Int) + 1 > 2 ^ 32 - 1 ∧ ((0 : U32).toNat : Int) + -1 < 0 ∧
    (⟨1, 4⟩ : Rel).seg ≠ (⟨2, 9⟩ : Rel).seg ∧ (⟨1, 4⟩ : Rel).off.toNat < (⟨1, 9⟩ : Rel).off.toNat ∧
    (⟨1, 4⟩ : Rel).off.toNat ≤ (⟨1, 4⟩ : Rel).off.toNat := by decide
theorem witness_FeltOffsetsInBothModes : 0 < pL.prime ∧ pL.feltOffsetMode = .unsigned32 ∧
    pS.feltOffsetMode = .fieldWrap := by decide
theorem witness_AddThenSubtractRestores : 2 ^ 32 ≤ pL.prime ∧ (0xfffffffe#32 : U32).toNat + 1 ≤ 2 ^ 32 - 1 := by decide

theorem witness_MemWriteIsAssertEq :
    s0.mem.count ≤ (⟨2, 0⟩ : Rel).seg.toNat ∧ sAssert.mem.peek ⟨1, 1⟩ = some (F 1) ∧ F 1 ≠ F 2 ∧
    ((⟨1, 5⟩ : Rel).seg.toNat < s0.mem.count ∧ s0.mem.peek ⟨1, 5⟩ = none ∧
      rcSegment s0.cfg ≠ some (⟨1, 5⟩ : Rel).seg.toNat ∧ sigSegment s0.cfg ≠ some (⟨1, 5⟩ : Rel).seg.toNat ∧
      ecSegment s0.cfg ≠ some (⟨1, 5⟩ : Rel).seg.toNat) := by decide +kernel
/-- The last input cell of instance 0 and the first of instance 1 of the ECU's segment. -/
theorem witness_MemWriteIsAssertEq_input :
    ∀ a ∈ [(⟨2, 4⟩ : Rel), ⟨2, 7⟩], a.seg.toNat < (mk 0x8004#16 [] []).mem.count ∧
      (mk 0x8004#16 [] []).mem.peek a = none ∧ rcSegment (mk 0x8004#16 [] []).cfg ≠ some a.seg.toNat ∧
      sigSegment (mk 0x8004#16 [] []).cfg ≠ some a.seg.toNat ∧
      ecSegment (mk 0x8004#16 [] []).cfg = some a.seg.toNat ∧ a.off.toNat % 7 < 5 := by decide +kernel
theorem witness_AllocateAppendsASegment : (Memory.mk 4294967295 []).wf ∧
    (Memory.mk 4294967295 []).count < 2 ^ 32 ∧ (Memory.mk 4294967296 []).wf ∧
    2 ^ 32 ≤ (Memory.mk 4294967296 []).count := by decide
theorem witness_RangeCheckSegmentValidates :
    rcSegment (mk 0x8001#16 [] []).cfg = some (⟨2, 0⟩ : Rel).seg.toNat ∧
    (⟨2, 0⟩ : Rel).seg.toNat < (mk 0x8001#16 [] []).mem.count ∧ (mk 0x8001#16 [] []).mem.peek ⟨2, 0⟩ = none ∧
    (fe (2 ^ 128 - 1)).val < 2 ^ rcBoundExp (mk 0x8001#16 [] []).cfg ∧
    2 ^ rcBoundExp (mk 0x8001#16 [] []).cfg ≤ (fe (2 ^ 128)).val ∧
    ((mk 0x8001#16 [] []).mem.set ⟨2, 0⟩ (F 5)).peek ⟨2, 0⟩ = some (F 5) := by decide +kernel
theorem witness_SignatureSegmentVerifiesPairs :
    sigSegment (sSig sigGood).cfg = some (⟨2, 0⟩ : Rel).seg.toNat ∧
    (⟨2, 0⟩ : Rel).seg.toNat < (sSig sigGood).mem.count ∧ (sSig sigGood).mem.peek ⟨2, 0⟩ = none ∧
    (1 : U32).toNat = (if (0 : U32).toNat % 2 = 0 then (0 : U32).toNat + 1 else (0 : U32).toNat - 1) ∧
    (0 : U32).toNat = (if (1 : U32).toNat % 2 = 0 then (1 : U32).toNat + 1 else (1 : U32).toNat - 1) ∧
    (sSig sigGood).mem.peek ⟨2, 1⟩ = none ∧
    ((sSig sigGood).mem.set ⟨2, 1⟩ (F 9)).peek ⟨2, 1⟩ = some (F 9) ∧
    ((sSig sigGood).mem.set ⟨2, 1⟩ (F 9)).peek ⟨2, 0⟩ = none ∧
    ((sSig sigGood).mem.set ⟨2, 0⟩ (F 9)).peek ⟨2, 0⟩ = some (F 9) ∧
    ((sSig sigGood).mem.set ⟨2, 0⟩ (F 9)).peek ⟨2, 1⟩ = none := by decide +kernel

/-- The ECU active, and the five inputs of instance 0 for EC_OP(G, 2G, 1) in its segment. -/
def sEc : State := mk 0x8004#16 [] []
def ecInputs : Memory :=
  ((((sEc.mem.set ⟨2, 0⟩ (.felt g1.x)).set ⟨2, 1⟩ (.felt g1.y)).set ⟨2, 2⟩ (.felt g2.x)).set ⟨2, 3⟩
    (.felt g2.y)).set ⟨2, 4⟩ (F 1)

theorem witness_EcOutputIsDeducedOnRead :
    (ecSegment sEc.cfg = some (⟨2, 5⟩ : Rel).seg.toNat ∧ (⟨2, 5⟩ : Rel).seg.toNat < sEc.mem.count ∧
      (⟨2, 5⟩ : Rel).seg.toNat < ecInputs.count ∧
      (⟨2, 5⟩ : Rel).off.toNat = 7 * 0 + 5 ∧ (⟨2, 6⟩ : Rel).off.toNat = 7 * 0 + 6) ∧
    (∃ j < 5, sEc.mem.peek ⟨2, BitVec.ofNat 32 (7 * 0 + j)⟩ = none) ∧
    (sEc.mem.peek ⟨2, 5⟩ = none ∧ ecInputs.peek ⟨2, 5⟩ = none ∧ ecInputs.peek ⟨2, 6⟩ = none) ∧
    (ecInputs.peek ⟨2, 0⟩ = some (.felt g1.x) ∧ ecInputs.peek ⟨2, 1⟩ = some (.felt g1.y) ∧
      ecInputs.peek ⟨2, 2⟩ = some (.felt g2.x) ∧ ecInputs.peek ⟨2, 3⟩ = some (.felt g2.y) ∧
      ecInputs.peek ⟨2, 4⟩ = some (F 1)) ∧
    ((ecInputs.set ⟨2, 6⟩ (.felt g3.y)).peek ⟨2, 6⟩ = some (.felt g3.y) ∧
      (ecInputs.set ⟨2, 6⟩ (F 8)).peek ⟨2, 6⟩ = some (F 8) ∧ F 8 ≠ .felt g3.y ∧
      (ecInputs.set ⟨2, 5⟩ (F 8)).peek ⟨2, 5⟩ = some (F 8) ∧ F 8 ≠ .felt g3.x) :=
  ⟨by decide, ⟨0, by decide, by decide +kernel⟩, by decide +kernel, by decide +kernel, by decide +kernel⟩
/-- The result of the deduction, for the read and for the write (the inputs are those above). -/
theorem witness_EcOutputWriteMustAgree :
    ecOpFelts sEc.params sEc.draws g1 g2 (fe 1) = .ok g3 := test_ecOp

/-- A Relocatable for the scalar; and the inputs G, G, 1 of variant 5b (spec/95 section 3, Program 5). -/
def ecRel : Memory := { ecInputs with cells := tableInsert ecInputs.cells (cellKey ⟨2, 4⟩) (R 1 0) }
def ec5b : Memory :=
  ((((sEc.mem.set ⟨2, 0⟩ (.felt g1.x)).set ⟨2, 1⟩ (.felt g1.y)).set ⟨2, 2⟩ (.felt g1.x)).set ⟨2, 3⟩
    (.felt g1.y)).set ⟨2, 4⟩ (F 1)

theorem witness_EcOutputIsDeducedOnRead_stops :
    (EcInputs ecRel 2 0 (.felt g1.x) (.felt g1.y) (.felt g2.x) (.felt g2.y) (R 1 0) ∧
      ecRel.peek ⟨2, 5⟩ = none ∧ (⟨2, 5⟩ : Rel).seg.toNat < ecRel.count) ∧
    (EcInputs ec5b 2 0 (.felt g1.x) (.felt g1.y) (.felt g1.x) (.felt g1.y) (F 1) ∧
      ec5b.peek ⟨2, 6⟩ = none ∧ (⟨2, 6⟩ : Rel).seg.toNat < ec5b.count) ∧
    ecOpFelts sEc.params sEc.draws g1 g1 (fe 1) = .fail (.ladderFailure g1 g1 (fe 1)) := by decide +kernel

theorem witness_Op1AddressBySource : (1#16 : BitVec 16).toInt = 1 ∧ (0xffff#16 : BitVec 16).toInt ≠ 1 := by
  decide

/-- `[ap - 1] = [fp - 2] + imm` with both cells filled. -/
def sFilled : State := mk 0x8000#16 [0x402680017ffe7fff, 4] [(0, F 3), (1, F 7)]
def recFilled : Instruction :=
  (Fields.mk 0xffff#16 0xfffe#16 1#16 .ap .fp .imm .add).toRecord .regular .regular .assertEq

theorem witness_FilledOperandsAreRead :
    addInt sFilled.ap recFilled.offDst.toInt = .ok ⟨1, 1⟩ ∧
    addInt sFilled.fp recFilled.offOp0.toInt = .ok ⟨1, 0⟩ ∧
    computeOp1Address sFilled recFilled.op1Src recFilled.offOp1 (some (F 3)) = .ok ⟨0, 1⟩ ∧
    sFilled.mem.peek ⟨1, 1⟩ = some (F 7) ∧ sFilled.mem.peek ⟨1, 0⟩ = some (F 3) ∧
    sFilled.mem.peek ⟨0, 1⟩ = some (F 4) := by decide +kernel
/-- An empty cell of each kind: both slots of `call rel 5`; dst of `[ap] = 5`; op1 and op0 of
`[ap - 1] = [fp - 2] + [ap + 2]` and `[ap - 1] = [ap + 2] + [fp - 2]`. -/
def sEmpty : State := mk 0x8000#16 [0x1104800180018000, 5] [(0, F 3), (1, F 7)]
def recCall : Instruction := (Fields.mk 0#16 1#16 1#16 .ap .ap .imm .op1).toRecord .jumpRel .add2 .call
def recDst : Instruction := (Fields.mk 0#16 0xffff#16 1#16 .ap .fp .imm .op1).toRecord .regular .add1 .assertEq
def recOp1 : Instruction := (Fields.mk 0xffff#16 0xfffe#16 2#16 .ap .fp .ap .add).toRecord .regular .add1 .assertEq
def recOp0 : Instruction := (Fields.mk 0xffff#16 2#16 0xfffe#16 .ap .ap .fp .add).toRecord .regular .add1 .assertEq

theorem witness_FilledOperandsAreRead_call : recCall.opcode = .call ∧
    addInt sEmpty.ap recCall.offDst.toInt = .ok ⟨1, 2⟩ ∧ addInt sEmpty.ap recCall.offOp0.toInt = .ok ⟨1, 3⟩ ∧
    sEmpty.mem.peek ⟨1, 2⟩ = none ∧ ecOutput sEmpty.cfg ⟨1, 2⟩ = none ∧ sEmpty.mem.peek ⟨1, 3⟩ = none ∧
    ecOutput sEmpty.cfg ⟨1, 3⟩ = none ∧ sEmpty.pc.off.toNat + recCall.size.toNat = 2 ∧
    computeOp1Address sEmpty recCall.op1Src recCall.offOp1 (some (R 0 2)) = .ok ⟨0, 1⟩ ∧
    sEmpty.mem.peek ⟨0, 1⟩ = some (F 5) ∧
    readOperands recCall sEmpty = .ok ⟨⟨1, 2⟩, ⟨1, 3⟩, .rel sEmpty.fp, R 0 2, F 5, none, sEmpty.mem⟩ := by
  decide +kernel
theorem witness_FilledOperandsAreRead_assertEq :
    (recDst.opcode = .assertEq ∧ recDst.resLogic = .op1 ∧ addInt sEmpty.ap recDst.offDst.toInt = .ok ⟨1, 2⟩ ∧
      addInt sEmpty.fp recDst.offOp0.toInt = .ok ⟨1, 1⟩ ∧ sEmpty.mem.peek ⟨1, 1⟩ = some (F 7) ∧
      computeOp1Address sEmpty recDst.op1Src recDst.offOp1 (some (F 7)) = .ok ⟨0, 1⟩ ∧
      readOperands recDst sEmpty = .ok ⟨⟨1, 2⟩, ⟨1, 1⟩, F 5, F 7, F 5, none, sEmpty.mem⟩) ∧
    (recOp1.opcode = .assertEq ∧ recOp1.resLogic = .add ∧ addInt sEmpty.ap recOp1.offDst.toInt = .ok ⟨1, 1⟩ ∧
      addInt sEmpty.fp recOp1.offOp0.toInt = .ok ⟨1, 0⟩ ∧ sEmpty.mem.peek ⟨1, 0⟩ = some (F 3) ∧
      computeOp1Address sEmpty recOp1.op1Src recOp1.offOp1 (some (F 3)) = .ok ⟨1, 4⟩ ∧
      sEmpty.mem.peek ⟨1, 4⟩ = none ∧ ecOutput sEmpty.cfg ⟨1, 4⟩ = none ∧
      readOperands recOp1 sEmpty =
        .ok ⟨⟨1, 1⟩, ⟨1, 0⟩, F 7, F 3, F 4, some (⟨1, 4⟩, F 4), sEmpty.mem⟩) ∧
    (recOp0.opcode = .assertEq ∧ recOp0.resLogic = .add ∧ addInt sEmpty.ap recOp0.offOp0.toInt = .ok ⟨1, 4⟩ ∧
      computeOp1Address sEmpty recOp0.op1Src recOp0.offOp1 none = .ok ⟨1, 0⟩ ∧
      readOperands recOp0 sEmpty =
        .ok ⟨⟨1, 1⟩, ⟨1, 4⟩, F 7, F 4, F 3, some (⟨1, 4⟩, F 4), sEmpty.mem⟩) := by decide +kernel
theorem witness_AssertEqInfersOneOperand :
    recFilled.opcode = .assertEq ∧ recFilled.resLogic = .add ∧
    ({ recFilled with resLogic := .op1 } : Instruction).resLogic = .op1 ∧
    ({ recFilled with resLogic := .mul } : Instruction).resLogic = .mul ∧
    mrAdd pL (R 1 4) (F 3) = .ok (R 1 7) ∧ mrSub pL (R 1 7) (R 1 4) = .ok (F 3) ∧
    mrSub pL (R 1 7) (F 3) = .ok (R 1 4) ∧ mrMul pL (F 6) (F 7) = .ok (F 42) ∧
    mrDiv pL (F 42) (F 6) = .ok (F 7) := by decide +kernel

/-- `[ap] = [ap + 1] + [ap + 2]`, all empty; and a nop with one empty cell. -/
def iUnknown : Instr := .assertEq ⟨0#16, 1#16, 2#16, .ap, .ap, .ap, .add⟩ .regular .regular
def iNopUnknown : Instr := .nop ⟨0xffff#16, 0xffff#16, 5#16, .fp, .fp, .ap, .op1⟩

theorem witness_UnresolvedOperandsFail :
    (iUnknown.record = some (Fields.toRecord ⟨0#16, 1#16, 2#16, .ap, .ap, .ap, .add⟩ .regular .regular
        .assertEq) ∧
      computeAddress s0 .ap 0#16 = .ok ⟨1, 2⟩ ∧ computeAddress s0 .ap 1#16 = .ok ⟨1, 3⟩ ∧
      computeOp1Address s0 .ap 2#16 (s0.mem.peek ⟨1, 3⟩) = .ok ⟨1, 4⟩ ∧ ecOutput s0.cfg ⟨1, 2⟩ = none ∧
      ecOutput s0.cfg ⟨1, 3⟩ = none ∧ ecOutput s0.cfg ⟨1, 4⟩ = none ∧ s0.mem.peek ⟨1, 2⟩ = none ∧
      s0.mem.peek ⟨1, 3⟩ = none ∧ s0.mem.peek ⟨1, 4⟩ = none) ∧
    (iNopUnknown.record = some (Fields.toRecord ⟨0xffff#16, 0xffff#16, 5#16, .fp, .fp, .ap, .op1⟩ .regular
        .regular .noOp) ∧
      computeAddress sAssert .fp 0xffff#16 = .ok ⟨1, 1⟩ ∧
      computeOp1Address sAssert .ap 5#16 (sAssert.mem.peek ⟨1, 1⟩) = .ok ⟨1, 7⟩ ∧
      sAssert.mem.peek ⟨1, 1⟩ = some (F 1) ∧ sAssert.mem.peek ⟨1, 7⟩ = none ∧
      ecOutput sAssert.cfg ⟨1, 1⟩ = none ∧ ecOutput sAssert.cfg ⟨1, 7⟩ = none) := by decide +kernel
/-- A Call through [ap + 2], which is empty; and an AssertEq with Unconstrained (R222). -/
theorem witness_UnresolvedOperandsFail_more :
    addInt s0.pc (Fields.toRecord ⟨0#16, 1#16, 2#16, .ap, .ap, .ap, .op1⟩ .jump .add2 .call).size = .ok ⟨0, 1⟩ ∧
    computeOp1Address s0 .ap 2#16 (some ((s0.mem.peek ⟨1, 3⟩).getD (R 0 1))) = .ok ⟨1, 4⟩ ∧
    s0.mem.peek ⟨1, 4⟩ = none ∧
    (Fields.toRecord ⟨0#16, 1#16, 2#16, .ap, .ap, .ap, .unconstrained⟩ .jnz .regular .assertEq).resLogic =
      .unconstrained := by decide +kernel

/-! The sub-steps that stop an instruction. -/

/-- `[fp - 1]` three times, and a state that holds `v` there. -/
def fOne (l : ResLogic) : Fields := ⟨0xffff#16, 0xffff#16, 0xffff#16, .fp, .fp, .fp, l⟩
def sOne (v : MaybeRel) : State := mk 0x8000#16 [] [(1, v)]
def oOne (v : MaybeRel) : Operands := ⟨⟨1, 1⟩, ⟨1, 1⟩, v, v, v, none, (sOne v).mem⟩

/-- R212: `[fp - 1]` with fp = Rel(1, 0) raises Underflow, for dst and for op0. -/
theorem witness_UnresolvedOperandsFail_address :
    addInt ({ s0 with fp := ⟨1, 0⟩ } : State).fp (0xffff#16 : BitVec 16).toInt =
      .fail (.underflow ⟨1, 0⟩ (.int (-1))) ∧
    addInt ({ s0 with fp := ⟨1, 0⟩ } : State).ap (0#16 : BitVec 16).toInt = .ok ⟨1, 2⟩ ∧
    (nextOf (exec (.nop (fOne .op1)) { s0 with fp := ⟨1, 0⟩ })).map (·.status) =
      some (.failed (.underflow ⟨1, 0⟩ (.int (-1)))) := by decide +kernel

/-- An ECU output as op0 or dst, with an empty input and with a Relocatable; a Call at the last pc. -/
theorem witness_UnresolvedOperandsFail_reads :
    resolve sEc sEc.mem ⟨2, 5⟩ = .fail (.undefinedValue (.cell ⟨2, 5⟩)) ∧
    resolve { sEc with mem := ecRel } ecRel ⟨2, 5⟩ = .refuse .relocatableOperand ∧
    addInt (⟨2, 5⟩ : Rel) (0#16 : BitVec 16).toInt = .ok ⟨2, 5⟩ ∧
    resolve s0 s0.mem ⟨1, 3⟩ = .ok (none, s0.mem) ∧
    addInt (⟨0, 0xffffffff⟩ : Rel) ((fOne .op1).toRecord .jump .add2 .call).size =
      .fail (.overflow (.address ⟨0, 0xffffffff⟩ (.int 1))) := by decide +kernel

/-- R214: the three failures of the op1 address, with op0 read, empty, and a Felt. -/
theorem witness_UnresolvedOperandsFail_op1 :
    Op0Read ((fOne .op1).toRecord .regular .regular .noOp) (sOne (F 5)) ⟨1, 1⟩ (some (F 5)) (sOne (F 5)).mem ∧
    Op0Read ((fOne .op1).toRecord .regular .regular .noOp) s0 ⟨1, 1⟩ none s0.mem ∧
    computeOp1Address (sOne (F 5)) .imm 0#16 (some (F 5)) = .fail (.immediateOffsetMismatch 0) ∧
    computeOp1Address (sOne (F 5)) .op0 0#16 (some (F 5)) = .fail (.op0NotAddress (F 5)) ∧
    computeOp1Address s0 .op0 0#16 none = .fail .op0Undefined :=
  ⟨fetchOp0_iff.1 (by decide +kernel), fetchOp0_iff.1 (by decide +kernel), by decide +kernel, by decide +kernel,
    by decide +kernel⟩

/-- Variant 5b: `[ap] = [[fp - 1] + 5]` on the inputs G, G, 1 fails with LadderFailure(G, G, 1). -/
def s5b : State := { mk 0x8004#16 [] [(1, R 2 0)] with mem := { ec5b with
  cells := tableInsert ec5b.cells (cellKey ⟨1, 1⟩) (R 2 0) } }
theorem witness_UnresolvedOperandsFail_variant5b :
    (computeOp1Address s5b .op0 5#16 (some (R 2 0)) = .ok ⟨2, 5⟩ ∧
      resolve s5b s5b.mem ⟨1, 2⟩ = .ok (none, s5b.mem) ∧
      resolve s5b s5b.mem ⟨2, 5⟩ = .fail (.ladderFailure g1 g1 (fe 1))) ∧
    (nextOf (exec (.assertEq ⟨0#16, 0xffff#16, 5#16, .ap, .fp, .op0, .op1⟩ .regular .add1) s5b)).map
      (fun t => (t.status, t.pc, t.ap)) =
        some (.failed (.ladderFailure g1 g1 (fe 1)), s5b.pc, s5b.ap) := by decide +kernel

/-- R221: Mul of a Relocatable, in a nop; R232: `ap += -1`, a Relocatable added, and 2^32 - 1 incremented; R228: the
end of segment 0; R231: `jmp rel -1` from pc 0. -/
theorem witness_UnresolvedOperandsFail_updates :
    (readOperands ((fOne .mul).toRecord .regular .regular .noOp) (sOne (R 1 0)) = .ok (oOne (R 1 0)) ∧
      mrMul pL (R 1 0) (R 1 0) = .fail (.forbiddenOperation (R 1 0) (R 1 0))) ∧
    (∀ v ∈ [F (P - 1), R 1 0], readOperands ((fOne .op1).toRecord .regular .add .noOp) (sOne v) = .ok (oOne v) ∧
      computeRes ((fOne .op1).toRecord .regular .add .noOp) (sOne v) (oOne v) = .ok (some v) ∧
      opcodeEffect ((fOne .op1).toRecord .regular .add .noOp) (sOne v) (oOne v) (some v) = .ok (sOne v).mem) ∧
    (∀ r ∈ [(⟨1, 2⟩ : Rel), ⟨0, 0⟩],
      addFelt pL r (fe (P - 1)) = .fail (.overflow (.address r (.val (F (P - 1)))))) ∧
    2 ^ 32 ≤ (⟨1, 0xffffffff⟩ : Rel).off.toNat + 1 ∧
    2 ^ 32 ≤ (⟨0, 0xffffffff⟩ : Rel).off.toNat + ((fOne .op1).toRecord .regular .add .noOp).size.toNat :=
  ⟨by decide +kernel, by decide +kernel, by decide +kernel, by decide, by decide⟩

/-- The fields of `[ap - 1] = [ap] + [ap - 2]` and the operands it reads where [ap] is empty: op0 is inferred
as 3 - 10. -/
def fInfer : Fields := ⟨0xffff#16, 0#16, 0xfffe#16, .ap, .ap, .ap, .add⟩
def sInfer : State := mk 0x8000#16 [0x40307ffe80007fff] [(0, F 10), (1, F 3)]
def oInfer : Operands :=
  ⟨⟨1, 1⟩, ⟨1, 2⟩, F 3, F (P - 7), F 10, some (⟨1, 2⟩, F (P - 7)), sInfer.mem⟩

theorem witness_AssertEqCompletes :
    (readOperands (fInfer.toRecord .regular .regular .assertEq) sInfer = .ok oInfer ∧
      computeRes (fInfer.toRecord .regular .regular .assertEq) sInfer oInfer = .ok (some (F 3)) ∧
      writeInferred sInfer oInfer = .ok (sInfer.mem.set ⟨1, 2⟩ (F (P - 7))) ∧
      memWrite sInfer (sInfer.mem.set ⟨1, 2⟩ (F (P - 7))) ⟨1, 1⟩ (F 3) =
        .ok (sInfer.mem.set ⟨1, 2⟩ (F (P - 7)))) ∧
    PcTarget (fInfer.toRecord .regular .regular .assertEq) sInfer oInfer (some (F 3)) ⟨0, 1⟩ ∧
    PcTarget (fInfer.toRecord .jumpRel .regular .assertEq) sInfer oInfer (some (F 3)) ⟨0, 3⟩ ∧
    PcTarget (fInfer.toRecord .jnz .regular .assertEq) sInfer oInfer (some (F 3)) ⟨0, 10⟩ ∧
    PcTarget (fInfer.toRecord .jump .regular .assertEq) sInfer oInfer (some (R 0 9)) ⟨0, 9⟩ ∧
    ApTarget (fInfer.toRecord .regular .regular .assertEq) sInfer (some (F 3)) ⟨1, 2⟩ :=
  ⟨by decide +kernel, pcNext_ok.1 (by decide +kernel), pcNext_ok.1 (by decide +kernel),
    pcNext_ok.1 (by decide +kernel), pcNext_ok.1 (by decide +kernel), apNext_ok.1 (by decide +kernel)⟩
/-- `[ap - 1] = [fp - 2] + 5` where [ap - 1] holds 7 and [fp - 2] holds 3: res is 8. -/
theorem witness_AssertEqCompletes_conflict :
    readOperands recFilled { sFilled with mem := (mk 0x8000#16 [0, 5] [(0, F 3), (1, F 7)]).mem } =
      .ok ⟨⟨1, 1⟩, ⟨1, 0⟩, F 7, F 3, F 5, none, (mk 0x8000#16 [0, 5] [(0, F 3), (1, F 7)]).mem⟩ ∧
    mrAdd pL (F 3) (F 5) = .ok (F 8) ∧ sFilled.mem.peek ⟨1, 1⟩ = some (F 7) ∧ F 7 ≠ F 8 := by
  decide +kernel

/-- `call rel 5`, and the same fields for the other call rows: `call abs` through [fp - 1]. -/
def fCall : Fields := ⟨0#16, 1#16, 1#16, .ap, .ap, .imm, .op1⟩
def fCallAbs : Fields := ⟨0#16, 1#16, 0xffff#16, .ap, .ap, .fp, .op1⟩
def sCall : State := mk 0x8000#16 [0x1104800180018000, 5] [(1, R 0 9)]
def mCall (ra : MaybeRel) : Memory := (sCall.mem.set ⟨1, 2⟩ (R 1 2)).set ⟨1, 3⟩ ra

/-- The operands of a call by the imm F(5), and of a call to Rel(0, 9). -/
def oCall : Operands := ⟨⟨1, 2⟩, ⟨1, 3⟩, R 1 2, R 0 2, F 5, none, sCall.mem⟩
def oCallAbs : Operands := ⟨⟨1, 2⟩, ⟨1, 3⟩, R 1 2, R 0 1, R 0 9, none, sCall.mem⟩

theorem witness_CallsComplete :
    ((∀ pcu ∈ [PcUpdate.jumpRel, .regular, .jnz],
        readOperands (fCall.toRecord pcu .add2 .call) sCall = .ok oCall ∧
        computeRes (fCall.toRecord pcu .add2 .call) sCall oCall = .ok (some (F 5)) ∧
        sCall.pc.off.toNat + (fCall.toRecord pcu .add2 .call).size.toNat = 2) ∧
      sCall.ap.off.toNat + 2 < 2 ^ 32 ∧
      memWrite sCall sCall.mem ⟨1, 2⟩ (.rel sCall.fp) = .ok (sCall.mem.set ⟨1, 2⟩ (R 1 2)) ∧
      memWrite sCall (sCall.mem.set ⟨1, 2⟩ (R 1 2)) ⟨1, 3⟩ (.rel ⟨0, 2⟩) = .ok (mCall (R 0 2)) ∧
      addFelt sCall.params sCall.pc (fe 5) = .ok ⟨0, 5⟩ ∧ oCall.op1 = .felt (fe 5)) ∧
    (readOperands (fCallAbs.toRecord .jump .add2 .call) sCall = .ok oCallAbs ∧
      computeRes (fCallAbs.toRecord .jump .add2 .call) sCall oCallAbs = .ok (some (.rel ⟨0, 9⟩)) ∧
      sCall.pc.off.toNat + (fCallAbs.toRecord .jump .add2 .call).size.toNat = 1 ∧
      memWrite sCall (sCall.mem.set ⟨1, 2⟩ (R 1 2)) ⟨1, 3⟩ (.rel ⟨0, 1⟩) = .ok (mCall (R 0 1))) := by
  decide +kernel
/-- A filled slot: F(9) in the dst cell, or in the op0 cell. -/
theorem witness_CallsComplete_conflict :
    readOperands (fCall.toRecord .jumpRel .add2 .call) { sCall with mem := sCall.mem.set ⟨1, 2⟩ (F 9) } =
      .ok ⟨⟨1, 2⟩, ⟨1, 3⟩, F 9, R 0 2, F 5, none, sCall.mem.set ⟨1, 2⟩ (F 9)⟩ ∧
    (sCall.mem.set ⟨1, 2⟩ (F 9)).peek ⟨1, 2⟩ = some (F 9) ∧ F 9 ≠ .rel sCall.fp ∧
    readOperands (fCall.toRecord .jumpRel .add2 .call) { sCall with mem := sCall.mem.set ⟨1, 3⟩ (F 9) } =
      .ok ⟨⟨1, 2⟩, ⟨1, 3⟩, R 1 2, F 9, F 5, none, sCall.mem.set ⟨1, 3⟩ (F 9)⟩ ∧
    memWrite sCall (sCall.mem.set ⟨1, 3⟩ (F 9)) ⟨1, 2⟩ (.rel sCall.fp) = .ok (mCall (F 9)) ∧
    (mCall (F 9)).peek ⟨1, 3⟩ = some (F 9) ∧ F 9 ≠ R 0 2 := by decide +kernel

/-- The canonical ret with the caller's fp at [fp - 2] and Rel(0, 5) at [fp - 1]. -/
def sRet : State := mk 0x8000#16 [0x208b7fff7fff7ffe] [(0, R 1 7), (1, R 0 5)]
def oRet : Operands := ⟨⟨1, 0⟩, ⟨1, 1⟩, R 1 7, R 0 5, R 0 5, none, sRet.mem⟩

theorem witness_RetsComplete :
    (readOperands retRec sRet = .ok oRet ∧ computeRes retRec sRet oRet = .ok (some (R 0 5)) ∧
      oRet.dst = .rel ⟨1, 7⟩ ∧
      readOperands (retRec.fields.toRecord .regular .regular .ret) sRet = .ok oRet) ∧
    ApTarget retRec sRet (some (R 0 5)) sRet.ap ∧ PcTarget retRec sRet oRet (some (R 0 5)) ⟨0, 5⟩ ∧
    PcTarget (retRec.fields.toRecord .regular .regular .ret) sRet oRet (some (R 0 5)) ⟨0, 1⟩ :=
  ⟨by decide +kernel, apNext_ok.1 (by decide +kernel), pcNext_ok.1 (by decide +kernel),
    pcNext_ok.1 (by decide +kernel)⟩

/-- Operands [fp - 1] three times: F(4), or Rel(0, 9). -/
def fFp : Fields := ⟨0xffff#16, 0xffff#16, 0xffff#16, .fp, .fp, .fp, .op1⟩
def sFelt : State := mk 0x8000#16 [] [(1, F 4)]
def oFelt : Operands := ⟨⟨1, 1⟩, ⟨1, 1⟩, F 4, F 4, F 4, none, sFelt.mem⟩
def sRel : State := mk 0x8000#16 [] [(1, R 0 9)]
def oRel : Operands := ⟨⟨1, 1⟩, ⟨1, 1⟩, R 0 9, R 0 9, R 0 9, none, sRel.mem⟩

theorem witness_NopsComplete :
    (∀ apu ∈ [ApUpdate.regular, .add1, .add], readOperands (fFp.toRecord .regular apu .noOp) sFelt =
        .ok oFelt ∧ computeRes (fFp.toRecord .regular apu .noOp) sFelt oFelt = .ok (some (F 4)) ∧
      sFelt.pc.off.toNat + (fFp.toRecord .regular apu .noOp).size.toNat < 2 ^ 32) ∧
    sFelt.ap.off.toNat + 1 < 2 ^ 32 ∧
    addFelt sFelt.params sFelt.ap (fe 4) = .ok ⟨1, 6⟩ := by decide +kernel
/-- A Relocatable res for ap += res and jmp rel, and a Relocatable op1 or no res for jnz. -/
theorem witness_forbidden_displacements :
    (readOperands (fFp.toRecord .regular .add .noOp) sRel = .ok oRel ∧
      computeRes (fFp.toRecord .regular .add .noOp) sRel oRel = .ok (some (.rel ⟨0, 9⟩)) ∧
      sRel.pc.off.toNat + (fFp.toRecord .regular .add .noOp).size.toNat < 2 ^ 32) ∧
    (readOperands (fFp.toRecord .jumpRel .regular .noOp) sRel = .ok oRel ∧
      computeRes (fFp.toRecord .jumpRel .regular .noOp) sRel oRel = .ok (some (.rel ⟨0, 9⟩))) ∧
    (readOperands ({ fFp with resLogic := .unconstrained }.toRecord .jnz .regular .noOp) sRel = .ok oRel ∧
      computeRes ({ fFp with resLogic := .unconstrained }.toRecord .jnz .regular .noOp) sRel oRel = .ok none ∧
      oRel.dst ≠ .felt (fe 0) ∧ oRel.op1 = .rel ⟨0, 9⟩) ∧
    (readOperands ({ fFp with resLogic := .unconstrained }.toRecord .jnz .add .noOp) sFelt = .ok oFelt ∧
      computeRes ({ fFp with resLogic := .unconstrained }.toRecord .jnz .add .noOp) sFelt oFelt = .ok none ∧
      pcNext ({ fFp with resLogic := .unconstrained }.toRecord .jnz .add .noOp) sFelt oFelt none =
        .ok ⟨0, 4⟩) := by decide +kernel
/-- The same as a target. -/
theorem witness_JnzCompletes_no_res :
    PcTarget ({ fFp with resLogic := .unconstrained }.toRecord .jnz .add .noOp) sFelt oFelt none ⟨0, 4⟩ :=
  pcNext_ok.1 (by decide +kernel)
theorem witness_JumpsComplete :
    (readOperands (fFp.toRecord .jump .add1 .noOp) sRel = .ok oRel ∧
      computeRes (fFp.toRecord .jump .add1 .noOp) sRel oRel = .ok (some (.rel ⟨0, 9⟩)) ∧
      readOperands (fFp.toRecord .jumpRel .add .noOp) sFelt = .ok oFelt ∧
      computeRes (fFp.toRecord .jumpRel .add .noOp) sFelt oFelt = .ok (some (.felt (fe 4))) ∧
      addFelt sFelt.params sFelt.pc (fe 4) = .ok ⟨0, 4⟩) ∧
    ApTarget (fFp.toRecord .jump .add1 .noOp) sRel (some (.rel ⟨0, 9⟩)) ⟨1, 3⟩ ∧
    ApTarget (fFp.toRecord .jumpRel .add .noOp) sFelt (some (.felt (fe 4))) ⟨1, 6⟩ :=
  ⟨by decide +kernel, apNext_ok.1 (by decide +kernel), apNext_ok.1 (by decide +kernel)⟩

/-- jnz [fp - 2] if [fp - 1] != 0. -/
def fJnz : Fields := ⟨0xffff#16, 0xffff#16, 0xfffe#16, .fp, .fp, .fp, .unconstrained⟩
def sJnz (d : MaybeRel) : State := mk 0x8000#16 [] [(0, F 4), (1, d)]
def oJnz (d : MaybeRel) : Operands := ⟨⟨1, 1⟩, ⟨1, 1⟩, d, d, F 4, none, (sJnz d).mem⟩

theorem witness_JnzCompletes :
    (∀ d ∈ [F 0, F 1, R 1 5], readOperands (fJnz.toRecord .jnz .regular .noOp) (sJnz d) = .ok (oJnz d) ∧
      computeRes (fJnz.toRecord .jnz .regular .noOp) (sJnz d) (oJnz d) = .ok none ∧
      (sJnz d).pc.off.toNat + (fJnz.toRecord .jnz .regular .noOp).size.toNat < 2 ^ 32 ∧
      addFelt (sJnz d).params (sJnz d).pc (fe 4) = .ok ⟨0, 4⟩) ∧
    (∀ d, ApTarget (fJnz.toRecord .jnz .regular .noOp) (sJnz d) none (sJnz d).ap) ∧
    (oJnz (F 0)).dst = .felt Felt.zero ∧ (oJnz (R 1 5)).dst ≠ .felt Felt.zero :=
  ⟨by decide +kernel, fun _ => rfl, by decide, by decide⟩

/-- The state after `call rel 5`, which is also the state in which the ret is executed. -/
def tCall : State := sCall.commit (mCall (R 0 2)) ⟨0, 5⟩ ⟨1, 4⟩ ⟨1, 4⟩

theorem witness_RetUndoesCall : (Instr.callRel fCall .add2).record =
      some (fCall.toRecord .jumpRel .add2 .call) ∧
    Pinned sCall ∧ sCall.status = .running ∧ exec (.callRel fCall .add2) sCall = .next tCall ∧
    tCall.status = .running ∧ KeepsCells tCall.mem tCall.mem :=
  ⟨rfl, by decide, by decide, next_of (by decide +kernel), by decide, fun _ _ h => h⟩

theorem witness_PinnedTargetsRefused :
    (readOperands (fFp.toRecord .jump .regular .noOp) sFelt = .ok oFelt ∧
      computeRes (fFp.toRecord .jump .regular .noOp) sFelt oFelt = .ok (some (F 4)) ∧
      ∀ t : Rel, F 4 = .rel t → t.seg ≠ 0) ∧
    (readOperands (fFp.toRecord .jump .regular .ret) sRel = .ok oRel ∧
      computeRes (fFp.toRecord .jump .regular .ret) sRel oRel = .ok (some (R 0 9)) ∧
      pcNext (fFp.toRecord .jump .regular .ret) sRel oRel (some (R 0 9)) = .ok ⟨0, 9⟩ ∧
      apNext (fFp.toRecord .jump .regular .ret) sRel (some (R 0 9)) = .ok sRel.ap ∧
      ∀ t : Rel, oRel.dst = .rel t → t.seg ≠ 1) ∧
    (readOperands (fCall.toRecord .jumpRel .add1 .call) sCall =
        .ok ⟨⟨1, 2⟩, ⟨1, 3⟩, R 1 2, R 0 2, F 5, none, sCall.mem⟩ ∧
      opcodeEffect (fCall.toRecord .jumpRel .add1 .call) sCall
        ⟨⟨1, 2⟩, ⟨1, 3⟩, R 1 2, R 0 2, F 5, none, sCall.mem⟩ (some (F 5)) = .ok (mCall (R 0 2)) ∧
      pcNext (fCall.toRecord .jumpRel .add1 .call) sCall ⟨⟨1, 2⟩, ⟨1, 3⟩, R 1 2, R 0 2, F 5, none, sCall.mem⟩
        (some (F 5)) = .ok ⟨0, 5⟩ ∧
      apNext (fCall.toRecord .jumpRel .add1 .call) sCall (some (F 5)) = .ok ⟨1, 3⟩) :=
  ⟨⟨by decide +kernel, by decide +kernel, fun _ h => by cases h⟩,
    ⟨by decide +kernel, by decide +kernel, by decide +kernel, by decide +kernel,
      fun _ h => by cases h; decide⟩, by decide +kernel⟩

/-- A Jump to F(4) with each other opcode: call abs [fp - 1], ret and assert_eq. -/
theorem witness_PinnedTargetsRefused_rows :
    (readOperands (fCallAbs.toRecord .jump .add2 .call) sFelt =
        .ok ⟨⟨1, 2⟩, ⟨1, 3⟩, R 1 2, R 0 1, F 4, none, sFelt.mem⟩ ∧
      opcodeEffect (fCallAbs.toRecord .jump .add2 .call) sFelt
        ⟨⟨1, 2⟩, ⟨1, 3⟩, R 1 2, R 0 1, F 4, none, sFelt.mem⟩ (some (F 4)) =
          .ok ((sFelt.mem.set ⟨1, 2⟩ (R 1 2)).set ⟨1, 3⟩ (R 0 1))) ∧
    (readOperands (fFp.toRecord .jump .regular .ret) sFelt = .ok oFelt ∧
      opcodeEffect (fFp.toRecord .jump .regular .ret) sFelt oFelt (some (F 4)) = .ok sFelt.mem) ∧
    (readOperands (fFp.toRecord .jump .regular .assertEq) sFelt = .ok oFelt ∧
      opcodeEffect (fFp.toRecord .jump .regular .assertEq) sFelt oFelt (some (F 4)) = .ok sFelt.mem) := by
  decide +kernel

theorem witness_InstructionRegisterFrame : (Instr.callRel fCall .add2).record =
      some (fCall.toRecord .jumpRel .add2 .call) ∧
    exec (.callRel fCall .add2) sCall = .next tCall ∧
    (Instr.assertEq fInfer .regular .regular).record = some (fInfer.toRecord .regular .regular .assertEq) ∧
    (nextOf (exec (.assertEq fInfer .regular .regular) sInfer)).isSome = true :=
  ⟨rfl, next_of (by decide +kernel), rfl, by decide +kernel⟩
/-- A cell away from the dst cell Rel(1, 2) and the op0 cell Rel(1, 3) of the call, and from the dst cell
Rel(1, 1) and the inferred cell Rel(1, 2) of the assert. -/
theorem witness_InstructionMemoryFrame : ecOutput sCall.cfg ⟨1, 9⟩ = none ∧
    computeAddress sCall .ap 0#16 = .ok ⟨1, 2⟩ ∧ computeAddress sCall .ap 1#16 = .ok ⟨1, 3⟩ ∧
    computeAddress sInfer .ap 0xffff#16 = .ok ⟨1, 1⟩ ∧ oInfer.inferred = some (⟨1, 2⟩, F (P - 7)) ∧
    (⟨1, 9⟩ : Rel) ≠ ⟨1, 2⟩ ∧ (⟨1, 9⟩ : Rel) ≠ ⟨1, 3⟩ ∧ (⟨1, 9⟩ : Rel) ≠ ⟨1, 1⟩ := by decide

/-- With the ECU active: `[ap] = [[fp - 1] + 5]` reads an output of instance 0, and the output cell 12 of
instance 1 is none of it. -/
def sRead : State :=
  { sEc with mem := ((ecInputs.set ⟨2, 5⟩ (.felt g3.x)).set ⟨2, 6⟩ (.felt g3.y)).set ⟨1, 1⟩ (R 2 0) }
def fRead : Fields := ⟨0#16, 0xffff#16, 5#16, .ap, .fp, .op0, .op1⟩

theorem witness_InstructionMemoryFrame_ecu :
    (nextOf (exec (.assertEq fRead .regular .add1) sRead)).isSome = true ∧ ecOutput sRead.cfg ⟨2, 12⟩ = some 1 ∧
    computeAddress sRead .ap 0#16 = .ok ⟨1, 2⟩ ∧ ecOutput sRead.cfg ⟨1, 2⟩ = none ∧
    computeAddress sRead .fp 0xffff#16 = .ok ⟨1, 1⟩ ∧ ecOutput sRead.cfg ⟨1, 1⟩ = none ∧
    fetchOp0 (fRead.toRecord .regular .add1 .assertEq) sRead ⟨1, 1⟩ = .ok (some (R 2 0), sRead.mem) ∧
    computeOp1Address sRead .op0 5#16 (some (R 2 0)) = .ok ⟨2, 5⟩ ∧ ecOutput sRead.cfg ⟨2, 5⟩ = some 0 := by
  decide +kernel

end Sys2Proof.Tests
end

section
/-! Proofs of the family 10_state: which steps exist and what they leave unchanged (R22 to R29, R31, R36), what a
launch makes of the state (R28, R38, R271, R272), and the invariant at reset. -/

namespace Sys2Proof.Machine

/-! ### How an instruction ends -/

/-- The fp update of a row is a function of its opcode (R94). -/
theorem record_fpUpdate {i : Instr} {r : Instruction} (h : i.record = some r) : r.fpUpdate = decFp r.opcode := by
  cases i <;> cases h <;> rfl

/-- An instruction of the 64-bit format commits its sub-steps, fails or is refused (R234). -/
theorem exec_record_next {i : Instr} {r : Instruction} {s t : State} (h : i.record = some r)
    (ht : exec i s = .next t) :
    (∃ o res m npc nap nfp, apNext r s res = .ok nap ∧ fpNext r s o = .ok nfp ∧ t = s.commit m npc nap nfp) ∨
      (∃ f, t = s.fail f) ∨ ∃ q, t = s.refuse q := by
  rw [exec_record s h] at ht
  rcases stepOutcome_next s (vmBody r s) with ⟨u, hu, e⟩ | ⟨f, -, e⟩ | ⟨q, -, e⟩ <;> rw [e] at ht <;> cases ht
  · obtain ⟨o, res, m, npc, nap, nfp, -, -, -, -, hap, hfp, rfl⟩ := vmBody_ok hu
    exact .inl ⟨o, res, m, npc, nap, nfp, hap, hfp, rfl⟩
  · exact .inr (.inl ⟨f, rfl⟩)
  · exact .inr (.inr ⟨q, rfl⟩)

/-- The command SIG_SET (R185). -/
theorem exec_sigSet (off : U32) (r q : BitVec 256) (s : State) :
    exec (.sigSet off r q) s = execSigSet off r q s := rfl

/-- A unit command is its unit's answer on the port; SIG_SET before the start enters its pair first (R14, R185). -/
theorem exec_command {i : Instr} (s : State) (h : i.record = none) :
    (∃ x, exec i s = unitOutcome s x) ∨
      ∃ off r q tab, i = .sigSet off r q ∧ s.started = false ∧
        exec i s = unitOutcome (s.setSigTab tab) (.ok .unit) := by
  cases i with
  | assertEq | callAbs | callRel | call | ret | retAny | nop | jmpAbs | jmpRel | jnz | apAdd | nopApInc => cases h
  | sigSet off r q =>
    rw [exec_sigSet, execSigSet]
    split
    · exact .inl ⟨_, rfl⟩
    · split
      · exact .inl ⟨_, rfl⟩
      · next hs => exact .inr ⟨off, r, q, _, rfl, Bool.eq_false_iff.2 hs, rfl⟩
  | reduce n => exact .inl ⟨.ok (.felt (Fau.reduce s.params.prime n)), rfl⟩
  | _ => exact .inl ⟨_, rfl⟩

/-- What a unit command changes: the outcome on the port, the draw counter after a failure, and SIG_TAB by a SIG_SET
before the start (R14, R185). -/
theorem exec_command_next {i : Instr} {s t : State} (h : i.record = none) (ht : exec i s = .next t) :
    (∃ o, t = s.answer o) ∨ (∃ f, t = s.answerFail f) ∨
      ∃ off r q tab, i = .sigSet off r q ∧ s.started = false ∧ t = (s.setSigTab tab).answer (.ok .unit) := by
  rcases exec_command s h with ⟨x, e⟩ | ⟨off, r, q, tab, hi, hs, e⟩ <;> rw [e] at ht
  · rcases unitOutcome_next s x with ⟨v, -, e⟩ | ⟨f, -, e⟩ | ⟨q, -, e⟩ <;> rw [e] at ht <;> cases ht
    · exact .inl ⟨_, rfl⟩
    · exact .inr (.inl ⟨f, rfl⟩)
    · exact .inl ⟨_, rfl⟩
  · cases ht
    exact .inr (.inr ⟨off, r, q, tab, hi, hs, rfl⟩)

/-- Every instruction ends in a next state. -/
theorem exec_next (i : Instr) (s : State) : ∃ t, exec i s = .next t := by
  cases h : i.record with
  | some r =>
    rw [exec_record s h]
    cases vmBody r s <;> exact ⟨_, rfl⟩
  | none =>
    rcases exec_command s h with ⟨x, e⟩ | ⟨_, _, _, tab, -, -, e⟩ <;> rw [e]
    · cases x <;> exact ⟨_, rfl⟩
    · exact ⟨_, rfl⟩

/-- A pending command decodes to a unit command, never to an instruction of the 64-bit format (R105). -/
theorem decodeRequest_record {q : Request} {i : Instr} (h : decodeRequest q = some i) : i.record = none := by
  unfold decodeRequest at h
  split at h <;> cases h <;> rfl

/-! ### How a step ends -/

/-- With STATUS not running no VM step begins (R36). -/
theorem beginStep_over {s : State} (h : s.status ≠ .running) : beginStep s = .over := if_neg h

/-- A VM step begins only while STATUS is running (R36). -/
theorem beginStep_running {s : State} (h : beginStep s ≠ .over) : s.status = .running :=
  not_imp_comm.1 beginStep_over h

/-- A running VM step halts, fails or is refused before its instruction, or executes it, from the state after the
hints with the run started (R207, R210, R272). -/
theorem beginStep_shape {s : State} (hr : s.status = .running) :
    (∃ m n t, beginStep s = .ended t ∧
      (t = (s.begin m n).halt ∨ (∃ f, t = (s.begin m n).fail f) ∨ ∃ r, t = (s.begin m n).refuse r)) ∨
    ∃ m n i, beginStep s = .run i (s.begin m n) := by
  rcases beginStep_cases hr with ⟨-, h⟩ | ⟨-, f, n, h⟩ | ⟨-, r, n, h⟩ | ⟨-, d, n, -, -, h⟩ |
    ⟨-, d, n, i, -, -, -, h⟩
  · exact .inl ⟨s.mem, 0, _, h, .inl rfl⟩
  · exact .inl ⟨s.mem, n, _, h, .inr (.inl ⟨f, rfl⟩)⟩
  · exact .inl ⟨s.mem, n, _, h, .inr (.inr ⟨r, rfl⟩)⟩
  · exact .inl ⟨d.mem, n, _, h, .inl rfl⟩
  · exact .inr ⟨d.mem, n, i, h⟩

/-- With STATUS not running and no command pending there is no step (R36; log 13). -/
theorem step_over {s : State} (h : s.status ≠ .running) (hp : s.port = none) : step s = .fault .runEnded := by
  simp [step, hp, beginStep_over h]

/-- A pending command has a next state, whatever STATUS is (R105; log 3). -/
theorem step_command_next {s : State} {q : Request} (hp : s.port = some q) : ∃ t, step s = .next t := by
  cases hq : decodeRequest q with
  | some i => simpa [step, hp, hq] using exec_next i s.takeRequest
  | none => exact ⟨unknownCommand s, by simp [step, hp, hq]⟩

/-- A running state without a pending command has a next state (R36, R207). -/
theorem step_running_next {s : State} (hr : s.status = .running) (hp : s.port = none) : ∃ t, step s = .next t := by
  rcases beginStep_shape hr with ⟨m, n, t, h, -⟩ | ⟨m, n, i, h⟩
  · exact ⟨t, by simp [step, hp, h]⟩
  · obtain ⟨v, hv⟩ := exec_next i (s.begin m n)
    exact ⟨s.restoreOnAbort v, by simp [step, hp, h, hv, restoreOutcome]⟩

/-- A step that serves a command changes neither STATUS, MEM nor the registers (log 2). -/
theorem step_command_frame {s t : State} (hp : s.port ≠ none) (h : step s = .next t) :
    t.status = s.status ∧ t.mem = s.mem ∧ t.pc = s.pc ∧ t.ap = s.ap ∧ t.fp = s.fp := by
  rcases step_next h with ⟨q, i, -, hi, he⟩ | ⟨q, -, -, rfl⟩ | ⟨hn, -⟩ | ⟨i, u, v, hn, -⟩
  · rcases exec_command_next (decodeRequest_record hi) he with ⟨o, rfl⟩ | ⟨f, rfl⟩ | ⟨_, _, _, _, -, -, rfl⟩ <;>
      simp
  · simp [unknownCommand]
  · exact absurd hn hp
  · exact absurd hn hp

/-! ### What no step writes -/

/-- `t` has the launch configuration of `s` (R26, R27, R29, R271): what is written before the start and never after. -/
structure ConfigKept (s t : State) : Prop where
  cfg : t.cfg = s.cfg
  params : t.params = s.params
  programEnd : t.programEnd = s.programEnd
  hints : t.hints = s.hints
  started : s.started = true → t.started = true ∧ t.sigTab = s.sigTab

theorem ConfigKept.trans {s t u : State} (h : ConfigKept s t) (h' : ConfigKept t u) : ConfigKept s u where
  cfg := h'.cfg.trans h.cfg
  params := h'.params.trans h.params
  programEnd := h'.programEnd.trans h.programEnd
  hints := h'.hints.trans h.hints
  started hs :=
    have ⟨ht, htab⟩ := h.started hs
    have ⟨hu, htab'⟩ := h'.started ht
    ⟨hu, htab'.trans htab⟩

theorem ConfigKept.takeRequest (s : State) : ConfigKept s s.takeRequest := by constructor <;> simp

theorem ConfigKept.begin (s : State) (m : Memory) (n : Nat) : ConfigKept s (s.begin m n) := by constructor <;> simp

theorem ConfigKept.halt (s : State) : ConfigKept s s.halt := by constructor <;> simp

theorem ConfigKept.fail (s : State) (f : Failure) : ConfigKept s (s.fail f) := by constructor <;> simp

theorem ConfigKept.refuse (s : State) (r : Refuse) : ConfigKept s (s.refuse r) := by constructor <;> simp

/-- A restored step has the configuration it had before the restoration (R234). -/
theorem ConfigKept.restoreOnAbort (s t : State) : ConfigKept t (s.restoreOnAbort t) := by
  unfold State.restoreOnAbort
  split <;> constructor <;> simp

/-- No instruction writes the configuration; SIG_SET writes SIG_TAB only before the start (R185). -/
theorem ConfigKept.of_exec {i : Instr} {s t : State} (h : exec i s = .next t) : ConfigKept s t := by
  cases hi : i.record with
  | some r =>
    rcases exec_record_next hi h with ⟨o, res, m, npc, nap, nfp, -, -, rfl⟩ | ⟨f, rfl⟩ | ⟨q, rfl⟩
    · constructor <;> simp
    · exact .fail s f
    · exact .refuse s q
  | none =>
    rcases exec_command_next hi h with ⟨o, rfl⟩ | ⟨f, rfl⟩ | ⟨off, r, q, tab, -, hs, rfl⟩
    · constructor <;> simp
    · constructor <;> simp
    · constructor <;> simp [hs]

/-- A VM step that ends before its instruction writes no configuration. -/
theorem ConfigKept.of_ended {s t : State} (h : beginStep s = .ended t) : ConfigKept s t := by
  have running : s.status = .running := beginStep_running (by simp [h])
  rcases beginStep_shape running with ⟨m, n, u, e, hu⟩ | ⟨m, n, i, e⟩ <;> rw [e] at h <;> cases h
  rcases hu with rfl | ⟨f, rfl⟩ | ⟨r, rfl⟩
  · exact (ConfigKept.begin s m n).trans (.halt _)
  · exact (ConfigKept.begin s m n).trans (.fail _ f)
  · exact (ConfigKept.begin s m n).trans (.refuse _ r)

/-- Nor does a VM step up to its instruction. -/
theorem ConfigKept.of_run {s u : State} {i : Instr} (h : beginStep s = .run i u) : ConfigKept s u := by
  have running : s.status = .running := beginStep_running (by simp [h])
  rcases beginStep_shape running with ⟨m, n, t, e, -⟩ | ⟨m, n, j, e⟩ <;> rw [e] at h <;> cases h
  exact .begin s m n

/-- No step writes the configuration. -/
theorem ConfigKept.of_step {s t : State} (h : step s = .next t) : ConfigKept s t := by
  rcases step_next h with ⟨q, i, -, -, he⟩ | ⟨q, -, -, rfl⟩ | ⟨-, hb⟩ | ⟨i, u, v, -, hb, he, rfl⟩
  · exact (ConfigKept.takeRequest s).trans (ConfigKept.of_exec he)
  · constructor <;> simp [unknownCommand]
  · exact ConfigKept.of_ended hb
  · exact ((ConfigKept.of_run hb).trans (ConfigKept.of_exec he)).trans (.restoreOnAbort s v)

/-! ### Reset and launch -/

/-- P at reset is the default of R136 (log 8). -/
theorem State.reset_prime : State.reset.params.prime = Config.fieldPrime := rfl

/-- A CFG is legal when its exponent is at most 251 and its reserved bits are zero (R28). -/
theorem cfgLegal_iff {cfg : BitVec 16} : cfgLegal cfg = true ↔ rcBoundExp cfg ≤ 251 ∧ cfgReserved cfg = 0 := by
  rw [cfgLegal, Bool.and_eq_true, decide_eq_true_eq, decide_eq_true_eq]
  rfl

/-- A legal launch is boot steps 2 to 6 and the start (R272). -/
theorem boot_legal {p : Params} {l : Launch} (h : cfgLegal l.cfg = true) : boot p l = (bootSetup p l).start :=
  if_pos h

/-- A launch with an illegal CFG leaves the reset state, refused and not started (R28; log 23). -/
theorem boot_illegal {p : Params} {l : Launch} (h : ¬ cfgLegal l.cfg = true) :
    boot p l = { State.reset with params := p, started := false, status := .refused .badConfig } :=
  if_neg h

/-- SIG_TAB after a legal launch is what the SIG_SET calls of boot step 5 make of none (R272). -/
theorem boot_sigTab {p : Params} {l : Launch} (h : cfgLegal l.cfg = true) :
    (boot p l).sigTab = placeSignatures l.cfg l.signatures none := by
  rw [boot_legal h]; rfl

/-- MEM after a legal launch is what boot steps 3 and 4 make of the empty segments (R272). -/
theorem boot_mem {p : Params} {l : Launch} (h : cfgLegal l.cfg = true) :
    (boot p l).mem = placeCells p.prime l.launchCells
      (placeProgram p.prime l.program 0 ⟨initialSegments l.cfg, []⟩) := by
  rw [boot_legal h]; rfl

/-- With no segment written every cell is empty. -/
theorem Memory.peek_empty (n : Nat) (a : Rel) : (⟨n, []⟩ : Memory).peek a = none := ite_self _

section Placing

variable {P : Nat}

@[simp] theorem placeProgram_count (prog : List Felt) (o : Nat) (m : Memory) :
    (placeProgram P prog o m).count = m.count := by
  induction prog generalizing o m with
  | nil => rfl
  | cons v rest ih => exact ih (o + 1) _

@[simp] theorem placeCells_count (cells : List (U32 × MaybeRel)) (m : Memory) :
    (placeCells P cells m).count = m.count := by
  induction cells generalizing m with
  | nil => rfl
  | cons c rest ih => exact ih _

/-- The loader writes only the cells from offset `o` of segment 0 on, one for each element. -/
theorem placeProgram_peek_other {prog : List Felt} {o : Nat} {m : Memory} {a : Rel}
    (h : ∀ n < prog.length, a ≠ ⟨0, BitVec.ofNat 32 (o + n)⟩) : (placeProgram P prog o m).peek a = m.peek a := by
  induction prog generalizing o m with
  | nil => rfl
  | cons v rest ih =>
    have rest_other : ∀ n < rest.length, a ≠ ⟨0, BitVec.ofNat 32 (o + 1 + n)⟩ := fun n hn => by
      rw [show o + 1 + n = o + (n + 1) by omega]
      exact h (n + 1) (by simpa using hn)
    rw [placeProgram, ih rest_other, Memory.peek_set_other _ _ (by simpa using h 0 (by simp))]

/-- Element `n` of PROGRAM, reduced, is in cell `o + n` of segment 0 (R272 step 3, R137). -/
theorem placeProgram_peek {prog : List Felt} {o n : Nat} {m : Memory} (hm : 0 < m.count)
    (hlen : o + prog.length ≤ 2 ^ 32) (hn : n < prog.length) :
    (placeProgram P prog o m).peek ⟨0, BitVec.ofNat 32 (o + n)⟩ = some (.ofNat P prog[n].val) := by
  induction prog generalizing o n m with
  | nil => simp at hn
  | cons v rest ih =>
    rw [List.length_cons] at hlen hn
    rw [placeProgram]
    cases n with
    | zero =>
      simp only [Nat.add_zero]
      rw [placeProgram_peek_other, Memory.peek_set_same _ ⟨0, _⟩ _ hm]
      · rfl
      · intro k hk e
        have := congrArg (fun a : Rel => a.off.toNat) e
        simp only [BitVec.toNat_ofNat] at this
        omega
    | succ n =>
      rw [show o + (n + 1) = o + 1 + n by omega]
      exact ih (by simpa using hm) (by omega) (by omega)

/-- LAUNCH_CELLS are written only to the cells of segment 1 that they name. -/
theorem placeCells_peek_other {cells : List (U32 × MaybeRel)} {m : Memory} {a : Rel}
    (h : ∀ o ∈ cells.map Prod.fst, a ≠ ⟨1, o⟩) : (placeCells P cells m).peek a = m.peek a := by
  induction cells generalizing m with
  | nil => rfl
  | cons c rest ih =>
    rw [List.map_cons, List.forall_mem_cons] at h
    rw [placeCells, ih h.2, Memory.peek_set_other _ _ h.1]

/-- Every entry of LAUNCH_CELLS, a map, is in its cell of segment 1, reduced (R272 step 4, R137). -/
theorem placeCells_peek {cells : List (U32 × MaybeRel)} {m : Memory} (hm : 1 < m.count)
    (hnd : (cells.map Prod.fst).Nodup) {c : U32 × MaybeRel} (hc : c ∈ cells) :
    (placeCells P cells m).peek ⟨1, c.1⟩ = some (c.2.reduce P) := by
  induction cells generalizing m with
  | nil => cases hc
  | cons e rest ih =>
    rw [List.map_cons, List.nodup_cons] at hnd
    rw [placeCells]
    rcases List.mem_cons.1 hc with rfl | hc
    · rw [placeCells_peek_other, Memory.peek_set_same _ ⟨1, _⟩ _ hm]
      rintro o ho ⟨⟩
      exact hnd.1 ho
    · exact ih (by simpa using hm) hnd.2 hc

end Placing

section Boot

variable {p : Params} {l : Launch} (hcfg : cfgLegal l.cfg = true)
include hcfg

/-- A legal launch makes a segment for each active builtin after segments 0 and 1 (R70). -/
theorem boot_count : (boot p l).mem.count = initialSegments l.cfg := by
  rw [boot_mem hcfg, placeCells_count, placeProgram_count]

/-- Element `n` of PROGRAM, reduced, is in cell `n` of segment 0 after a legal launch (R272 step 3). -/
theorem boot_peek_program (hlen : l.program.length ≤ 2 ^ 32) {n : Nat} (hn : n < l.program.length) :
    (boot p l).mem.peek ⟨0, BitVec.ofNat 32 n⟩ = some (.ofNat p.prime l.program[n].val) := by
  have segment0 : 0 < initialSegments l.cfg := by unfold initialSegments; omega
  rw [boot_mem hcfg, placeCells_peek_other (by simp)]
  simpa using placeProgram_peek (P := p.prime) (o := 0) (m := ⟨initialSegments l.cfg, []⟩) segment0
    (by simpa using hlen) hn

/-- An entry of LAUNCH_CELLS, reduced, is in its cell of segment 1 after a legal launch (R272 step 4). -/
theorem boot_peek_cell (hnd : (l.launchCells.map Prod.fst).Nodup) {c : U32 × MaybeRel} (hc : c ∈ l.launchCells) :
    (boot p l).mem.peek ⟨1, c.1⟩ = some (c.2.reduce p.prime) := by
  have segment1 : 1 < initialSegments l.cfg := by unfold initialSegments; omega
  rw [boot_mem hcfg]
  exact placeCells_peek (by simpa using segment1) hnd hc

/-- A cell that neither PROGRAM nor LAUNCH_CELLS names is empty after a legal launch (R272). -/
theorem boot_peek_none {a : Rel} (hprog : ∀ n < l.program.length, a ≠ ⟨0, BitVec.ofNat 32 n⟩)
    (hcells : ∀ o ∈ l.launchCells.map Prod.fst, a ≠ ⟨1, o⟩) : (boot p l).mem.peek a = none := by
  rw [boot_mem hcfg, placeCells_peek_other hcells, placeProgram_peek_other (by simpa using hprog), Memory.peek_empty]

end Boot

end Sys2Proof.Machine

namespace Sys2Proof

open Machine

/-- Settles O28: the three ways a unit command ends (`exec_command_next`). -/
theorem unitCommandFrame : Obligations.UnitCommandFrame := by
  unfold Obligations.UnitCommandFrame
  intro i s t hi ht
  rcases exec_command_next hi ht with ⟨o, rfl⟩ | ⟨f, rfl⟩ | ⟨off, r, q, tab, rfl, -, rfl⟩
  · simp
  · simp
  · simp

/-- Settles O59: ap is what its update makes of it, fp what the opcode's fp update does (R94, R232, R233), and an
abort leaves both. -/
theorem instructionRegisterFrame : Obligations.InstructionRegisterFrame := by
  unfold Obligations.InstructionRegisterFrame
  intro i r s t hi ht
  rcases exec_record_next hi ht with ⟨o, res, m, npc, nap, nfp, hap, hfp, rfl⟩ | ⟨f, rfl⟩ | ⟨q, rfl⟩
  · have ap_kept : r.apUpdate = .regular → nap = s.ap := fun hr => by
      simpa [ApTarget, hr] using apNext_ok.1 hap
    have fp_kept : r.opcode = .noOp ∨ r.opcode = .assertEq → nfp = s.fp := fun hr => by
      have hu : r.fpUpdate = .regular := by
        rw [record_fpUpdate hi]
        rcases hr with hr | hr <;> rw [hr] <;> rfl
      simpa [fpNext, hu, eq_comm] using hfp
    simpa using ⟨ap_kept, fp_kept⟩
  · simp
  · simp

/-- Settles O11: a command is always answered, a VM step always ends in a next state, and no VM step begins after the
run. -/
theorem stepsExistExactlyWhileRunning : Obligations.StepsExistExactlyWhileRunning := by
  unfold Obligations.StepsExistExactlyWhileRunning
  refine fun s => ⟨fun h => ?_, step_over, fun t hs ht => ?_⟩
  · cases hp : s.port with
    | some q => exact step_command_next hp
    | none => exact step_running_next (h.resolve_right (absurd hp)) hp
  · refine step_command_frame (fun hp => ?_) ht
    rw [step_over hs hp] at ht
    cases ht

/-- Settles O18: each part of a step keeps the configuration (`ConfigKept`). -/
theorem configurationIsReadOnly : Obligations.ConfigurationIsReadOnly := by
  unfold Obligations.ConfigurationIsReadOnly
  intro s t h
  obtain ⟨hcfg, hparams, hend, hhints, hstarted⟩ := ConfigKept.of_step h
  exact ⟨hcfg, hparams, hend, hhints, hstarted⟩

/-- Settles O15: the reset state has no filled cell and no table, and P is the prime of R136. -/
theorem resetMeetsInvariant : Obligations.ResetMeetsInvariant where
  mem := ⟨.nil, List.forall_mem_nil _, by decide⟩
  segments := by decide
  prime := by rw [State.reset_prime]; exact fieldPrime_prime.pos
  canonical := List.forall_mem_nil _
  status := rfl
  unitOut := fun _ h => by cases h
  pinned := ⟨rfl, rfl, rfl⟩
  cfg := by decide
  sigTab := fun _ h => by cases h

/-- Settles O19: the two branches of `boot`, and SIG_TAB by the calls of boot step 5. -/
theorem launchChecksConfiguration : Obligations.LaunchChecksConfiguration := by
  unfold Obligations.LaunchChecksConfiguration
  refine ⟨fun p l h => ?_, fun p l hexp hres => ?_, ?_⟩
  · have illegal : ¬ cfgLegal l.cfg = true := fun hl => by
      obtain ⟨hexp, hres⟩ := cfgLegal_iff.1 hl
      exact h.elim (by omega) (absurd hres)
    rw [boot_illegal illegal]
    exact ⟨rfl, step_over (fun h => by cases h) rfl⟩
  · have legal := cfgLegal_iff.2 ⟨hexp, hres⟩
    rw [boot_sigTab legal, boot_legal legal]
    refine ⟨rfl, rfl, rfl, rfl, rfl, rfl, rfl, rfl, rfl, ?_, fun hne hact => ?_⟩
    · rintro (hnil | hact)
      · rw [hnil]; rfl
      · exact placeSignatures_inactive hact _ _
    · obtain ⟨tab, htab, hlookup⟩ := placeSignatures_lookup hact hne none
      exact ⟨tab, htab, fun o => by simpa [tableLookup] using hlookup o⟩
  · exact boot_legal (by decide)

/-- Settles O20: the loader and then LAUNCH_CELLS write their own cells of segments 0 and 1 and no other. -/
theorem launchPlacesProgram : Obligations.LaunchPlacesProgram := by
  unfold Obligations.LaunchPlacesProgram
  intro p l hcfg hlen hnd
  refine ⟨fun n hn => boot_peek_program hcfg hlen hn, fun o ho => ?_, fun c hc => ?_, fun o ho => ?_,
    fun a ha => ?_, ?_⟩
  · refine boot_peek_none hcfg (fun n hn e => ?_) (by simp)
    have := congrArg (fun a : Rel => a.off.toNat) e
    simp only [BitVec.toNat_ofNat] at this
    omega
  · rw [boot_peek_cell hcfg hnd hc]
    exact ⟨fun r hr => by rw [hr]; rfl, fun v hv => by rw [hv]; rfl⟩
  · refine boot_peek_none hcfg (by simp) fun o' ho' e => ho ?_
    cases e
    exact ho'
  · refine boot_peek_none hcfg ?_ ?_ <;> rintro _ _ rfl <;> simp at ha
  · rw [boot_count hcfg, initialSegments, Bool.toNat]
    cases rcActive l.cfg <;> cases sigActive l.cfg <;> cases ecActive l.cfg <;> rfl

end Sys2Proof
end

section
/-! Proofs of the family 20_memory: address arithmetic and the MaybeRel operators (R49 to R59), MemWrite, the
allocation of a segment and the write-once memory (R61 to R69). -/

namespace Sys2Proof.Machine

/-! ### Address arithmetic -/

section Address

variable {par : Params} {r : Rel} {v : Felt}

@[simp] theorem withOff_withOff (r : Rel) (m n : Nat) : withOff (withOff r m) n = withOff r n := rfl

@[simp] theorem withOff_self (r : Rel) : withOff r r.off.toNat = r := by simp [withOff]

/-- addInt answers the exact address where the offset stays in range (R50). -/
theorem addInt_in_range {k : Int} (hlow : 0 ≤ (r.off.toNat : Int) + k)
    (hhigh : (r.off.toNat : Int) + k ≤ 2 ^ 32 - 1) : addInt r k = .ok (withOff r (r.off.toNat + k).toNat) := by
  unfold addInt
  split
  · rw [if_pos (by omega)]
    congr 2; omega
  · rw [if_pos (by omega)]
    congr 2; omega

/-- An offset beyond the last is Overflow, also for an integer (R50). -/
theorem addInt_above {k : Int} (h : (r.off.toNat : Int) + k > 2 ^ 32 - 1) :
    addInt r k = .fail (.overflow (.address r (.int k))) := by
  have := r.off.isLt
  obtain ⟨n, rfl⟩ := Int.eq_ofNat_of_zero_le (show 0 ≤ k by omega)
  exact addInt_overflow (by omega)

/-- An offset below the first is Underflow (R50). -/
theorem addInt_underflow {k : Int} (h : (r.off.toNat : Int) + k < 0) : addInt r k = .fail (.underflow r (.int k)) := by
  unfold addInt
  rw [if_neg (by omega), if_neg (by omega)]

/-- A computation that checks its offset answers the address at that offset where the check passes. -/
theorem withOff_checked {inRange check : Prop} [Decidable inRange] [Decidable check] {x : Res Rel} {o : Nat}
    {f : Failure} (hx : x = if check then .ok (withOff r o) else .fail f) (hcheck : inRange ↔ check)
    (ho : inRange → o < 4294967296) :
    if inRange then ∃ t, x = .ok t ∧ t.seg = r.seg ∧ t.off.toNat = o else x = .fail f := by
  subst hx
  split
  · next h => exact ⟨withOff r o, if_pos (hcheck.1 h), rfl, withOff_off (ho h)⟩
  · next h => exact if_neg (mt hcheck.2 h)

/-- addFelt in the reading Unsigned32 (R51). -/
theorem addFelt_unsigned32 (hmode : par.feltOffsetMode = .unsigned32) :
    addFelt par r v =
      if v.val < 4294967296 ∧ r.off.toNat + v.val < 4294967296 then .ok (withOff r (r.off.toNat + v.val))
      else .fail (.overflow (.address r (.val (.felt v)))) := by
  rw [addFelt, hmode, u32Size]

/-- addFelt in the reading FieldWrap (R51). -/
theorem addFelt_fieldWrap (hmode : par.feltOffsetMode = .fieldWrap) :
    addFelt par r v =
      if (r.off.toNat + v.val) % par.prime < 4294967296 then .ok (withOff r ((r.off.toNat + v.val) % par.prime))
      else .fail (.overflow (.address r (.val (.felt v)))) := by
  rw [addFelt, hmode, u32Size]

/-- subFelt in the reading Unsigned32 (R52). -/
theorem subFelt_unsigned32 (hmode : par.feltOffsetMode = .unsigned32) :
    subFelt par r v =
      if v.val < 4294967296 then
        if v.val ≤ r.off.toNat then .ok (withOff r (r.off.toNat - v.val))
        else .fail (.underflow r (.val (.felt v)))
      else .fail (.overflow (.address r (.val (.felt v)))) := by
  rw [subFelt, hmode, u32Size]

/-- subFelt in the reading FieldWrap (R52). -/
theorem subFelt_fieldWrap (hmode : par.feltOffsetMode = .fieldWrap) :
    subFelt par r v =
      if wrapSub par.prime r v < 4294967296 then .ok (withOff r (wrapSub par.prime r v))
      else .fail (.underflow r (.val (.felt v))) := by
  rw [subFelt, hmode, u32Size]

/-- The wrapped difference is the residue of the integer difference (R52). -/
theorem wrapSub_eq {P : Nat} (hP : 0 < P) : (wrapSub P r v : Int) = ((r.off.toNat : Int) - v.val) % P :=
  Felt.ofInt_val hP _

/-- addFelt answers the exact address where offset and Felt stay below both 2^32 and P, in both readings (R51). -/
theorem addFelt_in_range (hP : 2 ^ 32 ≤ par.prime) (h : r.off.toNat + v.val ≤ 2 ^ 32 - 1) :
    addFelt par r v = .ok (withOff r (r.off.toNat + v.val)) := by
  cases hmode : par.feltOffsetMode with
  | unsigned32 => rw [addFelt_unsigned32 hmode, if_pos (by omega)]
  | fieldWrap => rw [addFelt_fieldWrap hmode, Nat.mod_eq_of_lt (by omega), if_pos (by omega)]

/-- subFelt answers the exact address where the Felt is at most the offset, in both readings (R52). -/
theorem subFelt_in_range (hP : 2 ^ 32 ≤ par.prime) (h : v.val ≤ r.off.toNat) :
    subFelt par r v = .ok (withOff r (r.off.toNat - v.val)) := by
  have offset_lt := r.off.isLt
  cases hmode : par.feltOffsetMode with
  | unsigned32 => rw [subFelt_unsigned32 hmode, if_pos (by omega), if_pos h]
  | fieldWrap =>
    have difference : wrapSub par.prime r v = r.off.toNat - v.val := by
      have := wrapSub_eq (r := r) (v := v) (show 0 < par.prime by omega)
      rw [Int.emod_eq_of_lt (by omega) (by omega)] at this
      omega
    rw [subFelt_fieldWrap hmode, difference, if_pos (by omega)]

end Address

/-! ### The multiplicative MaybeRel operators -/

section Multiplicative

variable (par : Params) (r : Rel) (x : MaybeRel)

theorem mrMul_rel_left : mrMul par (.rel r) x = .fail (.forbiddenOperation (.rel r) x) := by cases x <;> rfl

theorem mrMul_rel_right : mrMul par x (.rel r) = .fail (.forbiddenOperation x (.rel r)) := by cases x <;> rfl

theorem mrDiv_rel_left : mrDiv par (.rel r) x = .fail (.forbiddenOperation (.rel r) x) := by cases x <;> rfl

theorem mrDiv_rel_right : mrDiv par x (.rel r) = .fail (.forbiddenOperation x (.rel r)) := by cases x <;> rfl

end Multiplicative

/-! ### MemWrite -/

section Write

variable {s : State} {m : Memory} {a : Rel} {v : MaybeRel}

/-- The host's write of a canonical value through a Relocatable is MemWrite itself (R65, R137). -/
theorem memWriteAt_canonical (h : v.canonical s.params.prime = true) :
    memWriteAt s m (.rel a) v = memWrite s m a v :=
  congrArg (memWrite s m a) (MaybeRel.reduce_self h)

/-- A filled cell lies in an existing segment (R64). -/
theorem Memory.hasSegment_of_peek (h : m.peek a = some v) : m.hasSegment a := by
  unfold Memory.peek at h
  split at h
  · assumption
  · cases h

/-- MemWrite to an absent segment is refused (R67). -/
theorem memWrite_absent (h : m.count ≤ a.seg.toNat) : memWrite s m a v = .refuse .unallocatedSegment :=
  if_neg (Nat.not_lt.2 h)

/-- MemWrite to a filled cell compares and changes nothing (R67). -/
theorem memWrite_filled {c : MaybeRel} (h : m.peek a = some c) :
    memWrite s m a v = if c = v then .ok m else .fail (.inconsistentMemory a c v) := by
  simp only [memWrite, Memory.hasSegment_of_peek h, h, if_true]

/-- MemWrite to an empty cell that is no output of the ECU fills it if its validation accepts the value (R67, R165,
R190). -/
theorem memWrite_empty (hs : m.hasSegment a) (h : m.peek a = none) (hout : ecOutput s.cfg a = none) :
    memWrite s m a v = (validate s (m.set a v) a v).bind fun _ => .ok (m.set a v) := by
  simp only [memWrite, hs, h, hout, if_true]

/-- A cell outside the segments of the RCU and the SVU is not validated (R165, R190). -/
theorem validate_unchecked (hrc : rcSegment s.cfg ≠ some a.seg.toNat) (hsig : sigSegment s.cfg ≠ some a.seg.toNat) :
    validate s m a v = .ok () := by
  rw [validate, if_neg hrc, if_neg hsig]

end Write

/-! ### Write-once memory -/

/-- A body that commits keeps every filled cell and adds no segment (R69). -/
theorem vmBody_grows {i : Instruction} {s t : State} (h : vmBody i s = .ok t) : Grows s.mem t.mem := by
  obtain ⟨o, res, m, npc, nap, nfp, hread, -, hwrite, -, -, -, rfl⟩ := vmBody_ok h
  exact (readOperands_grows hread).trans (opcodeEffect_grows hwrite)

/-- An instruction keeps every filled cell and adds no segment, however it ends (R69). -/
theorem exec_grows {i : Instr} {s t : State} (h : exec i s = .next t) : Grows s.mem t.mem := by
  cases hi : i.record with
  | some r =>
    rw [exec_record s hi] at h
    rcases stepOutcome_next s (vmBody r s) with ⟨u, hu, e⟩ | ⟨f, -, e⟩ | ⟨q, -, e⟩ <;>
      rw [e] at h <;> cases h
    · exact vmBody_grows hu
    · exact .refl _
    · exact .refl _
  | none =>
    rcases exec_command_next hi h with ⟨o, rfl⟩ | ⟨f, rfl⟩ | ⟨_, _, _, tab, -, -, rfl⟩ <;> exact .refl _

/-- A VM step that ends before its instruction changes memory by its hints only (R207, R210). -/
theorem beginStep_ended_extends {s t : State} (h : beginStep s = .ended t) : Extends s.mem t.mem := by
  have running : s.status = .running := beginStep_running (by simp [h])
  rcases beginStep_cases running with ⟨-, e⟩ | ⟨-, f, n, e⟩ | ⟨-, q, n, e⟩ |
    ⟨-, d, n, hd, -, e⟩ | ⟨-, d, n, i, -, -, -, e⟩ <;> rw [e] at h <;> cases h
  · exact .refl _
  · exact .refl _
  · exact .refl _
  · exact hintStep_extends hd

/-- Up to its instruction a VM step changes memory by its hints only (R207, R210). -/
theorem beginStep_run_extends {s u : State} {i : Instr} (h : beginStep s = .run i u) : Extends s.mem u.mem := by
  have running : s.status = .running := beginStep_running (by simp [h])
  rcases beginStep_cases running with ⟨-, e⟩ | ⟨-, f, n, e⟩ | ⟨-, q, n, e⟩ |
    ⟨-, d, n, -, -, e⟩ | ⟨-, d, n, j, hd, -, -, e⟩ <;> rw [e] at h <;> cases h
  exact hintStep_extends hd

/-- The restoration takes memory from before the hint step or leaves it (R234). -/
theorem State.restoreOnAbort_mem (save t : State) :
    (save.restoreOnAbort t).mem = save.mem ∨ (save.restoreOnAbort t).mem = t.mem := by
  unfold State.restoreOnAbort
  split
  · exact .inl rfl
  · exact .inl rfl
  · exact .inr rfl

/-- Every step extends a canonical memory: no segment goes, every filled cell stays (R68, R69). -/
theorem step_extends {s t : State} (h : step s = .next t) : Extends s.mem t.mem := by
  rcases step_next h with ⟨q, i, -, -, he⟩ | ⟨q, -, -, rfl⟩ | ⟨-, hb⟩ | ⟨i, u, v, -, hb, he, rfl⟩
  · exact (exec_grows he).extends
  · exact .refl _
  · exact beginStep_ended_extends hb
  · rcases s.restoreOnAbort_mem v with e | e <;> rw [e]
    · exact .refl _
    · exact (beginStep_run_extends hb).trans (exec_grows he).extends

end Sys2Proof.Machine

namespace Sys2Proof

open Machine

/-- Settles O17: every step extends a canonical memory (`step_extends`). -/
theorem cellsAreWriteOnce : Obligations.CellsAreWriteOnce := by
  unfold Obligations.CellsAreWriteOnce
  intro s t hwf h
  obtain ⟨count_le, -, kept⟩ := step_extends h hwf
  exact ⟨kept, count_le⟩

/-- Settles O37: addInt by where the sum lies, subRel by its two checks. -/
theorem addressArithmeticIsChecked : Obligations.AddressArithmeticIsChecked := by
  unfold Obligations.AddressArithmeticIsChecked
  refine ⟨fun r k => ⟨fun hlow hhigh => ?_, addInt_above, addInt_underflow⟩, fun par a b =>
    ⟨fun hseg => if_neg hseg, fun hseg hlt => ?_, fun hseg hle => ?_⟩⟩
  · have answer := addInt_in_range hlow hhigh
    exact ⟨_, answer, addInt_ok answer⟩
  · rw [subRel, if_pos hseg, if_neg (by omega)]
  · exact ⟨.ofNat par.prime (a.off.toNat - b.off.toNat), by rw [subRel, if_pos hseg, if_pos hle], rfl⟩

/-- Settles O38: the equations of addFelt and subFelt in each reading; a check and the range it stands for agree
(`withOff_checked`). -/
theorem feltOffsetsInBothModes : Obligations.FeltOffsetsInBothModes := by
  unfold Obligations.FeltOffsetsInBothModes
  intro par r v hP
  refine ⟨fun hmode => ?_, fun hmode => ?_⟩
  · refine ⟨withOff_checked (addFelt_unsigned32 hmode) (by omega) (by omega), ?_⟩
    rw [subFelt_unsigned32 hmode]
    by_cases hv : 2 ^ 32 - 1 < v.val
    · rw [if_pos hv, if_neg (by omega)]
    rw [if_neg hv, if_pos (show v.val < 4294967296 by omega)]
    by_cases hlt : r.off.toNat < v.val
    · rw [if_pos hlt, if_neg (by omega)]
    · have offset_lt := r.off.isLt
      rw [if_neg hlt, if_pos (by omega)]
      exact ⟨_, rfl, rfl, withOff_off (by omega)⟩
  · rw [← wrapSub_eq hP]
    simp only [Nat.cast_inj]
    exact ⟨withOff_checked (addFelt_fieldWrap hmode) (by omega) (by omega),
      withOff_checked (subFelt_fieldWrap hmode) (by omega) (by omega)⟩

/-- Settles O39: both operations stay in range, where each is exact. -/
theorem addThenSubtractRestores : Obligations.AddThenSubtractRestores := by
  unfold Obligations.AddThenSubtractRestores
  intro par r k hP hk
  have residue : (Felt.ofNat par.prime k).val = k := Nat.mod_eq_of_lt (by omega)
  have sum_off : (withOff r (r.off.toNat + k)).off.toNat = r.off.toNat + k := withOff_off (by omega)
  refine ⟨⟨withOff r (r.off.toNat + k), ?_, ?_⟩, withOff r (r.off.toNat + k), ?_, ?_⟩
  · rw [addFelt_in_range hP (by omega), residue]
  · rw [subFelt_in_range hP (by omega), residue, sum_off]
    simp
  · exact addInt_in_range (by omega) (by omega)
  · rw [addInt_in_range (by omega) (by omega), sum_off]
    simp

/-- Settles O40: the table of R57, a pair of operand kinds at a time. -/
theorem forbiddenOperandPairs : Obligations.ForbiddenOperandPairs := by
  unfold Obligations.ForbiddenOperandPairs
  exact fun par r t v w x =>
    ⟨rfl, rfl, rfl, rfl, rfl, rfl, rfl, rfl, rfl, rfl, mrMul_rel_left par r x, mrMul_rel_right par r x,
      mrDiv_rel_left par r x, mrDiv_rel_right par r x⟩

/-- Settles O41: MemWrite by the cell it finds (`memWrite_absent`, `memWrite_filled`, `memWrite_empty`). -/
theorem memWriteIsAssertEq : Obligations.MemWriteIsAssertEq := by
  unfold Obligations.MemWriteIsAssertEq
  refine fun s m a v x => ⟨rfl, memWriteAt_canonical, memWrite_absent, fun h => ?_, fun c h hne => ?_,
    fun hs h hrc hsig hec => ?_⟩
  · rw [memWrite_filled h, if_pos rfl]
  · rw [memWrite_filled h, if_neg hne]
  · refine ⟨m.set a v, ?_, Memory.peek_set_same m a v hs, rfl, fun b hb => Memory.peek_set_other m v hb⟩
    rw [memWrite_empty hs h (ecOutput_none hec), validate_unchecked hrc hsig, Res.bind_ok]

/-- Settles O42: the allocation below the limit and at it. -/
theorem allocateAppendsASegment : Obligations.AllocateAppendsASegment := by
  unfold Obligations.AllocateAppendsASegment
  refine fun m hwf => ⟨fun h => ?_, Memory.allocate_refused⟩
  have answer := Memory.allocate_eq h
  exact ⟨_, answer, rfl, Memory.allocate_wf hwf answer, Memory.allocate_peek hwf answer⟩

end Sys2Proof
end

section
/-! Proofs of the family 30_encoding: the words that hold a record, by the fields of DECODE and ENCODE (R83 to R97,
R104, R111), the refusals of unit commands (R105, R106), and the instructions that only move the registers (R88,
R225, R228, R232). -/

namespace Sys2Proof

open Machine

/-! ### The offsets and the codes of the flag fields -/

/-- An offset is its biased field less 2^15 (R83). -/
theorem toInt_of_bias (o : BitVec 16) : o.toInt = bias o - 2 ^ 15 := by
  have := o.isLt
  rw [bias, BitVec.toNat_add, BitVec.toInt_eq_toNat_cond]
  split <;> simp only [BitVec.toNat_ofNat] <;> omega

@[simp] theorem unbias_bias (o : BitVec 16) : unbias (bias o) = o := by
  rw [unbias, bias, BitVec.ofNat_toNat, BitVec.setWidth_eq, BitVec.add_sub_cancel]

theorem bias_unbias {n : Nat} (h : n < 2 ^ 16) : bias (unbias n) = n := by
  rw [unbias, bias, BitVec.sub_add_cancel, BitVec.toNat_ofNat, Nat.mod_eq_of_lt h]

theorem bits_lt (w hi lo : Nat) : bits w hi lo < 2 ^ (hi - lo + 1) := Nat.mod_lt _ (Nat.two_pow_pos _)

@[simp] theorem decReg_encReg (r : BaseReg) : decReg (encReg r) = r := by cases r <;> rfl

theorem encReg_decReg {b : Nat} (h : b < 2) : encReg (decReg b) = b := by interval_cases b <;> rfl

/-- DECODE's reading of the op1 source is the inverse of ENCODE's code (R85, R112). -/
theorem decOp1Src_eq_some {b : Nat} {src : Op1Src} : decOp1Src b = some src ↔ b = encOp1Src src := by
  constructor
  · intro h
    unfold decOp1Src at h
    split at h <;> cases h <;> rfl
  · rintro rfl
    cases src <;> rfl

/-- So is its reading of the pc update (R87, R114). -/
theorem decPc_eq_some {b : Nat} {pcu : PcUpdate} : decPc b = some pcu ↔ b = encPc pcu := by
  constructor
  · intro h
    unfold decPc at h
    split at h <;> cases h <;> rfl
  · rintro rfl
    cases pcu <;> rfl

/-- So is its reading of the opcode (R90, R116). -/
theorem decOpcode_eq_some {b : Nat} {opc : Opcode} : decOpcode b = some opc ↔ b = encOpcode opc := by
  constructor
  · intro h
    unfold decOpcode at h
    split at h <;> cases h <;> rfl
  · rintro rfl
    cases opc <;> rfl

/-- The result logics that stand beside a pc update in a record (R95, R117). -/
def ResAdmitted (p : Params) (pcu : PcUpdate) : ResLogic → Prop
  | .op1 => pcu ≠ .jnz
  | .unconstrained => pcu = .jnz
  | .add => pcu = .jnz → p.strictJnzRes = false
  | .mul => pcu = .jnz → p.strictJnzRes = false

/-- The ap updates that stand beside an opcode in a record (R96, R119). -/
def ApAdmitted (p : Params) (opc : Opcode) : ApUpdate → Prop
  | .regular => opc ≠ .call
  | .add2 => opc = .call
  | .add => opc = .call → p.strictCallAp = false
  | .add1 => opc = .call → p.strictCallAp = false

/-- Beside a valid pc update the field has the code of its result logic, and one that is admitted. -/
theorem decRes_eq_some {p : Params} {b : Nat} {pcu : PcUpdate} {res : ResLogic} :
    decRes p b (some pcu) = some res ↔ b = encRes res ∧ ResAdmitted p pcu res := by
  constructor
  · intro h
    unfold decRes at h
    split at h
    · split at h <;> cases h <;> simp_all [encRes, ResAdmitted]
    · split at h <;> cases h; simp_all [encRes, ResAdmitted]
    · split at h <;> cases h; simp_all [encRes, ResAdmitted]
    · cases h
  · rintro ⟨rfl, h⟩
    cases res <;> simp_all [decRes, encRes, ResAdmitted]

/-- Beside a valid opcode the field has the code of its ap update, and one that is admitted. -/
theorem decAp_eq_some {p : Params} {b : Nat} {opc : Opcode} {apu : ApUpdate} :
    decAp p b (some opc) = some apu ↔ b = encAp apu ∧ ApAdmitted p opc apu := by
  constructor
  · intro h
    unfold decAp at h
    split at h
    · split at h <;> cases h <;> simp_all [encAp, ApAdmitted]
    · split at h <;> cases h; simp_all [encAp, ApAdmitted]
    · split at h <;> cases h; simp_all [encAp, ApAdmitted]
    · cases h
  · rintro ⟨rfl, h⟩
    cases apu <;> simp_all [decAp, encAp, ApAdmitted]

/-- Conditions (a), (b) and (f) of R97. -/
theorem resAdmitted_iff {p : Params} {pcu : PcUpdate} {res : ResLogic} :
    ResAdmitted p pcu res ↔ (res ≠ .unconstrained ∨ pcu = .jnz) ∧ (pcu ≠ .jnz ∨ res ≠ .op1) ∧
      (p.strictJnzRes = false ∨ pcu ≠ .jnz ∨ res = .unconstrained) := by
  by_cases h : pcu = .jnz <;> cases res <;> simp [ResAdmitted, h]

/-- Conditions (c), (d) and (g) of R97. -/
theorem apAdmitted_iff {p : Params} {opc : Opcode} {apu : ApUpdate} :
    ApAdmitted p opc apu ↔ (apu ≠ .add2 ∨ opc = .call) ∧ (opc ≠ .call ∨ apu ≠ .regular) ∧
      (p.strictCallAp = false ∨ opc ≠ .call ∨ apu = .add2) := by
  by_cases h : opc = .call <;> cases apu <;> simp [ApAdmitted, h]

/-- A record is representable when its result logic, its ap update and its fp update are (R97). -/
theorem representable_iff {p : Params} {i : Instruction} :
    representable p i = true ↔
      ResAdmitted p i.pcUpdate i.resLogic ∧ ApAdmitted p i.opcode i.apUpdate ∧ i.fpUpdate = decFp i.opcode := by
  simp only [resAdmitted_iff, apAdmitted_iff, representable, Bool.and_eq_true, Bool.or_eq_true, Bool.not_eq_true',
    bne_iff_ne, beq_iff_eq, or_assoc]
  exact ⟨fun ⟨⟨⟨⟨⟨⟨a, b⟩, c⟩, d⟩, e⟩, f⟩, g⟩ => ⟨⟨a, b, f⟩, ⟨c, d, g⟩, e⟩,
    fun ⟨⟨a, b, f⟩, ⟨c, d, g⟩, e⟩ => ⟨⟨⟨⟨⟨⟨a, b⟩, c⟩, d⟩, e⟩, f⟩, g⟩⟩

theorem encReg_injective : Function.Injective encReg := Function.LeftInverse.injective decReg_encReg

theorem encOp1Src_injective : Function.Injective encOp1Src := fun _ _ h =>
  Option.some.inj ((decOp1Src_eq_some.2 rfl).symm.trans (decOp1Src_eq_some.2 h))

theorem encPc_injective : Function.Injective encPc := fun _ _ h =>
  Option.some.inj ((decPc_eq_some.2 rfl).symm.trans (decPc_eq_some.2 h))

theorem encOpcode_injective : Function.Injective encOpcode := fun _ _ h =>
  Option.some.inj ((decOpcode_eq_some.2 rfl).symm.trans (decOpcode_eq_some.2 h))

theorem decFp_eq_apPlus2 {opc : Opcode} : decFp opc = .apPlus2 ↔ opc = .call := by cases opc <;> simp [decFp]

theorem decFp_eq_dst {opc : Opcode} : decFp opc = .dst ↔ opc = .ret := by cases opc <;> simp [decFp]

/-! ### The word of a record -/

/-- Every field of `w` below bit 63 holds the code of the field of `i` (R81, R97). -/
structure Holds (w : Nat) (i : Instruction) : Prop where
  offDst : bits w 15 0 = bias i.offDst
  offOp0 : bits w 31 16 = bias i.offOp0
  offOp1 : bits w 47 32 = bias i.offOp1
  dstReg : bits w 48 48 = encReg i.dstReg
  op0Reg : bits w 49 49 = encReg i.op0Reg
  op1Src : bits w 52 50 = encOp1Src i.op1Src
  resLogic : bits w 54 53 = encRes i.resLogic
  pcUpdate : bits w 57 55 = encPc i.pcUpdate
  apUpdate : bits w 59 58 = encAp i.apUpdate
  opcode : bits w 62 60 = encOpcode i.opcode

/-- The flag fields are all valid exactly when the word holds a representable record. -/
theorem decodeFields_eq_some {p : Params} {w : Nat} {i : Instruction} :
    decodeFields p w = some i ↔ Holds w i ∧ representable p i = true := by
  rw [representable_iff]
  constructor
  · intro h
    unfold decodeFields at h
    simp only at h
    split at h
    · next src res pcu apu opc hsrc hres hpc hap hop =>
      rw [hpc] at hres
      rw [hop] at hap
      obtain ⟨res_code, res_admitted⟩ := decRes_eq_some.1 hres
      obtain ⟨ap_code, ap_admitted⟩ := decAp_eq_some.1 hap
      cases h
      exact ⟨{
        offDst := (bias_unbias (bits_lt w 15 0)).symm
        offOp0 := (bias_unbias (bits_lt w 31 16)).symm
        offOp1 := (bias_unbias (bits_lt w 47 32)).symm
        dstReg := (encReg_decReg (bits_lt w 48 48)).symm
        op0Reg := (encReg_decReg (bits_lt w 49 49)).symm
        op1Src := decOp1Src_eq_some.1 hsrc
        resLogic := res_code
        pcUpdate := decPc_eq_some.1 hpc
        apUpdate := ap_code
        opcode := decOpcode_eq_some.1 hop }, res_admitted, ap_admitted, rfl⟩
    · cases h
  · rintro ⟨h, res_admitted, ap_admitted, hfp⟩
    simp only [decodeFields, decPc_eq_some.2 h.pcUpdate, decOpcode_eq_some.2 h.opcode, decOp1Src_eq_some.2 h.op1Src,
      decRes_eq_some.2 ⟨h.resLogic, res_admitted⟩, decAp_eq_some.2 ⟨h.apUpdate, ap_admitted⟩, h.offDst, h.offOp0,
      h.offOp1, h.dstReg, h.op0Reg, unbias_bias, decReg_encReg, ← hfp]

/-- A word with bit 63, or a Felt beyond 64 bits, has no other failure than ReservedBitSet (R91, R111, R126). -/
theorem decodeRecord_reserved {p : Params} {w : Nat} (h : 2 ^ 63 ≤ w) : decodeRecord p w = .bad [.reservedBitSet w] :=
  if_pos h

/-- DECODE answers the representable record that the word holds, below bit 63 (R111). -/
theorem decodeRecord_eq_ok {p : Params} {w : Nat} {i : Instruction} :
    decodeRecord p w = .ok i ↔ w < 2 ^ 63 ∧ Holds w i ∧ representable p i = true := by
  rw [← decodeFields_eq_some]
  by_cases hw : w < 2 ^ 63
  · rw [decodeRecord, if_neg (Nat.not_le.2 hw), and_iff_right hw]
    cases decodeFields p w <;> simp
  · rw [decodeRecord_reserved (Nat.not_lt.1 hw)]
    simp only [hw, false_and, reduceCtorEq]

open Laws.TableRow in
/-- ENCODE puts each field in its place and leaves bit 63 zero (R97). -/
theorem encodeRecord_holds (i : Instruction) : encodeRecord i < 2 ^ 63 ∧ Holds (encodeRecord i) i := by
  have h1 := bias_lt i.offDst
  have h2 := bias_lt i.offOp0
  have h3 := bias_lt i.offOp1
  have h4 := encReg_lt i.dstReg
  have h5 := encReg_lt i.op0Reg
  have h6 := encOp1Src_lt i.op1Src
  have h7 := encRes_lt i.resLogic
  have h8 := encPc_lt i.pcUpdate
  have h9 := encAp_lt i.apUpdate
  have h10 := encOpcode_lt i.opcode
  refine ⟨?_, ?_⟩
  · simp only [encodeRecord]
    omega
  · constructor <;> simp only [bits, encodeRecord] <;> omega

/-- A representable record decodes from its word (R124). -/
theorem decodeRecord_encodeRecord {p : Params} {i : Instruction} (h : representable p i = true) :
    decodeRecord p (encodeRecord i) = .ok i :=
  have ⟨hlt, hholds⟩ := encodeRecord_holds i
  decodeRecord_eq_ok.2 ⟨hlt, hholds, h⟩

/-! ### The fields of a word -/

namespace Holds

variable {w : Nat} {i : Instruction} (h : Holds w i)
include h

theorem dstReg_iff {reg : BaseReg} {b : Nat} (hb : encReg reg = b) : i.dstReg = reg ↔ bits w 48 48 = b := by
  rw [h.dstReg, encReg_injective.eq_iff' hb]

theorem op0Reg_iff {reg : BaseReg} {b : Nat} (hb : encReg reg = b) : i.op0Reg = reg ↔ bits w 49 49 = b := by
  rw [h.op0Reg, encReg_injective.eq_iff' hb]

theorem op1Src_iff {src : Op1Src} {b : Nat} (hb : encOp1Src src = b) : i.op1Src = src ↔ bits w 52 50 = b := by
  rw [h.op1Src, encOp1Src_injective.eq_iff' hb]

theorem pcUpdate_iff {pcu : PcUpdate} {b : Nat} (hb : encPc pcu = b) : i.pcUpdate = pcu ↔ bits w 57 55 = b := by
  rw [h.pcUpdate, encPc_injective.eq_iff' hb]

theorem opcode_iff {opc : Opcode} {b : Nat} (hb : encOpcode opc = b) : i.opcode = opc ↔ bits w 62 60 = b := by
  rw [h.opcode, encOpcode_injective.eq_iff' hb]

/-- The result logic from its field and the pc update's: Unconstrained and Op1 share the code 0 (R95). -/
theorem resLogic_iff {p : Params} (hres : ResAdmitted p i.pcUpdate i.resLogic) :
    (i.resLogic = .add ↔ bits w 54 53 = 1) ∧ (i.resLogic = .mul ↔ bits w 54 53 = 2) ∧
    (i.resLogic = .unconstrained ↔ bits w 54 53 = 0 ∧ bits w 57 55 = 4) ∧
    (i.resLogic = .op1 ↔ bits w 54 53 = 0 ∧ bits w 57 55 ≠ 4) := by
  have jnz_code : i.pcUpdate = .jnz ↔ bits w 57 55 = 4 := h.pcUpdate_iff rfl
  rw [h.resLogic, Ne, ← jnz_code]
  cases hr : i.resLogic <;> simp_all [ResAdmitted, encRes]

/-- The ap update from its field and the opcode's: Add2 and Regular share the code 0 (R96). -/
theorem apUpdate_iff {p : Params} (hap : ApAdmitted p i.opcode i.apUpdate) :
    (i.apUpdate = .add ↔ bits w 59 58 = 1) ∧ (i.apUpdate = .add1 ↔ bits w 59 58 = 2) ∧
    (i.apUpdate = .add2 ↔ bits w 59 58 = 0 ∧ bits w 62 60 = 1) ∧
    (i.apUpdate = .regular ↔ bits w 59 58 = 0 ∧ bits w 62 60 ≠ 1) := by
  have call_code : i.opcode = .call ↔ bits w 62 60 = 1 := h.opcode_iff rfl
  rw [h.apUpdate, Ne, ← call_code]
  cases ha : i.apUpdate <;> simp_all [ApAdmitted, encAp]

end Holds

end Sys2Proof

namespace Sys2Proof.Machine

/-! ### Refusals of unit commands -/

/-- A command that decodes has the code of its instruction's own command (R105). -/
theorem decodeRequest_code {q : Request} {i : Instr} (h : decodeRequest q = some i) :
    ∃ c, encodeRequest i = some c ∧ c.code = q.code := by
  unfold decodeRequest at h
  split at h <;> cases h <;> exact ⟨_, rfl, BitVec.eq_of_toNat_eq (Eq.symm ‹_›)⟩

/-- A pending command whose code is that of no instruction does not decode (R105). -/
theorem decodeRequest_unknown {q : Request} (h : ∀ i c, encodeRequest i = some c → c.code ≠ q.code) :
    decodeRequest q = none := by
  rw [Option.eq_none_iff_forall_ne_some]
  intro i hi
  obtain ⟨c, hc, hcode⟩ := decodeRequest_code hi
  exact h i c hc hcode

/-- A command that does not decode is taken off the port and answered UnknownCommand (R105; log 1). -/
theorem step_unknown {s : State} {q : Request} (hp : s.port = some q) (hq : decodeRequest q = none) :
    step s = .next (unknownCommand s) := by
  simp [step, hp, hq]

section Ports

variable {α : Type} {r : Rel} {v : MaybeRel}

/-- Where a later port holds a Relocatable, the operation is refused whatever this port holds (R106). -/
theorem feltPort_bind_refused {k : Felt → Res α} (h : ∀ x, k x = .refuse .relocatableOperand) :
    (feltPort v).bind k = .refuse .relocatableOperand := by
  cases v with
  | rel t => rfl
  | felt x => exact h x

/-- An active SVU refuses a Relocatable before it looks at its table (R188; log 17). -/
theorem sigVerify_rel {cfg : BitVec 16} {par : Params} {tab : Option (List (Nat × Sig))} {off : U32}
    {pk msg : MaybeRel} (hact : sigActive cfg = true) (hr : .rel r ∈ [pk, msg]) :
    sigVerify cfg par tab off pk msg = .refuse .relocatableOperand := by
  rw [sigVerify, if_pos hact]
  simp only [List.mem_cons, List.not_mem_nil, or_false] at hr
  rcases hr with rfl | rfl
  · rfl
  · exact feltPort_bind_refused fun _ => rfl

/-- An active ECU refuses a Relocatable on any port before its checks and its ladder (R204; log 17). -/
theorem ecOp_rel {cfg : BitVec 16} {par : Params} {n : Nat} {px py qx qy m : MaybeRel} (hact : ecActive cfg = true)
    (hr : .rel r ∈ [px, py, qx, qy, m]) : ecOp cfg par n px py qx qy m = .refuse .relocatableOperand := by
  rw [ecOp, if_pos hact]
  simp only [List.mem_cons, List.not_mem_nil, or_false] at hr
  rcases hr with rfl | rfl | rfl | rfl | rfl
  · rfl
  · exact feltPort_bind_refused fun _ => rfl
  · exact feltPort_bind_refused fun _ => feltPort_bind_refused fun _ => rfl
  · exact feltPort_bind_refused fun _ => feltPort_bind_refused fun _ => feltPort_bind_refused fun _ => rfl
  · exact feltPort_bind_refused fun _ => feltPort_bind_refused fun _ => feltPort_bind_refused fun _ =>
      feltPort_bind_refused fun _ => rfl

end Ports

/-! ### Instructions that write nothing -/

/-- Only AssertEq infers an operand to be written (R217 to R220). -/
theorem infer_inferred {i : Instruction} {s : State} {op0A op1A : Rel} {dst op0 op1 : Option MaybeRel}
    {v : MaybeRel × MaybeRel × MaybeRel × Option (Rel × MaybeRel)} (hop : i.opcode ≠ .assertEq)
    (h : infer i s op0A op1A dst op0 op1 = .ok v) : v.2.2.2 = none := by
  simp only [infer, if_neg hop] at h
  split at h
  · cases h; rfl
  all_goals cases h

/-- The operands of another opcode have no inferred cell (R220). -/
theorem readOperands_inferred {i : Instruction} {s : State} {o : Operands} (hop : i.opcode ≠ .assertEq)
    (h : readOperands i s = .ok o) : o.inferred = none := by
  obtain ⟨r0, op1A, rd, r1, v, -, -, -, -, -, -, hv, -, -, -, hinferred, -⟩ := readOperands_ok h
  rw [hinferred, infer_inferred hop hv]

section NoOp

variable {i : Instr} {r : Instruction} {s : State} {o : Operands} {res : Option MaybeRel}

/-- The state of a body that commits is the instruction's (R234). -/
theorem exec_commit {t : State} (hi : i.record = some r) (hb : vmBody r s = .ok t) : exec i s = .next t := by
  rw [exec_record s hi, hb]; rfl

/-- NoOp and Ret write nothing (R224, R225). -/
theorem opcodeEffect_none (hop : r.opcode = .noOp ∨ r.opcode = .ret) (hread : readOperands r s = .ok o) :
    opcodeEffect r s o res = .ok o.mem := by
  have not_assertEq : r.opcode ≠ .assertEq := by rintro e; simp [e] at hop
  rw [opcodeEffect, writeInferred, readOperands_inferred not_assertEq hread]
  rcases hop with e | e <;> simp [e]

/-- A NoOp that reads its operands and finds its targets moves pc and ap there, keeps fp and writes nothing (R225,
R228 to R233). -/
theorem exec_noOp {npc nap : Rel} (hi : i.record = some r) (hop : r.opcode = .noOp)
    (hread : readOperands r s = .ok o) (hres : computeRes r s o = .ok res) (hpc : PcTarget r s o res npc)
    (hap : ApTarget r s res nap) : exec i s = .next (s.commit o.mem npc nap s.fp) := by
  have fp_kept : fpNext r s o = .ok s.fp := by rw [fpNext, record_fpUpdate hi, hop]; rfl
  exact exec_commit hi (vmBody_eq hread hres (opcodeEffect_none (.inl hop) hread) (pcNext_ok.2 hpc) (apNext_ok.2 hap)
    fp_kept)

/-- A failing ap update fails a NoOp that finds its target (R207, R232). -/
theorem exec_noOp_ap_fail {npc : Rel} {f : Failure} (hi : i.record = some r) (hop : r.opcode = .noOp)
    (hread : readOperands r s = .ok o) (hres : computeRes r s o = .ok res) (hpc : PcTarget r s o res npc)
    (hap : apNext r s res = .fail f) : exec i s = .next (s.fail f) := by
  refine exec_fail hi ?_
  simp [vmBody, hread, hres, opcodeEffect_none (.inl hop) hread, pcNext_ok.2 hpc, hap]

end NoOp

/-- One cell on, as a machine word (R50). -/
theorem advanced_one {r : Rel} (h : r.off.toNat + 1 < 2 ^ 32) : Advanced r 1 ⟨r.seg, r.off + 1#32⟩ := by
  refine ⟨h, ?_⟩
  rw [BitVec.ofNat_add, BitVec.ofNat_toNat, BitVec.setWidth_eq]

end Sys2Proof.Machine

namespace Sys2Proof

open Machine

/-- Settles O6: the word holds the record (`decodeRecord_eq_ok`), and each code names one value. -/
theorem decodedFieldsAreTheWords : Obligations.DecodedFieldsAreTheWords := by
  unfold Obligations.DecodedFieldsAreTheWords
  intro p w i hdec
  obtain ⟨-, h, hrep⟩ := decodeRecord_eq_ok.1 hdec
  obtain ⟨hres, hap, hfp⟩ := representable_iff.1 hrep
  obtain ⟨res_add, res_mul, res_unconstrained, res_op1⟩ := h.resLogic_iff hres
  obtain ⟨ap_add, ap_add1, ap_add2, ap_regular⟩ := h.apUpdate_iff hap
  have offset {o : BitVec 16} {n : Nat} (hn : n = bias o) : o.toInt = n - 2 ^ 15 := by rw [hn, toInt_of_bias]
  exact ⟨offset h.offDst, offset h.offOp0, offset h.offOp1, h.dstReg_iff rfl, h.op0Reg_iff rfl,
    h.op1Src_iff rfl, h.op1Src_iff rfl, h.op1Src_iff rfl, h.op1Src_iff rfl,
    res_add, res_mul, res_unconstrained, res_op1,
    h.pcUpdate_iff rfl, h.pcUpdate_iff rfl, h.pcUpdate_iff rfl, h.pcUpdate_iff rfl,
    ap_add, ap_add1, ap_add2, ap_regular,
    h.opcode_iff rfl, h.opcode_iff rfl, h.opcode_iff rfl, h.opcode_iff rfl,
    hfp ▸ decFp_eq_apPlus2, hfp ▸ decFp_eq_dst⟩

/-- Settles O54: the three ap updates of a NoOp that goes on behind itself (`exec_noOp`), and the failing one. -/
theorem nopsComplete : Obligations.NopsComplete := by
  unfold Obligations.NopsComplete
  intro f apu s o res r
  refine ⟨rfl, fun hread hres hsize => ?_⟩
  have hpc : PcTarget r s o res ⟨s.pc.seg, BitVec.ofNat 32 (s.pc.off.toNat + r.size.toNat)⟩ := ⟨hsize, rfl⟩
  refine ⟨?_, ?_, ?_, ?_⟩
  · rintro rfl
    exact exec_noOp rfl rfl hread hres hpc rfl
  · rintro rfl hap
    exact exec_noOp rfl rfl hread hres hpc (advanced_one hap)
  · rintro v nap rfl rfl hap
    exact exec_noOp rfl rfl hread hres hpc ⟨v, rfl, hap⟩
  · rintro t rfl rfl
    exact exec_noOp_ap_fail rfl rfl hread hres hpc rfl

/-- Settles O4: ReservedBitSet is the only kind to draw from (`decodeRecord_reserved`). -/
theorem reservedBitWins : Obligations.ReservedBitWins := by
  unfold Obligations.ReservedBitWins
  intro p n w h
  rw [iduDecode, decodeRecord_reserved h]
  rfl

/-- Settles O7: the words of R104 and of the vectors, evaluated. -/
theorem specWordsDecode : Obligations.SpecWordsDecode := by
  unfold Obligations.SpecWordsDecode
  exact fun p => ⟨rfl, rfl, rfl, rfl, rfl, rfl⟩

/-- Settles O9: ENCODE answers on the representable records, which are the ones that words decode to. -/
theorem encodeCommandAnswers : Obligations.EncodeCommandAnswers := by
  unfold Obligations.EncodeCommandAnswers
  intro s i
  have answer : exec (.encode i) s = unitOutcome s ((iduEncode s.params i).bind fun w => .ok (.word w)) := rfl
  rw [answer, iduEncode]
  refine ⟨fun h => ⟨BitVec.ofNat 64 (encodeRecord i), ?_, ?_⟩, fun h => ⟨fun w hw => ?_, ?_⟩⟩
  · have below : encodeRecord i < 2 ^ 64 := (encodeRecord_holds i).1.trans (by decide)
    rw [BitVec.toNat_ofNat, Nat.mod_eq_of_lt below, decodeRecord_encodeRecord h]
  · rw [if_pos h]; rfl
  · obtain ⟨-, -, hrep⟩ := decodeRecord_eq_ok.1 hw
    simp [hrep] at h
  · rw [h]; rfl

/-- Settles O27: a port of the FAU refuses before its operation is applied, and so do those of the SVU and the ECU
(`sigVerify_rel`, `ecOp_rel`). -/
theorem feltPortsRefuseRelocatables : Obligations.FeltPortsRefuseRelocatables := by
  unfold Obligations.FeltPortsRefuseRelocatables
  intro s r a v k off
  refine ⟨rfl, rfl, rfl, rfl, rfl, rfl, rfl, rfl, rfl, rfl, rfl, rfl, rfl, rfl, rfl, rfl, fun hact => ⟨?_, ?_⟩,
    fun hact px py qx qy m hr => ?_⟩
  · exact congrArg (unitOutcome s <| Res.bind · _) (sigVerify_rel (r := r) hact (by simp))
  · exact congrArg (unitOutcome s <| Res.bind · _) (sigVerify_rel (r := r) hact (by simp))
  · have operands : .rel r ∈ [px, py, qx, qy, m].map s.operand := List.mem_map_of_mem hr
    exact congrArg (unitOutcome s <| Res.bind · _) (ecOp_rel hact operands)

/-- Settles O36: each unit's check that it is active comes first, and a code of no instruction does not decode
(`decodeRequest_unknown`). -/
theorem inactiveAndUnknownRefused : Obligations.InactiveAndUnknownRefused := by
  unfold Obligations.InactiveAndUnknownRefused
  refine ⟨fun s v h => ?_, fun s off pk msg r q h => ⟨?_, ?_⟩, fun s px py qx qy m h => ?_, fun s q hp h => ?_⟩
  · have refused : rcCheck s.cfg (s.operand v) = .refuse .inactiveUnit := by simp [rcCheck, h]
    exact congrArg (unitOutcome s <| Res.bind · _) refused
  · have refused : sigVerify s.cfg s.params s.sigTab off (s.operand pk) (s.operand msg) = .refuse .inactiveUnit := by
      simp [sigVerify, h]
    exact congrArg (unitOutcome s <| Res.bind · _) refused
  · rw [exec_sigSet, execSigSet, h]; rfl
  · have refused : ecOp s.cfg s.params s.draws (s.operand px) (s.operand py) (s.operand qx) (s.operand qy)
        (s.operand m) = .refuse .inactiveUnit := by simp [ecOp, h]
    exact congrArg (unitOutcome s <| Res.bind · _) refused
  · rw [step_unknown hp (decodeRequest_unknown h)]; rfl

end Sys2Proof
end

section
/-! Proofs of the family 40_decoder: the set of failures of DECODE and the valid words (R99, R111 to R122), the
round trip of words and of unit commands (R97, R105, R124), and the fetches that fail (R125, R126, R211). -/

namespace Sys2Proof

open Machine

/-! ### The set of failures of DECODE -/

/-- InvalidOp1Source applies to every code but the four (R112). -/
theorem decOp1Src_eq_none {b : Nat} : decOp1Src b = none ↔ b ∉ [0, 1, 2, 4] := by
  unfold decOp1Src
  split <;> simp_all

/-- InvalidPcUpdate applies to every code but the four (R114). -/
theorem decPc_eq_none {b : Nat} : decPc b = none ↔ b ∉ [0, 1, 2, 4] := by
  unfold decPc
  split <;> simp_all

/-- InvalidOpcode applies to every code but the four (R116). -/
theorem decOpcode_eq_none {b : Nat} : decOpcode b = none ↔ b ∉ [0, 1, 2, 4] := by
  unfold decOpcode
  split <;> simp_all

/-- InvalidResultLogic applies to the code 3, and under the strict parameter to a code beside Jnz (R113, R117). -/
theorem decRes_eq_none {p : Params} {b : Nat} (hb : b < 4) {pcu : Option PcUpdate} :
    decRes p b pcu = none ↔ b = 3 ∨ p.strictJnzRes = true ∧ pcu = some .jnz ∧ b ≠ 0 := by
  interval_cases b
  · simp only [decRes]
    split <;> simp
  · simp [decRes, and_comm]
  · simp [decRes, and_comm]
  · simp [decRes]

/-- InvalidApUpdate applies to the code 3, and under the strict parameter to a code beside Call (R115, R119). -/
theorem decAp_eq_none {p : Params} {b : Nat} (hb : b < 4) {opc : Option Opcode} :
    decAp p b opc = none ↔ b = 3 ∨ p.strictCallAp = true ∧ opc = some .call ∧ b ≠ 0 := by
  interval_cases b
  · simp only [decAp]
    split <;> simp
  · simp [decAp, and_comm]
  · simp [decAp, and_comm]
  · simp [decAp]

section Errors

variable {p : Params} {w n : Nat} {i : Instruction} {f : Failure}

/-- DECODE's set of failures is the set E of R111. -/
theorem mem_decodeErrors : f ∈ decodeErrors p w ↔ DecodeError p w f := by
  have res_invalid := decRes_eq_none (p := p) (bits_lt w 54 53) (pcu := decPc (bits w 57 55))
  have ap_invalid := decAp_eq_none (p := p) (bits_lt w 59 58) (opc := decOpcode (bits w 62 60))
  simp only [decPc_eq_some, encPc] at res_invalid
  simp only [decOpcode_eq_some, encOpcode] at ap_invalid
  simp only [decodeErrors, List.mem_append, List.mem_ite_nil_right, List.mem_singleton, decOp1Src_eq_none,
    decPc_eq_none, decOpcode_eq_none, res_invalid, ap_invalid, or_assoc, DecodeError, and_comm (a := f = _)]

/-- A record is found exactly when no failure applies (R111). -/
theorem decodeFields_eq_none : decodeFields p w = none ↔ decodeErrors p w ≠ [] := by
  simp only [decodeFields, decodeErrors]
  split
  · simp_all
  · next missing =>
    refine iff_of_true rfl fun no_error => ?_
    simp only [List.append_eq_nil_iff, ite_eq_right_iff, reduceCtorEq, imp_false, ← ne_eq,
      Option.ne_none_iff_exists'] at no_error
    obtain ⟨⟨⟨⟨⟨src, hsrc⟩, pcu, hpcu⟩, opc, hopc⟩, res, hres⟩, apu, hapu⟩ := no_error
    exact missing src res pcu apu opc hsrc hres hpcu hapu hopc

/-- Below bit 63 the valid words are those to which no failure applies (R99, R111). -/
theorem validWord_iff : ValidWord p w ↔ w < 2 ^ 63 ∧ decodeErrors p w = [] := by
  simp only [List.eq_nil_iff_forall_not_mem, mem_decodeErrors]
  constructor
  · rintro ⟨hw, hsrc, hres, hpc, hap, hop, hjnz, hcall⟩
    refine ⟨hw, fun f => ?_⟩
    rintro (⟨-, h⟩ | ⟨-, h⟩ | ⟨-, h⟩ | ⟨-, h | ⟨hs, h⟩⟩ | ⟨-, h | ⟨hs, h⟩⟩)
    exacts [h hsrc, h hpc, h hop, hres h, hjnz hs h, hap h, hcall hs h]
  · rintro ⟨hw, h⟩
    have src := fun e => h _ (.inl ⟨rfl, e⟩)
    have pcu := fun e => h _ (.inr (.inl ⟨rfl, e⟩))
    have opc := fun e => h _ (.inr (.inr (.inl ⟨rfl, e⟩)))
    have res := fun e => h _ (.inr (.inr (.inr (.inl ⟨rfl, e⟩))))
    have apu := fun e => h _ (.inr (.inr (.inr (.inr ⟨rfl, e⟩))))
    exact ⟨hw, not_not.1 src, res ∘ .inl, not_not.1 pcu, apu ∘ .inl, not_not.1 opc, fun hs e => res (.inr ⟨hs, e⟩),
      fun hs e => apu (.inr ⟨hs, e⟩)⟩

/-- Every valid word decodes to a record (R122). -/
theorem decodeRecord_valid (h : ValidWord p w) : ∃ i, decodeRecord p w = .ok i := by
  obtain ⟨hw, no_error⟩ := validWord_iff.1 h
  cases hf : decodeFields p w with
  | none => exact absurd no_error (decodeFields_eq_none.1 hf)
  | some i => exact ⟨i, by rw [decodeRecord, if_neg (Nat.not_le.2 hw), hf]⟩

/-- Below bit 63 any other word has the failures of the set E, and some (R111). -/
theorem decodeRecord_invalid (hw : w < 2 ^ 63) (h : ¬ ValidWord p w) :
    decodeRecord p w = .bad (decodeErrors p w) ∧ decodeErrors p w ≠ [] := by
  have errors : decodeErrors p w ≠ [] := fun e => h (validWord_iff.2 ⟨hw, e⟩)
  rw [decodeRecord, if_neg (Nat.not_le.2 hw), decodeFields_eq_none.2 errors]
  exact ⟨rfl, errors⟩

/-- Whatever the draw, the kind reported is one of those that apply (R120). -/
theorem drawFailure_mem {kinds : List Failure} (h : kinds ≠ []) : drawFailure n w kinds ∈ kinds := by
  unfold drawFailure
  split
  · exact absurd rfl h
  · exact List.mem_singleton_self _
  · next f fs _ =>
    rw [List.getD_eq_getElem _ _ (by simpa using Nat.mod_lt _ (Nat.succ_pos fs.length))]
    exact List.getElem_mem _

/-- The operation DECODE answers the record of a word that decodes. -/
theorem iduDecode_eq_ok (h : decodeRecord p w = .ok i) : iduDecode p n w = .ok i := by rw [iduDecode, h]

/-- The operation DECODE fails on an invalid word below bit 63 with a failure of the set E (R111, R120). -/
theorem iduDecode_invalid (hw : w < 2 ^ 63) (h : ¬ ValidWord p w) :
    ∃ f, DecodeError p w f ∧ iduDecode p n w = .fail f := by
  obtain ⟨answer, errors⟩ := decodeRecord_invalid hw h
  exact ⟨_, mem_decodeErrors.1 (drawFailure_mem errors), by rw [iduDecode, answer]⟩

/-- A word below bit 63 is determined by the record it holds (R81). -/
theorem Holds.encodeRecord_eq (hw : w < 2 ^ 63) (h : Holds w i) : encodeRecord i = w := by
  rw [encodeRecord, ← h.offDst, ← h.offOp0, ← h.offOp1, ← h.dstReg, ← h.op0Reg, ← h.op1Src, ← h.resLogic,
    ← h.pcUpdate, ← h.apUpdate, ← h.opcode]
  simp only [bits]
  omega

/-- A word that decodes is the word of its record (R124). -/
theorem encodeRecord_of_decodeRecord (h : decodeRecord p w = .ok i) : encodeRecord i = w :=
  have ⟨hw, hholds, _⟩ := decodeRecord_eq_ok.1 h
  hholds.encodeRecord_eq hw

end Errors

/-! ### Both kinds of instruction -/

/-- A well-formed instruction of the 64-bit format is the row of its record, and that is representable (R97). -/
theorem wellFormed_record {p : Params} {i : Instr} {r : Instruction} (hi : i.record = some r)
    (hwf : WellFormed p i = true) : representable p r = true ∧ r.toInstr = i := by
  cases i with
  | call f pcu apu =>
    cases hi
    simp only [WellFormed, Bool.and_eq_true, Bool.or_eq_true, beq_iff_eq] at hwf
    obtain ⟨hrep, rfl | rfl⟩ := hwf <;> exact ⟨hrep, rfl⟩
  | retAny f pcu apu =>
    cases hi
    simp only [WellFormed, Bool.and_eq_true, bne_iff_ne] at hwf
    obtain ⟨hrep, not_jump⟩ := hwf
    cases pcu with
    | jump => exact absurd rfl not_jump
    | regular | jumpRel | jnz => exact ⟨hrep, rfl⟩
  | assertEq | callAbs | callRel | ret | nop | jmpAbs | jmpRel | jnz | apAdd | nopApInc =>
    cases hi
    exact ⟨hwf, rfl⟩
  | _ => cases hi

/-- A well-formed unit command decodes from its ports (R105; log 4). -/
theorem decodeRequest_encodeRequest {p : Params} {i : Instr} (hi : i.record = none) (hwf : WellFormed p i = true) :
    ∃ q, encodeRequest i = some q ∧ decodeRequest q = some i := by
  cases i with
  | assertEq | callAbs | callRel | call | ret | retAny | nop | jmpAbs | jmpRel | jnz | apAdd | nopApInc => cases hi
  | toUint a k | toInt a k =>
    have width : k - 1 + 1 = k := Nat.sub_add_cancel (of_decide_eq_true hwf)
    refine ⟨_, rfl, ?_⟩
    simp [decodeRequest, Request.zero, width]
  | _ => exact ⟨_, rfl, rfl⟩

/-- An instruction of the 64-bit format is written as the word of its record. -/
theorem encode_record {i : Instr} {r : Instruction} (hi : i.record = some r) :
    encode i = .word (BitVec.ofNat 64 (encodeRecord r)) := by rw [encode, hi]

/-- A unit command is written on its ports. -/
theorem encode_command {i : Instr} {q : Request} (hi : i.record = none) (hq : encodeRequest i = some q) :
    encode i = .request q := by rw [encode, hi, hq]

/-- The word of a record fits in 64 bits. -/
theorem toNat_encodeRecord (r : Instruction) : (BitVec.ofNat 64 (encodeRecord r)).toNat = encodeRecord r :=
  BitVec.toNat_ofNat .. ▸ Nat.mod_eq_of_lt ((encodeRecord_holds r).1.trans (by decide))

end Sys2Proof

namespace Sys2Proof.Machine

/-! ### Fetches that fail -/

section Fetch

variable {s : State} {f : Failure} {r : Refuse}

theorem Memory.read_none {m : Memory} {a : Rel} (h : m.peek a = none) :
    m.read a = .fail (.undefinedValue (.cell a)) := by rw [Memory.read, h]

theorem Memory.read_some {m : Memory} {a : Rel} {v : MaybeRel} (h : m.peek a = some v) : m.read a = .ok v := by
  rw [Memory.read, h]

/-- A Felt at pc is the word that is decoded, at any value (R125, R126). -/
theorem fetchDecode_felt {v : Felt} (h : s.mem.peek s.pc = some (.felt v)) :
    fetchDecode s = (iduDecode s.params s.draws v.val).bind fun i => .ok i.toInstr := by
  simp [fetchDecode, fetchWord, Memory.read_some h]

/-- A VM step that ends before its instruction answers the state it ends in. -/
theorem step_ended {t : State} (hp : s.port = none) (h : beginStep s = .ended t) : step s = .next t := by
  rw [step, hp, h]

variable (hp : s.port = none) (hr : s.status = .running) (hpc : s.pc ≠ s.programEnd) (hh : hintsAtPc s = [])
include hp hr hpc hh

/-- With no hint at pc a fetch that fails ends the step with its failure (R207, R211). -/
theorem step_fetch_fail (h : fetchDecode (s.begin s.mem 0) = .fail f) :
    ∃ t, step s = .next t ∧ t.status = .failed f := by
  have ended : beginStep s = .ended ((s.begin s.mem 0).fail f) := by
    simp [beginStep, hr, hpc, hintStep_none hh, hh, h]
  exact ⟨_, step_ended hp ended, rfl⟩

/-- With no hint at pc a fetch that is refused ends the step with its refusal (R207, R211). -/
theorem step_fetch_refuse (h : fetchDecode (s.begin s.mem 0) = .refuse r) :
    ∃ t, step s = .next t ∧ t.status = .refused r := by
  have ended : beginStep s = .ended ((s.begin s.mem 0).refuse r) := by
    simp [beginStep, hr, hpc, hintStep_none hh, hh, h]
  exact ⟨_, step_ended hp ended, rfl⟩

/-- With no hint at pc a Felt there on which DECODE fails ends the step with DECODE's failure (R125, R211). -/
theorem step_decode_fail {v : Felt} (hv : s.mem.peek s.pc = some (.felt v))
    (h : iduDecode s.params s.draws v.val = .fail f) : ∃ t, step s = .next t ∧ t.status = .failed f := by
  refine step_fetch_fail hp hr hpc hh ?_
  rw [fetchDecode_felt (s := s.begin s.mem 0) hv, State.begin_params, State.begin_draws, h, Res.bind_fail]

end Fetch

end Sys2Proof.Machine

namespace Sys2Proof

open Machine

/-- Settles O1: a representable record decodes from its word, and every word that decodes is the word of its record
(`encodeRecord_of_decodeRecord`). -/
theorem recordRoundTrip : Obligations.RecordRoundTrip := by
  unfold Obligations.RecordRoundTrip
  refine fun p => ⟨fun i h => decodeRecord_encodeRecord h, fun w hw => ?_, fun w w' i _ _ h h' => ?_⟩
  · obtain ⟨i, h⟩ := decodeRecord_valid hw
    exact ⟨i, h, encodeRecord_of_decodeRecord h⟩
  · rw [← encodeRecord_of_decodeRecord h, encodeRecord_of_decodeRecord h']

/-- Settles O2: a word by its record (`wellFormed_record`), a command by its ports (`decodeRequest_encodeRequest`). -/
theorem instrRoundTrip : Obligations.InstrRoundTrip := by
  unfold Obligations.InstrRoundTrip
  intro p i hwf
  cases hi : i.record with
  | some r =>
    obtain ⟨hrep, row⟩ := wellFormed_record hi hwf
    rw [encode_record hi, decode, toNat_encodeRecord, decodeWord, decodeRecord_encodeRecord hrep]
    exact congrArg some row
  | none =>
    obtain ⟨q, hq, decoded⟩ := decodeRequest_encodeRequest hi hwf
    rw [encode_command hi hq, decode, decoded]

/-- Settles O3: the valid words decode, and the others fail, from bit 63 on or by a failure of the set E. -/
theorem decodeIsTotal : Obligations.DecodeIsTotal := by
  unfold Obligations.DecodeIsTotal
  refine fun p n w => ⟨fun hv => ?_, fun hv => ?_⟩
  · obtain ⟨i, h⟩ := decodeRecord_valid hv
    exact ⟨i, iduDecode_eq_ok h⟩
  · rcases Nat.lt_or_ge w (2 ^ 63) with hw | hw
    · obtain ⟨f, -, h⟩ := iduDecode_invalid hw hv
      exact ⟨f, h⟩
    · exact ⟨_, reservedBitWins p n w hw⟩

/-- Settles O5: a word on which DECODE fails is not valid, and then its failure is of the set E
(`iduDecode_invalid`). -/
theorem decodeFailureNamesAnInvalidField : Obligations.DecodeFailureNamesAnInvalidField := by
  unfold Obligations.DecodeFailureNamesAnInvalidField
  intro p n w f hw hf
  have invalid : ¬ ValidWord p w := fun hv => by
    obtain ⟨i, h⟩ := decodeRecord_valid hv
    cases hf.symm.trans (iduDecode_eq_ok h)
  obtain ⟨g, hg, answer⟩ := iduDecode_invalid (n := n) hw invalid
  cases hf.symm.trans answer
  exact hg

/-- Settles O8: the answer of the operation DECODE is the outcome of the command. -/
theorem decodeCommandAnswers : Obligations.DecodeCommandAnswers := by
  unfold Obligations.DecodeCommandAnswers
  intro s w
  have outcome {x : Res Instruction} (h : iduDecode s.params s.draws w.toNat = x) :
      exec (.decode w) s = unitOutcome s (x.bind fun i => .ok (.record i)) := h ▸ rfl
  refine ⟨fun hv => ?_, fun hw => outcome (reservedBitWins _ _ _ hw), fun hw hv => ?_⟩
  · obtain ⟨i, h⟩ := decodeRecord_valid hv
    exact ⟨i, h, encodeRecord_of_decodeRecord h, outcome (iduDecode_eq_ok h)⟩
  · obtain ⟨f, hf, h⟩ := iduDecode_invalid hw hv
    exact ⟨f, hf, outcome h⟩

/-- Settles O13: the fetch by what the cell at pc holds, a Felt by DECODE's answer on it (`step_decode_fail`). -/
theorem fetchFailures : Obligations.FetchFailures := by
  unfold Obligations.FetchFailures
  intro s hp hr hpc hh
  refine ⟨fun h => ?_, fun r h => ?_, fun v h => ⟨fun hw => ?_, fun hw hv => ?_⟩⟩
  · refine step_fetch_fail hp hr hpc hh ?_
    simp [fetchDecode, fetchWord, Memory.read_none h]
  · refine step_fetch_refuse hp hr hpc hh ?_
    simp [fetchDecode, fetchWord, Memory.read_some h]
  · exact step_decode_fail hp hr hpc hh h (reservedBitWins _ _ _ hw)
  · obtain ⟨f, hf, answer⟩ := iduDecode_invalid hw hv
    obtain ⟨t, ht, failed⟩ := step_decode_fail hp hr hpc hh h answer
    exact ⟨t, f, hf, ht, failed⟩

end Sys2Proof
end

section
/-! Proofs of the family 41_field_arith: the FAU's commands on Felts (R137 to R148) and the laws of GF(P) for its
operations (R149). -/

namespace Sys2Proof.Machine

variable {P k : Nat} {a b x q : Felt} {s : State}

/-! ### The operations on reduced operands -/

/-- The sum of two raw naturals, reduced first (R137, R138). -/
theorem Fau.add_reduce_val (P : Nat) (a b : Felt) :
    (Fau.add P (a.reduce P) (b.reduce P)).val = (a.val + b.val) % P :=
  (Nat.add_mod _ _ _).symm

/-- The product of two raw naturals, reduced first (R137, R140). -/
theorem Fau.mul_reduce_val (P : Nat) (a b : Felt) :
    (Fau.mul P (a.reduce P) (b.reduce P)).val = (a.val * b.val) % P :=
  (Nat.mul_mod _ _ _).symm

/-- The difference of two raw naturals, reduced first (R137, R139). -/
theorem Fau.sub_reduce_val (hP : 0 < P) (a b : Felt) :
    ((Fau.sub P (a.reduce P) (b.reduce P)).val : Int) = ((a.val : Int) - b.val) % P := by
  simp [Fau.sub, Felt.ofInt_val hP]

/-- The negation of a raw natural, reduced first (R137, R141). -/
theorem Fau.neg_reduce_val (hP : 0 < P) (a : Felt) :
    ((Fau.neg P (a.reduce P)).val : Int) = ((P : Int) - a.val) % P := by
  rw [Fau.neg, Felt.ofInt_val hP, Felt.reduce_val, Int.natCast_mod]
  exact (Int.mod_modEq _ _).sub_left _

/-! ### INV and DIV -/

theorem Fau.inv_zero (ha : a.val = 0) : Fau.inv P a = .fail (.divisionByZero [a]) := if_pos ha

theorem Fau.div_zero (hb : b.val = 0) : Fau.div P a b = .fail (.divisionByZero [a, b]) := if_pos hb

/-- INV answers for a non-zero operand only (R142). -/
theorem Fau.ne_zero_of_inv_ok (h : Fau.inv P a = .ok x) : a.val ≠ 0 := fun ha => by
  cases h.symm.trans (Fau.inv_zero ha)

/-- DIV answers for a non-zero divisor only (R143). -/
theorem Fau.ne_zero_of_div_ok (h : Fau.div P a b = .ok q) : b.val ≠ 0 := fun hb => by
  cases h.symm.trans (Fau.div_zero hb)

/-- A residue that is not 0 is not 0 in GF(P). -/
theorem residue_cast_ne_zero (ha : a.val < P) (h0 : a.val ≠ 0) : (a.val : ZMod P) ≠ 0 := fun e =>
  h0 (Nat.eq_zero_of_dvd_of_lt ((ZMod.natCast_eq_zero_iff _ _).1 e) ha)

/-- INV answers an inverse in GF(P) of a residue that is not 0 (R142). -/
theorem Fau.inv_cast (hP : Nat.Prime P) (ha : a.val < P) (h0 : a.val ≠ 0) :
    ∃ x, Fau.inv P a = .ok x ∧ (a.val : ZMod P) * x.val = 1 :=
  ⟨_, if_neg h0, Fau.cast_invValue hP (residue_cast_ne_zero ha h0)⟩

/-- A residue with product 1 is what INV answers (R142). -/
theorem Fau.inv_unique (hP : 1 < P) (hx : x.val < P) (h : a.val * x.val % P = 1) (h0 : a.val ≠ 0) :
    Fau.inv P a = .ok x := by
  rw [Fau.inv, if_neg h0, Fau.invValue, invMod_eq hP hx h]

/-- A product that is a residue in GF(P) is that residue modulo P. -/
theorem mul_mod_of_cast {m n r : Nat} (hr : r < P) (h : (m : ZMod P) * n = r) : m * n % P = r := by
  rw [← Nat.cast_mul, ZMod.natCast_eq_natCast_iff'] at h
  rwa [Nat.mod_eq_of_lt hr] at h

/-! ### TO_UINT and TO_INT -/

/-- TO_UINT answers the operand exactly below 2^k (R147). -/
theorem Fau.toUint_eq :
    Fau.toUint a k = if a.val < 2 ^ k then .ok a.val else .fail (.overflow (.conversion a k)) := by
  have := Nat.two_pow_pos k
  have fits : a.val ≤ 2 ^ k - 1 ↔ a.val < 2 ^ k := by omega
  simp only [Fau.toUint, fits]

/-- TO_INT answers the operand in the lower half of the range and the operand less P in the top half, both bounds
doubled (R148; D11). -/
theorem Fau.toInt_eq (hk : 1 ≤ k) :
    Fau.toInt P a k =
      if 2 * a.val < 2 ^ k then .ok (a.val : Int)
      else if 2 * (P - a.val) ≤ 2 ^ k then .ok ((a.val : Int) - P)
      else .fail (.overflow (.conversion a k)) := by
  have double : 2 * 2 ^ (k - 1) = 2 ^ k := mul_pow_sub_one (by omega) 2
  have := Nat.two_pow_pos (k - 1)
  have lower : a.val ≤ 2 ^ (k - 1) - 1 ↔ 2 * a.val < 2 ^ k := by omega
  have top : (P : Int) - 2 ^ (k - 1) ≤ a.val ↔ 2 * (P - a.val) ≤ 2 ^ k := by
    rw [sub_le_iff_le_add]
    norm_cast
    omega
  simp only [Fau.toInt, lower, top]

/-! ### The commands on canonical Felts -/

section Commands

variable (ha : a.val < s.params.prime) (hb : b.val < s.params.prime)
include ha

/-- A canonical Felt reaches the operation as it is (R137). -/
theorem fau1_canonical (f : Felt → Res UnitValue) : fau1 s (.felt a) f = f a :=
  congrArg f (Felt.reduce_self ha)

theorem exec_inv : exec (.inv (.felt a)) s = unitOutcome s ((Fau.inv s.params.prime a).bind (.ok <| .felt ·)) :=
  congrArg (unitOutcome s) (fau1_canonical ha _)

theorem exec_toUint : exec (.toUint (.felt a) k) s = unitOutcome s ((Fau.toUint a k).bind (.ok <| .nat ·)) :=
  congrArg (unitOutcome s) (fau1_canonical ha _)

theorem exec_toInt :
    exec (.toInt (.felt a) k) s = unitOutcome s ((Fau.toInt s.params.prime a k).bind (.ok <| .int ·)) :=
  congrArg (unitOutcome s) (fau1_canonical ha _)

include hb

/-- Two canonical Felts reach the operation as they are (R137). -/
theorem fau2_canonical (f : Felt → Felt → Res UnitValue) : fau2 s (.felt a) (.felt b) f = f a b :=
  congrArg₂ f (Felt.reduce_self ha) (Felt.reduce_self hb)

theorem exec_div :
    exec (.div (.felt a) (.felt b)) s = unitOutcome s ((Fau.div s.params.prime a b).bind (.ok <| .felt ·)) :=
  congrArg (unitOutcome s) (fau2_canonical ha hb _)

end Commands

end Sys2Proof.Machine

namespace Sys2Proof

open Machine

/-- Settles O22: INV's value is an inverse in GF(P) (`Fau.inv_cast`), and any inverse is that value
(`Fau.inv_unique`). -/
theorem inverseIsUnique : Obligations.InverseIsUnique := by
  unfold Obligations.InverseIsUnique
  intro s a hP ha
  rw [exec_inv ha]
  refine ⟨fun h0 => ?_, fun h0 => by rw [Fau.inv_zero h0]; rfl⟩
  obtain ⟨x, hx, hcast⟩ := Fau.inv_cast hP ha h0
  have product : a.val * x.val % s.params.prime = 1 := mul_mod_of_cast hP.one_lt (by simpa using hcast)
  have nonzero : x.val ≠ 0 := fun e => by simp [e] at product
  refine ⟨x, by omega, Fau.inv_lt hP.pos hx, product, fun y hy h => ?_, by rw [hx]; rfl⟩
  cases hx.symm.trans (Fau.inv_unique hP.one_lt hy h h0)
  rfl

/-- Settles O23: DIV's value is the quotient in GF(P) (`div_cast`). -/
theorem divisionIsFieldQuotient : Obligations.DivisionIsFieldQuotient := by
  unfold Obligations.DivisionIsFieldQuotient
  intro s a b hP ha hb
  rw [exec_div ha hb]
  refine ⟨fun h0 => ?_, fun h0 => by rw [Fau.div_zero h0]; rfl⟩
  obtain ⟨c, hc, hcast⟩ := div_cast (a := a) hP (residue_cast_ne_zero hb h0)
  exact ⟨c, Fau.div_lt hP.pos hc, mul_mod_of_cast ha hcast, by rw [hc]; rfl⟩

/-- Settles O26: each law holds of the images in GF(P), which tell residues apart (`Felt.eq_of_cast`). -/
theorem fieldLaws : Obligations.FieldLaws := by
  unfold Obligations.FieldLaws
  intro P a b c hP ha hb hc
  have hP0 := hP.pos
  refine ⟨?_, ?_, ?_, ?_, ?_, ?_, fun x hx => ?_, fun q hq => ?_⟩
  · exact Felt.eq_of_cast (Fau.add_lt hP0) (Fau.add_lt hP0) (by simp [add_comm])
  · exact Felt.eq_of_cast (Fau.add_lt hP0) (Fau.add_lt hP0) (by simp [add_assoc])
  · exact Felt.eq_of_cast (Fau.mul_lt hP0) (Fau.mul_lt hP0) (by simp [mul_comm])
  · exact Felt.eq_of_cast (Fau.mul_lt hP0) (Fau.mul_lt hP0) (by simp [mul_assoc])
  · exact Felt.eq_of_cast (Fau.mul_lt hP0) (Fau.add_lt hP0) (by simp [mul_add])
  · exact Felt.eq_of_cast (Fau.sub_lt hP0) (Fau.add_lt hP0)
      (by simp [Fau.cast_sub hP0, Fau.cast_neg hP0, sub_eq_add_neg])
  · refine Felt.eq_of_cast (Fau.mul_lt hP0) (Felt.ofNat_lt hP0 1) ?_
    obtain ⟨y, hy, inverse⟩ := Fau.inv_cast hP ha (Fau.ne_zero_of_inv_ok hx)
    cases hx.symm.trans hy
    rw [Fau.cast_mul, inverse, Felt.cast_ofNat, Nat.cast_one]
  · refine Felt.eq_of_cast (Fau.mul_lt hP0) ha ?_
    obtain ⟨l, hl, quotient⟩ := div_cast (a := a) hP (residue_cast_ne_zero hb (Fau.ne_zero_of_div_ok hq))
    cases hq.symm.trans hl
    rw [Fau.cast_mul, quotient]

/-- Settles O21: the operation on the reduced operands has the residue of the raw ones (`Fau.add_reduce_val` and its
like). -/
theorem fieldAddSubMulNeg : Obligations.FieldAddSubMulNeg := by
  unfold Obligations.FieldAddSubMulNeg
  exact fun s a b hP => ⟨⟨_, Fau.add_reduce_val _ a b, rfl⟩, ⟨_, Fau.sub_reduce_val hP a b, rfl⟩,
    ⟨_, Fau.mul_reduce_val _ a b, rfl⟩, ⟨_, Fau.neg_reduce_val hP a, rfl⟩⟩

/-- Settles O24: EQ and LT compare what their ports reduce to, and REDUCE is the residue of its integer
(`Felt.ofInt_val`). -/
theorem comparesAndReduces : Obligations.ComparesAndReduces := by
  unfold Obligations.ComparesAndReduces
  exact fun s a b n hP => ⟨rfl, rfl, _, Felt.ofInt_val hP n, rfl⟩

/-- Settles O25: the clauses are the branches of TO_UINT (`Fau.toUint_eq`) and of TO_INT (`Fau.toInt_eq`). -/
theorem conversionsCheckTheWidth : Obligations.ConversionsCheckTheWidth := by
  unfold Obligations.ConversionsCheckTheWidth
  intro s a k hk ha
  rw [exec_toUint ha, exec_toInt ha, Fau.toUint_eq, Fau.toInt_eq hk]
  refine ⟨fun fits => ?_, fun large => ?_, fun lower => ?_, fun upper top => ?_, fun upper between => ?_⟩
  · rw [if_pos fits]; rfl
  · rw [if_neg large.not_gt]; rfl
  · rw [if_pos lower]; rfl
  · rw [if_neg upper.not_gt, if_pos top]; rfl
  · rw [if_neg upper.not_gt, if_neg between.not_ge]; rfl

end Sys2Proof
end

section
/-! Proofs of the family 42_range_check: the answers of an active RCU (R161, R162) and the validation of a write into
its segment (R165). -/

namespace Sys2Proof.Machine

/-! ### RC_CHECK of an active unit -/

section Check

variable {cfg : BitVec 16} (hact : rcActive cfg = true)
include hact

/-- An active RCU accepts the Felts below 2^b and no other (R161). -/
theorem rcCheck_felt (x : Felt) :
    rcCheck cfg (.felt x) =
      if x.val < 2 ^ rcBoundExp cfg then .ok () else .fail (.rangeCheckOutOfBounds (.felt x) (2 ^ rcBoundExp cfg)) :=
  if_pos hact

/-- An active RCU accepts no Relocatable (R162). -/
theorem rcCheck_rel (r : Rel) :
    rcCheck cfg (.rel r) = .fail (.rangeCheckOutOfBounds (.rel r) (2 ^ rcBoundExp cfg)) :=
  if_pos hact

end Check

/-- A canonical Felt reaches RC_CHECK as it is (R137, R161). -/
theorem exec_rcCheck_felt {s : State} {x : Felt} (hx : x.val < s.params.prime) :
    exec (.rcCheck (.felt x)) s = unitOutcome s ((rcCheck s.cfg (.felt x)).bind fun _ => .ok .unit) :=
  congrArg (fun y => unitOutcome s ((rcCheck s.cfg (.felt y)).bind fun _ => .ok .unit)) (Felt.reduce_self hx)

/-! ### The segment of the RCU -/

/-- The RCU has a segment only when it is active, and then it is segment 2 (R70). -/
theorem rcSegment_eq_some {cfg : BitVec 16} {n : Nat} : rcSegment cfg = some n ↔ rcActive cfg = true ∧ 2 = n := by
  rw [rcSegment, Option.ite_none_right_eq_some, Option.some_inj]

/-- The ECU's segment comes after the RCU's (R70). -/
theorem ecSegment_ne_rcSegment {cfg : BitVec 16} {n : Nat} (hrc : rcSegment cfg = some n) :
    ecSegment cfg ≠ some n := by
  obtain ⟨hact, rfl⟩ := rcSegment_eq_some.1 hrc
  intro hec
  rw [ecSegment, Option.ite_none_right_eq_some, Option.some_inj, hact, Bool.toNat_true] at hec
  omega

/-- MemWrite to an empty cell of the RCU's segment fills it if RC_CHECK accepts the value (R165). -/
theorem memWrite_rcSegment {s : State} {m : Memory} {a : Rel} {v : MaybeRel}
    (hrc : rcSegment s.cfg = some a.seg.toNat) (hs : m.hasSegment a) (h : m.peek a = none) :
    memWrite s m a v = (rcCheck s.cfg v).bind fun _ => .ok (m.set a v) := by
  have noOutput : ecOutput s.cfg a = none := ecOutput_none fun hec => absurd hec (ecSegment_ne_rcSegment hrc)
  rw [memWrite_empty hs h noOutput, validate, if_pos hrc]

end Sys2Proof.Machine

namespace Sys2Proof

open Machine

/-- Settles O43: a write to an empty cell is decided by RC_CHECK (`memWrite_rcSegment`), one to a filled cell by its
comparison (`memWrite_filled`). -/
theorem rangeCheckSegmentValidates : Obligations.RangeCheckSegmentValidates := by
  unfold Obligations.RangeCheckSegmentValidates
  intro s m a hrc hs
  obtain ⟨hact, -⟩ := rcSegment_eq_some.1 hrc
  refine ⟨fun x h below => ?_, fun x h above => ?_, fun r h => ?_, fun v h => ?_⟩
  · rw [memWrite_rcSegment hrc hs h, rcCheck_felt hact, if_pos below, Res.bind_ok]
  · rw [memWrite_rcSegment hrc hs h, rcCheck_felt hact, if_neg above.not_gt, Res.bind_fail]
  · rw [memWrite_rcSegment hrc hs h, rcCheck_rel hact, Res.bind_fail]
    exact ⟨_, rfl⟩
  · rw [memWrite_filled h, if_pos rfl]

/-- Settles O29: the command's outcome is RC_CHECK's answer on its operand (`rcCheck_felt`, `rcCheck_rel`). -/
theorem rangeCheckAcceptsBelowBound : Obligations.RangeCheckAcceptsBelowBound := by
  unfold Obligations.RangeCheckAcceptsBelowBound
  intro s x r hact hx
  rw [exec_rcCheck_felt hx, rcCheck_felt hact]
  refine ⟨fun below => ?_, fun above => ?_, ?_⟩
  · rw [if_pos below]; rfl
  · rw [if_neg above.not_gt]; rfl
  · exact congrArg (unitOutcome s <| Res.bind · _) (rcCheck_rel hact r)

end Sys2Proof
end

section
/-! Proofs of the family 43_curve: the candidates (R178), by the square root of log 20, which is Tonelli's and Shanks's
loop; the affine formulas by their slopes, and k·Q as the k-fold sum (R173 to R177). -/

namespace Sys2Proof.Machine

/-! ### Square roots (R178; log 20) -/

section SquareRoots

variable {P : Nat} {a : Felt}

theorem squareTimes_cast (n : Nat) : ((squareTimes P n a).val : ZMod P) = (a.val : ZMod P) ^ 2 ^ n := by
  induction n generalizing a with
  | zero => simp [squareTimes]
  | succ n ih => rw [squareTimes, ih, Fau.cast_mul, ← sq, ← pow_mul, ← pow_succ']

theorem squareTimes_lt {n : Nat} (ha : a.val < P) : (squareTimes P n a).val < P := by
  induction n generalizing a with
  | zero => exact ha
  | succ n ih => exact ih (Fau.mul_lt (by omega))

/-- The loop's answer is a root of `a`. What each round keeps: `r * r = a * t`, the order of `t` divides `2 ^ n` unless
`a = 0`, and `c ^ 2 ^ n = -1` while rounds remain (log 20). -/
theorem sqrtLoop_root (hP : Nat.Prime P) {n : Nat} {r t c : Felt} {A : ZMod P} (hlt : t.val < P)
    (hr : (r.val : ZMod P) * r.val = A * t.val) (ht : A * (t.val : ZMod P) ^ 2 ^ n = A)
    (hc : n ≠ 0 → (c.val : ZMod P) ^ 2 ^ n = -1) :
    ((sqrtLoop P n r t c).val : ZMod P) * (sqrtLoop P n r t c).val = A := by
  have : Fact P.Prime := ⟨hP⟩
  induction n generalizing r t c with
  | zero => rw [sqrtLoop, hr]; simpa using ht
  | succ n ih =>
    have square : ((Fau.mul P c c).val : ZMod P) ^ 2 ^ n = -1 := by
      rw [Fau.cast_mul, ← sq, ← pow_mul, ← pow_succ', hc n.succ_ne_zero]
    have test : (squareTimes P n t).val = 1 ↔ (t.val : ZMod P) ^ 2 ^ n = 1 := by
      rw [← squareTimes_cast, ← Nat.cast_one (R := ZMod P), ZMod.natCast_eq_natCast_iff]
      exact ⟨congrArg (· % P), fun h => h.eq_of_lt_of_lt (squareTimes_lt hlt) hP.one_lt⟩
    rw [sqrtLoop]
    simp only [test]
    split
    · next h => exact ih hlt hr (by rw [h, mul_one]) fun _ => square
    · next h =>
      refine ih (Fau.mul_lt hP.pos) (by simp only [Fau.cast_mul]; linear_combination (c.val : ZMod P) ^ 2 * hr) ?_
        fun _ => square
      rw [pow_succ, pow_mul] at ht
      have flip : A * ((t.val : ZMod P) ^ 2 ^ n + 1) = 0 :=
        mul_right_cancel₀ (sub_ne_zero.2 h) (by linear_combination ht)
      rw [Fau.cast_mul, mul_pow, square]
      linear_combination -flip

theorem powMod_cast (b e : Nat) : ((powMod P b e : Nat) : ZMod P) = (b : ZMod P) ^ e := by
  simpa using (ZMod.natCast_eq_natCast_iff _ _ _).2 (powMod_spec P b e)

/-- The search answers the first number that passes, if one does. -/
theorem nonResidue_passes {fuel z v : Nat} (hz : z ≤ v) (hv : v < z + fuel)
    (h : powMod P v ((P - 1) / 2) = P - 1) :
    powMod P (nonResidue P fuel z) ((P - 1) / 2) = P - 1 := by
  induction fuel generalizing z with
  | zero => omega
  | succ fuel ih =>
    rw [nonResidue]
    split
    · assumption
    · next hne =>
      have : z ≠ v := by rintro rfl; exact hne h
      exact ih (by omega) (by omega)

theorem twoPart_eq_two_pow (P : Nat) : ∃ s, twoPart P = 2 ^ s := by
  obtain ⟨s, -, hs⟩ := (Nat.dvd_prime_pow Nat.prime_two).1 (Nat.gcd_dvd_right (P - 1) (2 ^ Nat.log2 (P - 1)))
  exact ⟨s, hs⟩

theorem oddPart_mul_twoPart (P : Nat) : oddPart P * twoPart P = P - 1 :=
  Nat.div_mul_cancel (Nat.gcd_dvd_left _ _)

theorem oddPart_odd (hP : 1 < P) : oddPart P % 2 = 1 := by
  obtain ⟨s, hs⟩ := twoPart_eq_two_pow P
  by_contra even
  have more : 2 ^ (s + 1) ∣ P - 1 := by
    rw [← oddPart_mul_twoPart, hs, pow_succ']
    exact Nat.mul_dvd_mul_right (Nat.dvd_of_mod_eq_zero (by omega)) _
  have small : s + 1 ≤ Nat.log2 (P - 1) := (Nat.le_log2 (by omega)).2 (Nat.le_of_dvd (by omega) more)
  have : 2 ^ (s + 1) ∣ 2 ^ s := hs ▸ Nat.dvd_gcd more (pow_dvd_pow 2 small)
  exact absurd ((Nat.pow_dvd_pow_iff_le_right (by omega)).1 this) (by omega)

/-- Where rounds remain, their number `n` is one less than the exponent of the two-part. -/
theorem oddPart_mul_rounds (h : Nat.log2 (twoPart P) - 1 ≠ 0) :
    oddPart P * 2 ^ (Nat.log2 (twoPart P) - 1) = (P - 1) / 2 := by
  obtain ⟨s, hs⟩ := twoPart_eq_two_pow P
  rw [hs, Nat.log2_two_pow] at h
  rw [← oddPart_mul_twoPart P, hs, Nat.log2_two_pow]
  obtain ⟨n, rfl⟩ : ∃ n, s = n + 1 := ⟨s - 1, by omega⟩
  rw [pow_succ, ← mul_assoc, Nat.mul_div_cancel _ two_pos, Nat.add_sub_cancel]

/-- `P - 1` divides twice the exponent that the loop's first test is about. -/
theorem dvd_oddPart_mul_rounds (P : Nat) : P - 1 ∣ 2 * (oddPart P * 2 ^ (Nat.log2 (twoPart P) - 1)) := by
  obtain ⟨s, hs⟩ := twoPart_eq_two_pow P
  rw [mul_left_comm, ← oddPart_mul_twoPart P, hs, Nat.log2_two_pow, ← pow_succ']
  exact Nat.mul_dvd_mul_left _ (pow_dvd_pow 2 (by omega))

theorem cast_pred_self (hP : 0 < P) : ((P - 1 : Nat) : ZMod P) = -1 := by
  rw [Nat.cast_pred hP, ZMod.natCast_self, zero_sub]

/-- Below an odd prime a number passes Euler's criterion for a non-square. -/
theorem exists_nonResidue (hP : Nat.Prime P) (h2 : P ≠ 2) :
    ∃ v, 2 ≤ v ∧ v < P ∧ powMod P v ((P - 1) / 2) = P - 1 := by
  have : Fact P.Prime := ⟨hP⟩
  have half : P / 2 = (P - 1) / 2 := by
    have := Nat.odd_iff.1 (hP.odd_of_ne_two h2); omega
  obtain ⟨z, hz⟩ := FiniteField.exists_nonsquare (F := ZMod P) (by rwa [ZMod.ringChar_zmod_n])
  have z0 : z ≠ 0 := by rintro rfl; exact hz IsSquare.zero
  have z1 : z ≠ 1 := by rintro rfl; exact hz IsSquare.one
  have euler : z ^ ((P - 1) / 2) = -1 := half ▸
    (ZMod.pow_div_two_eq_neg_one_or_one P z0).resolve_left ((ZMod.euler_criterion P z0).not.1 hz)
  refine ⟨z.val, (Nat.two_le_iff _).2 ⟨(ZMod.val_ne_zero z).2 z0, fun h => z1 ?_⟩, ZMod.val_lt z, ?_⟩
  · rw [← ZMod.natCast_zmod_val z, h, Nat.cast_one]
  · refine ((ZMod.natCast_eq_natCast_iff _ _ P).1 ?_).eq_of_lt_of_lt (powMod_lt hP.pos) (Nat.sub_lt hP.pos one_pos)
    rw [powMod_cast, ZMod.natCast_zmod_val, euler, cast_pred_self hP.pos]

/-- The number that the search answers is no square modulo an odd prime (log 20). -/
theorem nonResidue_pow (hP : Nat.Prime P) (h2 : P ≠ 2) :
    ((nonResidue P P 2 : Nat) : ZMod P) ^ ((P - 1) / 2) = -1 := by
  obtain ⟨v, ge2, lt, passes⟩ := exists_nonResidue hP h2
  rw [← powMod_cast, nonResidue_passes ge2 (by omega) passes, cast_pred_self hP.pos]

/-- Of a square modulo a prime the check at the end accepts the loop's answer (R178; log 20). -/
theorem sqrt_of_isSquare (hP : Nat.Prime P) (ha : a.val < P) (h : IsSquare (a.val : ZMod P)) :
    ∃ y, sqrt P a = some y := by
  have : Fact P.Prime := ⟨hP⟩
  refine ⟨_, if_pos (Felt.eq_of_cast (Fau.mul_lt hP.pos) ha ?_)⟩
  rw [Fau.cast_mul]
  refine sqrtLoop_root hP (powMod_lt hP.pos) ?_ ?_ fun rounds => ?_
  · have half : (oddPart P + 1) / 2 + (oddPart P + 1) / 2 = 1 + oddPart P := by
      have := oddPart_odd hP.one_lt; omega
    rw [powMod_cast, powMod_cast, ← pow_add, half, pow_add, pow_one]
  · obtain ⟨y, hy⟩ := h
    rw [powMod_cast, ← pow_mul, hy]
    obtain ⟨m, hm⟩ := dvd_oddPart_mul_rounds P
    rcases eq_or_ne y 0 with rfl | hy0
    · simp
    · rw [← sq, ← pow_mul, hm, pow_mul, ZMod.pow_card_sub_one_eq_one hy0, one_pow, mul_one]
  · have odd : P ≠ 2 := by
      rintro rfl
      exact rounds (by decide)
    rw [powMod_cast, ← pow_mul, oddPart_mul_rounds rounds, nonResidue_pow hP odd]

/-- What a square root answers squares to its argument. -/
theorem sqrt_root {y : Felt} (h : sqrt P a = some y) : Fau.mul P y y = a := by
  unfold sqrt at h
  simp only [Option.ite_none_right_eq_some, Option.some_inj] at h
  obtain ⟨root, rfl⟩ := h
  exact root

/-- Two roots of one residue are equal or opposite. -/
theorem root_unique (hP : Nat.Prime P) {y z : Felt} (hy : y.val < P) (hz : z.val < P) :
    Fau.mul P z z = Fau.mul P y y ↔ z = y ∨ z = Fau.neg P y := by
  have : Fact P.Prime := ⟨hP⟩
  constructor
  · intro e
    have e' : (z.val : ZMod P) * z.val = y.val * y.val := by rw [← Fau.cast_mul, e, Fau.cast_mul]
    exact (mul_self_eq_mul_self_iff.1 e').imp (Felt.eq_of_cast hz hy)
      fun h => Felt.eq_of_cast hz (Fau.neg_lt hP.pos) (by rw [h, Fau.cast_neg hP.pos])
  · rintro (rfl | rfl)
    · rfl
    · exact Felt.eq_of_cast (Fau.mul_lt hP.pos) (Fau.mul_lt hP.pos) (by simp [Fau.cast_neg hP.pos])

end SquareRoots

/-! ### The candidates (R178) -/

section Candidates

variable {par : Params} {x y : Felt} {q : Point}

theorem ySquared_lt (hP : 0 < par.prime) : (ySquared par x).val < par.prime := Fau.add_lt hP

theorem candidates_none (h : sqrt par.prime (ySquared par x) = none) : candidates par x = [] := by
  simp only [candidates, h]

theorem candidates_some (h : sqrt par.prime (ySquared par x) = some y) :
    candidates par x = if y = Fau.neg par.prime y then [⟨x, y⟩]
      else if y.val < (Fau.neg par.prime y).val then [⟨x, y⟩, ⟨x, Fau.neg par.prime y⟩]
      else [⟨x, Fau.neg par.prime y⟩, ⟨x, y⟩] := by
  simp only [candidates, h]

/-- The candidates are the points of this x with the root or its negation as y (R178). -/
theorem mem_candidates_some (h : sqrt par.prime (ySquared par x) = some y) :
    q ∈ candidates par x ↔ q.x = x ∧ (q.y = y ∨ q.y = Fau.neg par.prime y) := by
  obtain ⟨qx, qy⟩ := q
  rw [candidates_some h]
  split
  · next e => simp [← e]
  · split <;> simp <;> tauto

/-- The candidates are the points of the curve with this x (R173, R178). -/
theorem mem_candidates (hP : Nat.Prime par.prime) (hq : q.canonical par.prime = true) :
    q ∈ candidates par x ↔ q.x = x ∧ Fau.mul par.prime q.y q.y = ySquared par x := by
  have hy := (Point.canonical_iff.1 hq).2
  cases h : sqrt par.prime (ySquared par x) with
  | none =>
    rw [candidates_none h]
    refine ⟨nofun, fun ⟨_, square⟩ => ?_⟩
    obtain ⟨y, hs⟩ := sqrt_of_isSquare hP (ySquared_lt hP.pos) ⟨_, square ▸ Fau.cast_mul⟩
    cases h.symm.trans hs
  | some y =>
    rw [mem_candidates_some h, ← sqrt_root h, root_unique hP (sqrt_lt hP.pos h) hy]

/-- The smaller y first (R178). -/
theorem candidates_rising (par : Params) (x : Felt) :
    (candidates par x).Pairwise fun a b => a.y.val < b.y.val := by
  cases h : sqrt par.prime (ySquared par x) with
  | none => rw [candidates_none h]; exact .nil
  | some y =>
    rw [candidates_some h]
    split
    · exact List.pairwise_singleton _ _
    · next ne =>
      have : y.val ≠ (Fau.neg par.prime y).val := fun e => ne (congrArg Felt.mk e)
      split
      · next lt => exact List.pairwise_pair.2 lt
      · exact List.pairwise_pair.2 (by simp only; omega)

end Candidates

/-! ### The chord and the tangent by their slopes (R175, R176) -/

section Slopes

variable {par : Params} {p q r : Point} {l : ZMod par.prime}

/-- The Felt that stands for an element of GF(P). -/
theorem exists_felt_cast {P : Nat} (hP : Nat.Prime P) (l : ZMod P) : ∃ a : Felt, (a.val : ZMod P) = l :=
  haveI : Fact P.Prime := ⟨hP⟩
  ⟨⟨l.val⟩, ZMod.natCast_zmod_val l⟩

/-- The points of the curve are those on the Weierstrass equation (R171, R173). -/
theorem onCurve_iff_equation (hP : 0 < par.prime) :
    onCurve par p = true ↔ (groupCurve par).Equation (p.x.val : ZMod par.prime) p.y.val := by
  rw [onCurve_cast hP, WeierstrassCurve.Affine.equation_iff]
  simp

variable (hP : Nat.Prime par.prime)
include hP

/-- The sum that the slope of the curve's group law gives of two points of the curve is a point of the curve. -/
theorem onCurve_of_slope (hp : onCurve par p = true) (hq : onCurve par q = true)
    (hxy : ¬((p.x.val : ZMod par.prime) = q.x.val ∧ (p.y.val : ZMod par.prime) = -q.y.val))
    (hl : haveI : Fact par.prime.Prime := ⟨hP⟩
      (groupCurve par).slope (p.x.val : ZMod par.prime) q.x.val p.y.val q.y.val = l)
    (hx : (r.x.val : ZMod par.prime) = l * l - p.x.val - q.x.val)
    (hy : (r.y.val : ZMod par.prime) = l * (p.x.val - r.x.val) - p.y.val) : onCurve par r = true := by
  have : Fact par.prime.Prime := ⟨hP⟩
  rw [onCurve_iff_equation hP.pos] at hp hq ⊢
  have sum := WeierstrassCurve.Affine.equation_add hp hq (by simpa [WeierstrassCurve.Affine.negY] using hxy)
  rw [hl] at sum
  have addX : (r.x.val : ZMod par.prime) = (groupCurve par).addX p.x.val q.x.val l := by
    rw [hx]; simp only [WeierstrassCurve.Affine.addX]; ring
  have addY : (r.y.val : ZMod par.prime) = (groupCurve par).addY p.x.val q.x.val p.y.val l := by
    rw [hy, addX]
    simp only [WeierstrassCurve.Affine.addY, WeierstrassCurve.Affine.negY, WeierstrassCurve.Affine.negAddY]
    ring
  rwa [addX, addY]

/-- The chord of two points of the curve gives a point of the curve (R175). -/
theorem chord_onCurve (hp : onCurve par p = true) (hq : onCurve par q = true)
    (hne : (p.x.val : ZMod par.prime) ≠ q.x.val)
    (hl : l * ((q.x.val : ZMod par.prime) - p.x.val) = q.y.val - p.y.val)
    (hx : (r.x.val : ZMod par.prime) = l * l - p.x.val - q.x.val)
    (hy : (r.y.val : ZMod par.prime) = l * (p.x.val - r.x.val) - p.y.val) : onCurve par r = true := by
  have : Fact par.prime.Prime := ⟨hP⟩
  refine onCurve_of_slope hP hp hq (fun e => hne e.1) ?_ hx hy
  rw [WeierstrassCurve.Affine.slope_of_X_ne hne, div_eq_iff (sub_ne_zero.2 hne)]
  linear_combination hl

/-- The tangent at a point of the curve with y ≠ 0 gives a point of the curve (R176). -/
theorem tangent_onCurve (hp : onCurve par p = true) (hne : (2 : ZMod par.prime) * p.y.val ≠ 0)
    (hl : l * (2 * p.y.val) = 3 * ((p.x.val : ZMod par.prime) * p.x.val) + par.curve.alpha)
    (hx : (r.x.val : ZMod par.prime) = l * l - 2 * p.x.val)
    (hy : (r.y.val : ZMod par.prime) = l * (p.x.val - r.x.val) - p.y.val) : onCurve par r = true := by
  have : Fact par.prime.Prime := ⟨hP⟩
  have opposite : (p.y.val : ZMod par.prime) ≠ -p.y.val := fun e => hne (by linear_combination e)
  have negY : (p.y.val : ZMod par.prime) ≠ (groupCurve par).negY p.x.val p.y.val := by
    simpa [WeierstrassCurve.Affine.negY] using opposite
  refine onCurve_of_slope hP hp hp (fun e => opposite e.2) ?_ (by rw [hx]; ring) hy
  rw [WeierstrassCurve.Affine.slope_of_Y_ne rfl negY, div_eq_iff (sub_ne_zero.2 negY)]
  simp only [WeierstrassCurve.Affine.negY]
  linear_combination -hl

/-- Two points with different x add by the chord's slope (R175). -/
theorem ecAddDistinct_slope (hp : p.canonical par.prime = true) (hq : q.canonical par.prime = true)
    (hx : p.x ≠ q.x) :
    ∃ l r, Fau.mul par.prime l (Fau.sub par.prime q.x p.x) = Fau.sub par.prime q.y p.y ∧
      r.x = Fau.sub par.prime (Fau.sub par.prime (Fau.mul par.prime l l) p.x) q.x ∧
      r.y = Fau.sub par.prime (Fau.mul par.prime l (Fau.sub par.prime p.x r.x)) p.y ∧
      ecAddDistinct par p q = .ok r ∧
      (onCurve par p = true → onCurve par q = true → onCurve par r = true) := by
  have hP0 := hP.pos
  obtain ⟨r, l, hr, cr, hl, ex, ey⟩ := ecAddDistinct_cast hP hp hq hx
  obtain ⟨l, rfl⟩ := exists_felt_cast hP l
  rw [Point.canonical_iff] at hp hq cr
  refine ⟨l, r, ?_, ?_, ?_, hr, fun hpc hqc => chord_onCurve hP hpc hqc (cast_ne hp.1 hq.1 hx) hl ex ey⟩
  · exact Felt.eq_of_cast (Fau.mul_lt hP0) (Fau.sub_lt hP0) (by simpa [Fau.cast_sub hP0] using hl)
  · exact Felt.eq_of_cast cr.1 (Fau.sub_lt hP0) (by simpa [Fau.cast_sub hP0] using ex)
  · exact Felt.eq_of_cast cr.2 (Fau.sub_lt hP0) (by simpa [Fau.cast_sub hP0] using ey)

/-- A point with y ≠ 0 doubles by the tangent's slope (R176). -/
theorem ecDouble_slope (h2 : par.prime ≠ 2) (hp : p.canonical par.prime = true) (hy : p.y.val ≠ 0) :
    ∃ l r, Fau.mul par.prime l (tangentRun par p) = tangentRise par p ∧
      r.x = Fau.sub par.prime (Fau.mul par.prime l l)
        (Fau.mul par.prime (Felt.ofNat par.prime 2) p.x) ∧
      r.y = Fau.sub par.prime (Fau.mul par.prime l (Fau.sub par.prime p.x r.x)) p.y ∧
      ecDouble par p = .ok r ∧ (onCurve par p = true → onCurve par r = true) := by
  have hP0 := hP.pos
  obtain ⟨r, l, hr, cr, hl, ex, ey⟩ := ecDouble_cast hP h2 hp hy
  obtain ⟨l, rfl⟩ := exists_felt_cast hP l
  rw [Point.canonical_iff] at hp cr
  refine ⟨l, r, ?_, ?_, ?_, hr, fun hpc => tangent_onCurve hP hpc (two_mul_ne hP h2 hp.2 hy) hl ex ey⟩
  · exact Felt.eq_of_cast (Fau.mul_lt hP0) (Fau.add_lt hP0)
      (by simpa [tangentRun, tangentRise, curveAlpha] using hl)
  · exact Felt.eq_of_cast cr.1 (Fau.sub_lt hP0) (by simpa [Fau.cast_sub hP0] using ex)
  · exact Felt.eq_of_cast cr.2 (Fau.sub_lt hP0) (by simpa [Fau.cast_sub hP0] using ey)

end Slopes

/-! ### Multiples (R177) -/

section Multiples

variable {par : Params} {p : Point} {g h : GroupPoint}

@[simp] theorem groupAdd_none_left : groupAdd par none g = .ok g := rfl

@[simp] theorem groupAdd_none_right : groupAdd par g none = .ok g := by cases g <;> rfl

theorem groupAdd_ecNegate : groupAdd par (some p) (some (ecNegate par p)) = .ok none := by
  simp [groupAdd, ecNegate]

/-- A residue with value 0 is its own negation. -/
theorem Fau.neg_eq_self {P : Nat} {a : Felt} (hP : 0 < P) (ha : a.val = 0) : a = Fau.neg P a :=
  Felt.eq_of_cast (by omega) (Fau.neg_lt hP) (by simp [Fau.cast_neg hP, ha])

/-- A point with y = 0 is its own negation, so twice it is O (R177). -/
theorem groupAdd_self_of_y_zero (hP : 0 < par.prime) (hy : p.y.val = 0) :
    groupAdd par (some p) (some p) = .ok none := by
  rw [groupAdd, if_pos rfl, if_pos (Fau.neg_eq_self hP hy)]

/-- A canonical element of the group added to itself gives a canonical one, on the curve or off it (R177). -/
theorem groupAdd_self_ok (hP : Nat.Prime par.prime) (h2 : par.prime ≠ 2)
    (hg : ∀ p, g = some p → p.canonical par.prime = true) :
    ∃ h, groupAdd par g g = .ok h ∧ ∀ p, h = some p → p.canonical par.prime = true := by
  rcases g with _ | p
  · exact ⟨none, rfl, nofun⟩
  by_cases hy : p.y.val = 0
  · exact ⟨none, groupAdd_self_of_y_zero hP.pos hy, nofun⟩
  · obtain ⟨r, -, hr, cr, -⟩ := ecDouble_cast hP h2 (hg p rfl) hy
    refine ⟨some r, by rw [groupAdd_self hP h2 (hg p rfl) hy, hr]; rfl, ?_⟩
    rintro _ ⟨⟩
    exact cr

theorem groupMul_zero : groupMul par 0 g = .ok none := by simp [groupMul, groupMulAdd]

/-- 1·Q is Q where Q + Q, which the last round computes too, is defined. -/
theorem groupMul_one (hd : groupAdd par g g = .ok h) : groupMul par 1 g = .ok g := by
  have rounds : Nat.log2 1 + 1 = 1 := by decide
  rw [groupMul, rounds]
  simp [groupMulAdd, hd]

/-- 2·Q is Q + Q where its double, which the last round computes too, is defined. -/
theorem groupMul_two {d : GroupPoint} (hd : groupAdd par g g = .ok h) (hdd : groupAdd par h h = .ok d) :
    groupMul par 2 g = .ok h := by
  have rounds : Nat.log2 2 + 1 = 2 := by decide
  rw [groupMul, rounds]
  simp [groupMulAdd, hd, hdd]

/-- Of O and of every point of the curve, the k-fold sum and k·Q are one point (R177): both name k • Q in the group
of the nonsingular points, and both alternate on a singular point, which is its own negation. -/
theorem groupSum_eq_groupMul (hP : Nat.Prime par.prime) (h2 : par.prime ≠ 2)
    (hg : ∀ p, g = some p → p.canonical par.prime = true ∧ onCurve par p = true) (k : Nat) :
    ∃ r, groupSum par g k = .ok r ∧ groupMul par k g = .ok r := by
  have ofGroup : ∀ X, Denotes par g X → ∃ r, groupSum par g k = .ok r ∧ groupMul par k g = .ok r := by
    intro X hX
    obtain ⟨r, hr, dr⟩ := groupSum_denotes hP h2 hX k
    obtain ⟨t, ht, dt⟩ := groupMul_denotes hP h2 hX k
    exact ⟨r, hr, dr.unique dt ▸ ht⟩
  rcases g with _ | p
  · exact ofGroup .zero rfl
  obtain ⟨cp, hc⟩ := hg p rfl
  rcases denotes_or_singular hP h2 cp hc with ⟨X, hX⟩ | ⟨hy, -⟩
  · exact ofGroup X hX
  · have self := Fau.neg_eq_self hP.pos hy
    exact ⟨_, groupSum_self_negative self k, groupMul_self_negative self k⟩

end Multiples

end Sys2Proof.Machine

namespace Sys2Proof

open Machine

/-- Settles O32: the square root answers a root of every square (`sqrt_of_isSquare`), and it and its negation are all
the roots (`root_unique`). -/
theorem candidatesAreThePoints : Obligations.CandidatesAreThePoints := by
  unfold Obligations.CandidatesAreThePoints
  exact fun par x hP hx => ⟨fun _ hq => mem_candidates hP hq, fun _ hq => candidates_canonical hP.pos hx hq,
    candidates_rising par x⟩

/-- Settles O33: the slopes are those of `ecAddDistinct_slope` and `ecDouble_slope`, the sums those of
`groupSum_eq_groupMul`. -/
theorem pointFormulasStayOnCurve : Obligations.PointFormulasStayOnCurve := by
  unfold Obligations.PointFormulasStayOnCurve
  intro par hP h2
  refine ⟨fun p q hp hq hx => ?_, fun p hp hy => ?_, fun q p => ?_, fun q hq => ?_,
    fun q hq k => groupSum_eq_groupMul hP h2 hq k⟩
  · obtain ⟨l, r, hl, ex, ey, hr, hc⟩ := ecAddDistinct_slope hP hp hq hx
    exact ⟨l, r, hl, ex, ey, hr, by rw [groupAdd_of_ne hx, hr]; rfl, hc⟩
  · obtain ⟨l, r, hl, ex, ey, hr, hc⟩ := ecDouble_slope hP h2 hp hy
    exact ⟨l, r, hl, ex, ey, hr, by rw [groupAdd_self hP h2 hp hy, hr]; rfl, hc⟩
  · exact ⟨groupAdd_none_left, groupAdd_none_right, groupAdd_ecNegate⟩
  · obtain ⟨d, hd, cd⟩ := groupAdd_self_ok hP h2 hq
    obtain ⟨e, he, -⟩ := groupAdd_self_ok hP h2 cd
    exact ⟨groupMul_zero, groupMul_one hd, (groupMul_two hd he).trans hd.symm⟩

end Sys2Proof
end

section
/-! Proofs of the family 44_signature: SIG_SET's entry (R185), the cases of SIG_VERIFY and its default predicate (R183,
R184, R189), and the validation of a write into the SVU's segment (R190). -/

namespace Sys2Proof.Machine

/-! ### SIG_SET -/

/-- SIG_SET of an active unit before the start answers ok and sets SIG_TAB (R185). -/
theorem exec_sigSet_before_start {s : State} {off : U32} {r q : BitVec 256} (hact : sigActive s.cfg = true)
    (hst : s.started = false) :
    exec (.sigSet off r q) s = .next ((s.setSigTab (sigSet s.sigTab off ⟨r, q⟩)).answer (.ok .unit)) := by
  rw [exec_sigSet, execSigSet, if_neg (by simp [hact]), if_neg (by simp [hst])]
  rfl

/-- SIG_SET of an active unit after the start is refused (R185, R272). -/
theorem exec_sigSet_after_start {s : State} {off : U32} {r q : BitVec 256} (hact : sigActive s.cfg = true)
    (hst : s.started = true) :
    exec (.sigSet off r q) s = .next (s.answer (.refused .hostWriteDuringRun)) := by
  rw [exec_sigSet, execSigSet, if_neg (by simp [hact]), if_pos hst]
  rfl

/-! ### SIG_VERIFY of an active unit on Felts -/

/-- An active SVU consults its table on Felt operands (R184). -/
theorem sigVerify_felt {cfg : BitVec 16} {par : Params} {tab : Option (List (Nat × Sig))} {off : U32} {pk msg : Felt}
    (hact : sigActive cfg = true) :
    sigVerify cfg par tab off (.felt pk) (.felt msg) = sigVerifyFelts par tab off pk msg :=
  if_pos hact

/-- Canonical Felts reach SIG_VERIFY as they are (R137, R184). -/
theorem exec_sigVerify_felt {s : State} {off : U32} {pk msg : Felt} (hact : sigActive s.cfg = true)
    (hpk : pk.val < s.params.prime) (hmsg : msg.val < s.params.prime) :
    exec (.sigVerify off (.felt pk) (.felt msg)) s =
      unitOutcome s ((sigVerifyFelts s.params s.sigTab off pk msg).bind fun _ => .ok .unit) := by
  change execSigVerify off (.felt pk) (.felt msg) s = _
  rw [execSigVerify, State.operand_felt, State.operand_felt, Felt.reduce_self hpk, Felt.reduce_self hmsg,
    sigVerify_felt hact]

section Entry

variable {par : Params} {t : List (Nat × Sig)} {off : U32} {pk msg : Felt}

theorem sigVerifyFelts_no_table : sigVerifyFelts par none off pk msg = .fail .undefinedDictionary := rfl

theorem sigVerifyFelts_no_entry (h : tableLookup t off.toNat = none) :
    sigVerifyFelts par (some t) off pk msg = .fail (.undefinedSignature off) := by
  simp only [sigVerifyFelts, h]

/-- With an entry the candidates decide (R184). -/
theorem sigVerifyFelts_entry {sig : Sig} (h : tableLookup t off.toNat = some sig) :
    sigVerifyFelts par (some t) off pk msg =
      if (candidates par pk).any (sigPredicate par msg sig.r.toNat sig.s.toNat) then .ok ()
      else .fail (.invalidSignature sig.r.toNat sig.s.toNat msg (candidates par pk)) := by
  simp only [sigVerifyFelts, h]

end Entry

/-! ### The default predicate (R183) -/

/-- The point (z w)G + (r w)Q of R183 exists, is not O, and has the x-coordinate r. -/
def SumHasX (par : Params) (z : Felt) (r w : Nat) (q : Point) : Prop :=
  ∃ a b t, groupMul par (z.val * w % par.curve.order) (some (generator par)) = .ok a ∧
    groupMul par (r * w % par.curve.order) (some q) = .ok b ∧ groupAdd par a b = .ok (some t) ∧ t.x.val = r

/-- ecdsaVerify holds exactly when all its range checks pass and the sum has the x-coordinate r (R183). -/
theorem ecdsaVerify_iff {par : Params} {z : Felt} {r s : Nat} {q : Point} :
    ecdsaVerify par z r s q = true ↔
      (1 ≤ r ∧ r < 2 ^ 251) ∧ (1 ≤ s ∧ s < par.curve.order) ∧ z.val < 2 ^ 251 ∧
        (1 ≤ invMod par.curve.order s ∧ invMod par.curve.order s < 2 ^ 251) ∧
        SumHasX par z r (invMod par.curve.order s) q := by
  simp only [ecdsaVerify, ite_not, Bool.if_false_right, Bool.and_eq_true, decide_eq_true_eq]
  refine and_congr_right' (and_congr_right' (and_congr_right' (and_congr_right' ?_)))
  constructor
  · intro h
    split at h
    · next p sum =>
      obtain ⟨a, ha, sum⟩ := Res.bind_eq_ok.1 sum
      obtain ⟨b, hb, sum⟩ := Res.bind_eq_ok.1 sum
      exact ⟨a, b, p, ha, hb, sum, of_decide_eq_true h⟩
    · cases h
  · rintro ⟨a, b, t, ha, hb, sum, hx⟩
    simp only [ha, hb, sum, Res.bind_ok, hx, decide_true]

/-- Under the default scheme the predicate is ecdsaVerify (R189). -/
theorem sigPredicate_starkEcdsa {par : Params} (h : par.sigScheme = .starkEcdsa) (z : Felt) (r s : Nat) (q : Point) :
    sigPredicate par z r s q = ecdsaVerify par z r s q := by
  simp only [sigPredicate, h]

/-! ### The segment of the SVU -/

/-- The SVU has a segment only when it is active, the one after the RCU's (R70). -/
theorem sigSegment_eq_some {cfg : BitVec 16} {n : Nat} :
    sigSegment cfg = some n ↔ sigActive cfg = true ∧ 2 + (rcActive cfg).toNat = n := by
  rw [sigSegment, Option.ite_none_right_eq_some, Option.some_inj]

theorem rcSegment_ne_sigSegment {cfg : BitVec 16} {n : Nat} (hsig : sigSegment cfg = some n) :
    rcSegment cfg ≠ some n := by
  intro hrc
  obtain ⟨hact, rfl⟩ := rcSegment_eq_some.1 hrc
  obtain ⟨-, hn⟩ := sigSegment_eq_some.1 hsig
  simp [hact] at hn

theorem ecSegment_ne_sigSegment {cfg : BitVec 16} {n : Nat} (hsig : sigSegment cfg = some n) :
    ecSegment cfg ≠ some n := by
  obtain ⟨hact, rfl⟩ := sigSegment_eq_some.1 hsig
  simp [ecSegment, hact]

/-- `key` and `msg` are the public-key cell and the message cell of the instance of `a` (R190). -/
structure SigPair (a key msg : Rel) : Prop where
  key_cell : cellAt a (2 * (a.off.toNat / 2)) = key
  msg_cell : cellAt a (2 * (a.off.toNat / 2) + 1) = msg

section Pair

variable {m : Memory} {a key msg partner : Rel}

theorem cellAt_eq {o : Nat} (hseg : partner.seg = a.seg) (hoff : partner.off.toNat = o) : cellAt a o = partner := by
  subst hoff
  simp [cellAt, withOff, ← hseg]

theorem SigPair.of_even (hseg : partner.seg = a.seg) (heven : a.off.toNat % 2 = 0)
    (hoff : partner.off.toNat = a.off.toNat + 1) : SigPair a a partner :=
  ⟨cellAt_eq rfl (by omega), cellAt_eq hseg (by omega)⟩

theorem SigPair.of_odd (hseg : partner.seg = a.seg) (hodd : a.off.toNat % 2 = 1)
    (hoff : partner.off.toNat = a.off.toNat - 1) : SigPair a partner a :=
  ⟨cellAt_eq hseg (by omega), cellAt_eq rfl (by omega)⟩

theorem SigPair.sigInstance_some (hp : SigPair a key msg) {pk z : MaybeRel} (hpk : m.peek key = some pk)
    (hz : m.peek msg = some z) : sigInstance m a = some (key.off, pk, z) := by
  obtain ⟨rfl, rfl⟩ := hp
  simp only [sigInstance, hpk, hz]
  rfl

theorem SigPair.sigInstance_none (hp : SigPair a key msg) (h : m.peek key = none ∨ m.peek msg = none) :
    sigInstance m a = none := by
  obtain ⟨rfl, rfl⟩ := hp
  simp only [sigInstance]
  split
  · next hkey hmsg => simp [hkey, hmsg] at h
  · rfl

end Pair

section Write

variable {s : State} {m : Memory} {a : Rel} {v : MaybeRel} (hsig : sigSegment s.cfg = some a.seg.toNat)
  (hs : m.hasSegment a) (h : m.peek a = none)
include hsig hs h

/-- MemWrite to an empty cell of the SVU's segment that leaves its instance incomplete is accepted (R190). -/
theorem memWrite_sigSegment_incomplete (hi : sigInstance (m.set a v) a = none) :
    memWrite s m a v = .ok (m.set a v) := by
  rw [memWrite_empty hs h (ecOutput_none fun hec => absurd hec (ecSegment_ne_sigSegment hsig)), validate,
    if_neg (rcSegment_ne_sigSegment hsig), if_pos hsig, hi]
  rfl

/-- MemWrite to an empty cell of the SVU's segment that completes its instance is followed by SIG_VERIFY (R190). -/
theorem memWrite_sigSegment_complete {off : U32} {pk z : MaybeRel}
    (hi : sigInstance (m.set a v) a = some (off, pk, z)) :
    memWrite s m a v = (sigVerify s.cfg s.params s.sigTab off pk z).bind fun _ => .ok (m.set a v) := by
  rw [memWrite_empty hs h (ecOutput_none fun hec => absurd hec (ecSegment_ne_sigSegment hsig)), validate,
    if_neg (rcSegment_ne_sigSegment hsig), if_pos hsig, hi]

end Write

end Sys2Proof.Machine

namespace Sys2Proof

open Machine

/-- Settles O31: the table that SIG_SET leaves is `tableInsert`'s, whose lookups are `tableLookup_insert_same` and
`tableLookup_insert_other`. -/
theorem sigSetWritesOneEntry : Obligations.SigSetWritesOneEntry := by
  unfold Obligations.SigSetWritesOneEntry
  intro s off r q hact
  refine ⟨fun hst => ?_, exec_sigSet_after_start hact⟩
  exact ⟨_, exec_sigSet_before_start hact hst, tableLookup_insert_same _ _ _,
    fun k hk => tableLookup_insert_other _ _ hk⟩

/-- Settles O44: the written cell is one of its instance's pair (`SigPair.of_even`, `SigPair.of_odd`), and whether the
partner is filled decides if SIG_VERIFY runs. -/
theorem signatureSegmentVerifiesPairs : Obligations.SignatureSegmentVerifiesPairs := by
  unfold Obligations.SignatureSegmentVerifiesPairs
  intro s m a partner v hsig hs h hseg hoff
  have written : (m.set a v).peek a = some v := Memory.peek_set_same m a v hs
  have other : (m.set a v).peek partner = m.peek partner := by
    refine Memory.peek_set_other m v ?_
    rintro rfl
    split at hoff <;> omega
  rcases Nat.mod_two_eq_zero_or_one a.off.toNat with heven | hodd
  · have pair : SigPair a a partner := .of_even hseg heven (by rw [hoff, if_pos heven])
    refine ⟨fun hp => ?_, fun w hw _ => ?_, fun w hw hodd => by omega⟩
    · exact memWrite_sigSegment_incomplete hsig hs h (pair.sigInstance_none (.inr (other.trans hp)))
    · exact memWrite_sigSegment_complete hsig hs h (pair.sigInstance_some written (other.trans hw))
  · have pair : SigPair a partner a := .of_odd hseg hodd (by rw [hoff, if_neg (by omega)])
    refine ⟨fun hp => ?_, fun w hw heven => by omega, fun w hw _ => ?_⟩
    · exact memWrite_sigSegment_incomplete hsig hs h (pair.sigInstance_none (.inl (other.trans hp)))
    · exact memWrite_sigSegment_complete hsig hs h (pair.sigInstance_some (other.trans hw) written)

/-- Settles O30: the cases are those of `sigVerifyFelts`, and the default predicate is `ecdsaVerify_iff` with the
inverse of s that `invMod` answers (`invMod_eq`). -/
theorem sigVerifyCases : Obligations.SigVerifyCases := by
  unfold Obligations.SigVerifyCases
  refine ⟨fun s off pk msg hact hpk hmsg => ?_, fun par scheme => ⟨fun z r s q out => ?_, ?_⟩⟩
  · rw [exec_sigVerify_felt hact hpk hmsg]
    refine ⟨fun ht => ?_, fun t ht hnone => ?_, fun t sig ht hsig verifies => ?_, fun t sig ht hsig rejects => ?_⟩
    · rw [ht, sigVerifyFelts_no_table]; rfl
    · rw [ht, sigVerifyFelts_no_entry hnone]; rfl
    · rw [ht, sigVerifyFelts_entry hsig, if_pos (List.any_eq_true.2 verifies)]; rfl
    · rw [ht, sigVerifyFelts_entry hsig, List.any_eq_false.2 fun q hq => Bool.eq_false_iff.1 (rejects q hq)]; rfl
  · rw [sigPredicate_starkEcdsa scheme, Bool.eq_false_iff, Ne, ecdsaVerify_iff]
    rintro ⟨⟨hr, hr'⟩, ⟨hs, hs'⟩, hz, -⟩
    omega
  · intro z r s w q hr hr' hs hs' hz hw inverse
    have order : 1 < par.curve.order := by omega
    have positive : 1 ≤ w := Nat.pos_of_ne_zero (by rintro rfl; simp at inverse)
    rw [sigPredicate_starkEcdsa scheme, ecdsaVerify_iff, invMod_eq order hw inverse]
    exact ⟨fun ⟨_, _, _, ⟨_, below⟩, sum⟩ => ⟨below, sum⟩,
      fun ⟨below, sum⟩ => ⟨⟨hr, hr'⟩, ⟨hs, hs'⟩, hz, ⟨positive, below⟩, sum⟩⟩

end Sys2Proof
end

section
/-! Proofs of the family 45_ec_op: EC_OP on Felts as its curve check and its ladder (R196 to R202), and the read and the
write of an empty output cell of the ECU (R203, R204). -/

namespace Sys2Proof.Machine

/-! ### Chains, and a command that answers -/

/-- Two chains after one another are one. -/
theorem Res.bind_assoc {α β γ : Type} (x : Res α) (f : α → Res β) (g : β → Res γ) :
    (x.bind f).bind g = x.bind fun a => (f a).bind g := by
  cases x <;> rfl

/-- A command answers a value exactly when its operation does (R14). -/
theorem unitOutcome_eq_answer {s : State} {x : Res UnitValue} {v : UnitValue} :
    unitOutcome s x = .next (s.answer (.ok v)) ↔ x = .ok v := by
  constructor
  · intro h
    cases x with
    | ok w => simpa [unitOutcome, State.answer] using h
    | fail f => simp [unitOutcome, State.answer, State.answerFail] at h
    | refuse g => simp [unitOutcome, State.answer] at h
  · rintro rfl
    rfl

/-! ### Which iterations go through (R196) -/

section Ladder

variable {par : Params} {n h k : Nat} {p q acc dbl : Point} {c : Felt}

/-- Two different canonical Felts have a difference that is not 0 (R139). -/
theorem Fau.sub_val_ne {P : Nat} {a b : Felt} (hP : 0 < P) (ha : a.val < P) (hb : b.val < P) (hne : a ≠ b) :
    (Fau.sub P a b).val ≠ 0 := by
  intro h0
  have difference := Fau.cast_sub (a := a) (b := b) hP
  rw [h0, Nat.cast_zero] at difference
  exact cast_ne ha hb hne (sub_eq_zero.1 difference.symm)

/-- Canonical points with different x add, for every P (R175). -/
theorem ecAddDistinct_ok (hP : 0 < par.prime) (hp : p.canonical par.prime = true)
    (hq : q.canonical par.prime = true) (hx : q.x ≠ p.x) : ∃ r, ecAddDistinct par p q = .ok r := by
  have run := Fau.sub_val_ne hP (Point.canonical_iff.1 hq).1 (Point.canonical_iff.1 hp).1 hx
  exact ⟨_, by rw [ecAddDistinct, Fau.div, if_neg run, Res.bind_ok]⟩

theorem ecDouble_canonical {r : Point} (hP : 0 < par.prime) (hd : ecDouble par p = .ok r) :
    r.canonical par.prime = true := by
  obtain ⟨l, -, hd⟩ := Res.bind_eq_ok.1 hd
  cases hd
  simp [Point.canonical, Fau.sub_lt hP]

/-- Equal x-coordinates stop the ladder, whatever the scalar is (R196, R199). -/
theorem ladder_equal_x (hx : dbl.x = acc.x) : ladder par n p q c (h + 1) acc dbl k = .fail (.ladderFailure p q c) := by
  rw [ladder, if_pos hx]

/-- A scalar left over stops the ladder after its last iteration (R196). -/
theorem ladder_leftover (hk : k ≠ 0) : ladder par n p q c 0 acc dbl k = .fail (.ladderFailure p q c) := by
  rw [ladder, if_neg hk]

/-- A doubled point with y = 0 stops the ladder after the addition, which canonical points pass (R200). -/
theorem ladder_y_zero (hP : 0 < par.prime) (ha : acc.canonical par.prime = true)
    (hd : dbl.canonical par.prime = true) (hx : dbl.x ≠ acc.x) (hy : dbl.y.val = 0) :
    ladder par n p q c (h + 1) acc dbl k = .fail (doublingFailure par n p q c dbl) := by
  have added : ∃ r, (if k % 2 = 1 then ecAddDistinct par acc dbl else .ok acc) = .ok r := by
    split
    · exact ecAddDistinct_ok hP ha hd hx
    · exact ⟨acc, rfl⟩
  obtain ⟨r, hr⟩ := added
  rw [ladder, if_neg hx, hr, Res.bind_ok, if_pos hy]

/-- The two kinds that a doubling with y = 0 can raise (R200; logs 10, 25). -/
theorem doublingFailure_cases (hy : dbl.y.val = 0) :
    doublingFailure par n p q c dbl = .ladderFailure p q c ∨
      doublingFailure par n p q c dbl = .divisionByZero [tangentRise par dbl, Felt.zero] := by
  have run : tangentRun par dbl = Felt.zero := by simp [tangentRun, Fau.mul, Felt.ofNat, Felt.zero, hy]
  rw [doublingFailure, run]
  exact ite_eq_or_eq ..

/-! ### What iterations that go through leave (R196) -/

variable {u v : Point × Point × Nat}

/-- Both points of the ladder's state are canonical. -/
def LadderCanonical (par : Params) (u : Point × Point × Nat) : Prop :=
  u.1.canonical par.prime = true ∧ u.2.1.canonical par.prime = true

theorem ladderStep_canonical (hP : 0 < par.prime) (hs : LadderStep par u v) (hu : LadderCanonical par u) :
    LadderCanonical par v := by
  cases hs with
  | zero _ _ hd => exact ⟨hu.1, ecDouble_canonical hP hd⟩
  | one _ _ ha hd => exact ⟨ecAddDistinct_canonical hP ha, ecDouble_canonical hP hd⟩

theorem ladderSteps_canonical (hP : 0 < par.prime) (hs : LadderSteps par n u v) (hu : LadderCanonical par u) :
    LadderCanonical par v := by
  induction hs with
  | zero _ => exact hu
  | next hstep _ ih => exact ih (ladderStep_canonical hP hstep hu)

/-- Each iteration halves the scalar (R196). -/
theorem ladderSteps_scalar (hs : LadderSteps par n u v) : v.2.2 = u.2.2 / 2 ^ n := by
  induction hs with
  | zero _ => simp
  | next hstep _ ih =>
    rw [ih, pow_succ', ← Nat.div_div_eq_div_mul]
    cases hstep <;> rfl

/-- A scalar that does not fit EC_HEIGHT bits is not used up (R201). -/
theorem ladderRun_scalar_lt {r : Point} (hl : LadderRun par p q c r) : c.val < 2 ^ par.ecHeight := by
  obtain ⟨d, hs⟩ := hl
  exact (Nat.div_eq_zero_iff_lt (by positivity)).1 (ladderSteps_scalar hs).symm

/-- The ladder goes on behind an iteration that goes through. -/
theorem ladder_of_step (hs : LadderStep par u v) :
    ladder par n p q c (h + 1) u.1 u.2.1 u.2.2 = ladder par n p q c h v.1 v.2.1 v.2.2 := by
  cases hs with
  | zero hx hk hd => simp [ladder, hx, hk, hd, ecDouble_y hd]
  | one hx hk ha hd => simp [ladder, hx, hk, ha, hd, ecDouble_y hd]

/-- After `h` iterations that go through, the ladder is at the state that they leave. -/
theorem ladder_of_steps {d : Nat} (hs : LadderSteps par h u v) :
    ladder par n p q c (h + d) u.1 u.2.1 u.2.2 = ladder par n p q c d v.1 v.2.1 v.2.2 := by
  induction hs with
  | zero _ => rw [Nat.zero_add]
  | next hstep _ ih => rw [Nat.add_right_comm, ladder_of_step hstep, ih]

/-! ### No refusal within EC_OP -/

/-- The operation answers or fails; it is not refused. -/
def NeverRefused {α : Type} (x : Res α) : Prop := ∀ g, x ≠ .refuse g

theorem NeverRefused.bind {α β : Type} {x : Res α} {f : α → Res β} (hx : NeverRefused x)
    (hf : ∀ a, NeverRefused (f a)) : NeverRefused (x.bind f) := by
  cases x with
  | ok a => exact hf a
  | fail e => exact fun _ => nofun
  | refuse g => exact absurd rfl (hx g)

theorem div_neverRefused {P : Nat} {a b : Felt} : NeverRefused (Fau.div P a b) := by
  unfold Fau.div
  split <;> exact fun _ => nofun

theorem ecAddDistinct_neverRefused : NeverRefused (ecAddDistinct par p q) :=
  div_neverRefused.bind fun _ _ => nofun

theorem ecDouble_neverRefused : NeverRefused (ecDouble par p) := div_neverRefused.bind fun _ _ => nofun

theorem ladder_neverRefused : NeverRefused (ladder par n p q c h acc dbl k) := by
  induction h generalizing acc dbl k with
  | zero =>
    unfold ladder
    split <;> exact fun _ => nofun
  | succ h ih =>
    unfold ladder
    split
    · exact fun _ => nofun
    · refine NeverRefused.bind ?_ fun acc' => ?_
      · split
        · exact ecAddDistinct_neverRefused
        · exact fun _ => nofun
      · split
        · exact fun _ => nofun
        · exact ecDouble_neverRefused.bind fun _ => ih

end Ladder

/-! ### EC_OP on Felts: the curve check, then the ladder (R196, R198) -/

section OnFelts

variable {par : Params} {n : Nat} {p q r : Point} {c : Felt}

theorem ecOpFelts_p_off (hc : par.ecCheckOnCurve = true) (hp : onCurve par p = false) :
    ecOpFelts par n p q c = .fail (.pointNotOnCurve p) := by
  simp [ecOpFelts, hc, hp]

theorem ecOpFelts_q_off (hc : par.ecCheckOnCurve = true) (hp : onCurve par p = true) (hq : onCurve par q = false) :
    ecOpFelts par n p q c = .fail (.pointNotOnCurve q) := by
  simp [ecOpFelts, hc, hp, hq]

/-- Where no check fails EC_OP is its ladder. -/
theorem ecOpFelts_checked (hc : EcChecked par p q) :
    ecOpFelts par n p q c = ladder par n p q c par.ecHeight p q c.val := by
  rw [ecOpFelts, if_neg fun ⟨check, off⟩ => off (hc check).1, if_neg fun ⟨check, off⟩ => off (hc check).2]

/-- The inputs pass the curve check, or EC_OP fails by it (R198). -/
theorem ecChecked_or_fails (par : Params) (n : Nat) (p q : Point) (c : Felt) :
    EcChecked par p q ∨ ∃ f, ecOpFelts par n p q c = .fail f := by
  by_cases hc : par.ecCheckOnCurve = true
  · cases hp : onCurve par p with
    | false => exact .inr ⟨_, ecOpFelts_p_off hc hp⟩
    | true =>
      cases hq : onCurve par q with
      | false => exact .inr ⟨_, ecOpFelts_q_off hc hp hq⟩
      | true => exact .inl fun _ => ⟨hp, hq⟩
  · exact .inl fun check => absurd check hc

/-- EC_OP answers a point exactly when the checks are passed and the iterations go through to it. -/
theorem ecOpFelts_ok : ecOpFelts par n p q c = .ok r ↔ EcChecked par p q ∧ LadderRun par p q c r := by
  rcases ecChecked_or_fails par n p q c with hc | ⟨f, hf⟩
  · rw [ecOpFelts_checked hc, ladder_ok, and_iff_right hc, LadderRun]
  · constructor
    · simp [hf]
    · rintro ⟨hc, hl⟩
      rw [ecOpFelts_checked hc, ladder_ok]
      exact hl

/-- A scalar that does not fit EC_HEIGHT bits fails (R201). -/
theorem ecOpFelts_overlong (hm : 2 ^ par.ecHeight ≤ c.val) : ∃ f, ecOpFelts par n p q c = .fail f := by
  rcases ecChecked_or_fails par n p q c with hc | hf
  · cases ho : ecOpFelts par n p q c with
    | ok r => exact absurd (ladderRun_scalar_lt (ecOpFelts_ok.1 ho).2) hm.not_gt
    | fail f => exact ⟨f, rfl⟩
    | refuse g => exact absurd (ecOpFelts_checked hc ▸ ho) (ladder_neverRefused g)
  · exact hf

/-- Iterations that go through, and what the ladder does from the state they leave (R196). -/
theorem ecOpFelts_reaches {j d k : Nat} {acc dbl : Point} (hc : EcChecked par p q) (hj : j + d = par.ecHeight)
    (hs : LadderSteps par j (p, q, c.val) (acc, dbl, k)) :
    ecOpFelts par n p q c = ladder par n p q c d acc dbl k := by
  rw [ecOpFelts_checked hc, ← hj, ladder_of_steps hs]

/-- An active ECU runs EC_OP on Felt operands (R196). -/
theorem ecOp_felts {cfg : BitVec 16} (hact : ecActive cfg = true) :
    ecOp cfg par n (.felt p.x) (.felt p.y) (.felt q.x) (.felt q.y) (.felt c) = ecOpFelts par n p q c :=
  if_pos hact

end OnFelts

/-! ### The command EC_OP on canonical Felts -/

section Command

variable {s : State} {p q : Point} {m : Felt}

/-- The instruction EC_OP on the coordinates of two points and a scalar. -/
abbrev ecOpInstr (p q : Point) (m : Felt) : Instr :=
  .ecOp (.felt p.x) (.felt p.y) (.felt q.x) (.felt q.y) (.felt m)

variable (hact : ecActive s.cfg = true) (hp : p.canonical s.params.prime = true)
  (hq : q.canonical s.params.prime = true) (hm : m.val < s.params.prime)
include hact hp hq hm

/-- Canonical Felts reach EC_OP as they are (R137, R196). -/
theorem exec_ecOp_felts :
    exec (ecOpInstr p q m) s = unitOutcome s ((ecOpFelts s.params s.draws p q m).bind fun r => .ok (.point r)) := by
  obtain ⟨hpx, hpy⟩ := Point.canonical_iff.1 hp
  obtain ⟨hqx, hqy⟩ := Point.canonical_iff.1 hq
  change execEcOp _ _ _ _ _ s = _
  simp only [execEcOp, State.operand_felt, Felt.reduce_self, hpx, hpy, hqx, hqy, hm, ecOp_felts hact]

theorem exec_ecOp_point {r : Point} :
    exec (ecOpInstr p q m) s = .next (s.answer (.ok (.point r))) ↔ ecOpFelts s.params s.draws p q m = .ok r := by
  rw [exec_ecOp_felts hact hp hq hm, unitOutcome_eq_answer, Res.bind_eq_ok]
  simp

theorem exec_ecOp_fail {f : Failure} (hf : ecOpFelts s.params s.draws p q m = .fail f) :
    exec (ecOpInstr p q m) s = .next (s.answerFail f) := by
  rw [exec_ecOp_felts hact hp hq hm, hf]
  rfl

end Command

/-! ### The output cells of the ECU (R203) -/

section Output

variable {s : State} {m : Memory} {a : Rel} {k : Nat} {v : MaybeRel}

/-- With an empty input nothing is deduced (R203). -/
theorem ecDeduce_none (h : ∃ j < 5, m.peek (cellAt a (7 * k + j)) = none) : ecDeduce s m a k = none := by
  obtain ⟨j, hj, hempty⟩ := h
  unfold ecDeduce
  split
  · next h0 h1 h2 h3 h4 => interval_cases j <;> simp_all only [add_zero, reduceCtorEq]
  · rfl

/-- Five Felts are deduced by EC_OP (R203). -/
theorem ecDeduce_of_felts {p q : Point} {c : Felt} (hact : ecActive s.cfg = true)
    (h : EcInputs m a.seg k (.felt p.x) (.felt p.y) (.felt q.x) (.felt q.y) (.felt c)) :
    ecDeduce s m a k = some (ecOpFelts s.params s.draws p q c) := by
  rw [ecDeduce_of_inputs h, ecOp_felts hact]

/-- A Relocatable among the inputs refuses the deduction (R204). -/
theorem ecDeduce_of_relocatable {px py qx qy c : MaybeRel} {t : Rel} (hact : ecActive s.cfg = true)
    (h : EcInputs m a.seg k px py qx qy c) (ht : .rel t ∈ [px, py, qx, qy, c]) :
    ecDeduce s m a k = some (.refuse .relocatableOperand) := by
  rw [ecDeduce_of_inputs h, ecOp_relocatable hact ht]

/-- The coordinate of an output cell, by its offset (R203). -/
theorem ecCoordinate_eq (hoff : a.off.toNat = 7 * k + 5 ∨ a.off.toNat = 7 * k + 6) (r : Point) :
    ecCoordinate a r = .felt (if a.off.toNat = 7 * k + 5 then r.x else r.y) := by
  unfold ecCoordinate
  rcases hoff with e | e
  · rw [if_pos (by omega), if_pos e]
  · rw [if_neg (by omega), if_neg (by omega)]

/-- assertEq goes through on a cell that is empty or holds the value (R67). -/
theorem Memory.assertEq_agrees (hs : m.hasSegment a) (h : ∀ w, m.peek a = some w → w = v) :
    ∃ m', m.assertEq a v = .ok m' := by
  rw [Memory.assertEq, if_pos hs]
  split
  · exact ⟨_, rfl⟩
  · next w hw => exact ⟨m, if_pos (h w hw)⟩

/-- assertEq fails on a cell that holds another value (R67). -/
theorem Memory.assertEq_conflict {w : MaybeRel} (h : m.peek a = some w) (hne : w ≠ v) :
    m.assertEq a v = .fail (.inconsistentMemory a w v) := by
  simp only [Memory.assertEq, Memory.hasSegment_of_peek h, h, if_true, if_neg hne]

/-- The cells of R.x and of R.y are different cells (R203). -/
theorem output_cells_ne : cellAt a (7 * k + 6) ≠ cellAt a (7 * k + 5) := by
  intro h
  have offsets := congrArg (·.off.toNat) h
  simp only [cellAt, withOff, BitVec.toNat_ofNat] at offsets
  omega

/-- What the read of an output cell fills: R.x at 7k + 5, then R.y at 7k + 6, each by assertEq (R203; log 16). -/
def fillOutputs (m : Memory) (a : Rel) (k : Nat) (r : Point) : Res Memory :=
  (m.assertEq (cellAt a (7 * k + 5)) (.felt r.x)).bind fun m1 => m1.assertEq (cellAt a (7 * k + 6)) (.felt r.y)

section Fill

variable {r : Point}

/-- Output cells that are empty or hold their coordinates are filled, and no other cell changes (R203). -/
theorem fillOutputs_agrees (hs : m.hasSegment a) (hx : ∀ w, m.peek (cellAt a (7 * k + 5)) = some w → w = .felt r.x)
    (hy : ∀ w, m.peek (cellAt a (7 * k + 6)) = some w → w = .felt r.y) :
    ∃ m', fillOutputs m a k r = .ok m' ∧ m'.peek (cellAt a (7 * k + 5)) = some (.felt r.x) ∧
      m'.peek (cellAt a (7 * k + 6)) = some (.felt r.y) ∧
      ∀ b, b ≠ cellAt a (7 * k + 5) → b ≠ cellAt a (7 * k + 6) → m'.peek b = m.peek b := by
  obtain ⟨m1, fill1⟩ := Memory.assertEq_agrees (a := cellAt a (7 * k + 5)) hs hx
  obtain ⟨count1, -, -, holds1, others1⟩ := Memory.assertEq_grows fill1
  have hs1 : m1.hasSegment (cellAt a (7 * k + 6)) := hs.trans_eq count1.symm
  obtain ⟨m2, fill2⟩ := Memory.assertEq_agrees hs1 (by rwa [others1 _ output_cells_ne])
  obtain ⟨-, -, kept2, holds2, others2⟩ := Memory.assertEq_grows fill2
  exact ⟨m2, by rw [fillOutputs, fill1, Res.bind_ok, fill2], kept2 _ _ holds1, holds2,
    fun b h5 h6 => (others2 b h6).trans (others1 b h5)⟩

theorem fillOutputs_conflict_x {w : MaybeRel} (h : m.peek (cellAt a (7 * k + 5)) = some w) (hne : w ≠ .felt r.x) :
    fillOutputs m a k r = .fail (.inconsistentMemory (cellAt a (7 * k + 5)) w (.felt r.x)) := by
  rw [fillOutputs, Memory.assertEq_conflict h hne, Res.bind_fail]

/-- A conflict at 7k + 6 is found after R.x has filled the empty cell at 7k + 5. -/
theorem fillOutputs_conflict_y {w : MaybeRel} (hs : m.hasSegment a) (h5 : m.peek (cellAt a (7 * k + 5)) = none)
    (h6 : m.peek (cellAt a (7 * k + 6)) = some w) (hne : w ≠ .felt r.y) :
    fillOutputs m a k r = .fail (.inconsistentMemory (cellAt a (7 * k + 6)) w (.felt r.y)) := by
  obtain ⟨m1, fill1⟩ := Memory.assertEq_agrees (a := cellAt a (7 * k + 5)) (v := .felt r.x) hs (by simp [h5])
  obtain ⟨-, -, kept1, -⟩ := Memory.assertEq_grows fill1
  rw [fillOutputs, fill1, Res.bind_ok, Memory.assertEq_conflict (kept1 _ _ h6) hne]

end Fill

section Read

variable (hout : ecOutput s.cfg a = some k) (h : m.peek a = none)
include hout h

theorem resolve_output_undefined (hd : ecDeduce s m a k = none) :
    resolve s m a = .fail (.undefinedValue (.cell a)) := by
  simp only [resolve, h, hout, hd]

/-- The read of an empty output cell is the deduction, which then fills both outputs (R203). -/
theorem resolve_output_deduced {x : Res Point} (hd : ecDeduce s m a k = some x) :
    resolve s m a =
      x.bind fun r => (fillOutputs m a k r).bind fun m' => .ok (some (ecCoordinate a r), m') := by
  simp only [resolve, h, hout, hd, fillOutputs, Res.bind_assoc]

end Read

section Write

variable (hs : m.hasSegment a) (hout : ecOutput s.cfg a = some k) (h : m.peek a = none)
include hs hout h

theorem memWrite_output_undefined (hd : ecDeduce s m a k = none) :
    memWrite s m a v = .refuse .ecOutputBeforeInputs := by
  simp only [memWrite, hs, h, hout, hd, if_true]

/-- The write of an empty output cell is the deduction, with whose coordinate the value is compared (R203; log 16). -/
theorem memWrite_output_deduced {x : Res Point} (hd : ecDeduce s m a k = some x) :
    memWrite s m a v = x.bind fun r =>
      if ecCoordinate a r = v then .ok (m.set a v) else .fail (.inconsistentMemory a (ecCoordinate a r) v) := by
  simp only [memWrite, hs, h, hout, hd, if_true]

end Write

end Output

end Sys2Proof.Machine

namespace Sys2Proof

open Machine

/-- Settles O34: EC_OP answers a point exactly by its ladder (`ecOpFelts_ok`), and a ladder on the curve adds m·Q
(`ladderRun_group`). -/
theorem ecOpRunsTheLadder : Obligations.EcOpRunsTheLadder := by
  unfold Obligations.EcOpRunsTheLadder
  intro s p q r m hact hp hq hm
  rw [exec_ecOp_point hact hp hq hm, ecOpFelts_ok]
  exact ⟨And.intro, id, fun hP h2 hpc hqc run => ladderRun_group hP h2 hp hpc hq hqc run.2⟩

/-- Settles O35: the curve check, then the ladder from the state that the iterations before leave
(`ecOpFelts_reaches`), where each test of an iteration stops it. -/
theorem ecOpRejectsItsInputs : Obligations.EcOpRejectsItsInputs := by
  unfold Obligations.EcOpRejectsItsInputs
  intro s p q m hact hp hq hm i
  have hP : 0 < s.params.prime := by omega
  have fails : ∀ {f}, ecOpFelts s.params s.draws p q m = .fail f → exec i s = .next (s.answerFail f) :=
    exec_ecOp_fail hact hp hq hm
  refine ⟨fun hc hpc => fails (ecOpFelts_p_off hc hpc), fun hc hpc hqc => fails (ecOpFelts_q_off hc hpc hqc),
    fun hc n k acc dbl steps => ⟨fun hn hx => ?_, fun hn hx hy => ?_, fun hn hk => ?_⟩, fun hlong => ?_⟩
  · obtain ⟨d, hd⟩ := Nat.exists_eq_add_of_lt hn
    exact fails ((ecOpFelts_reaches (d := d + 1) hc hd.symm steps).trans (ladder_equal_x hx))
  · obtain ⟨d, hd⟩ := Nat.exists_eq_add_of_lt hn
    obtain ⟨ca, cd⟩ := ladderSteps_canonical hP steps ⟨hp, hq⟩
    have stop := fails ((ecOpFelts_reaches (d := d + 1) hc hd.symm steps).trans (ladder_y_zero hP ca cd hx hy))
    rcases doublingFailure_cases (par := s.params) (n := s.draws) (p := p) (q := q) (c := m) hy with kind | kind <;>
      rw [kind] at stop
    · exact .inl stop
    · exact .inr stop
  · exact fails ((ecOpFelts_reaches (d := 0) hc hn steps).trans (ladder_leftover hk))
  · obtain ⟨f, hf⟩ := ecOpFelts_overlong hlong
    exact ⟨f, fails hf⟩

/-- Settles O45: the read is the deduction and the filling of both outputs (`resolve_output_deduced`), which the
partner's value decides (`fillOutputs_agrees` and the two conflicts). -/
theorem ecOutputIsDeducedOnRead : Obligations.EcOutputIsDeducedOnRead := by
  unfold Obligations.EcOutputIsDeducedOnRead
  intro s m a k hseg hs hoff h
  have hact := ecActive_of_segment hseg
  have hout := ecOutput_of_offset hseg hoff
  refine ⟨fun hempty => resolve_output_undefined hout h (ecDeduce_none hempty), fun px py qx qy c t hin ht => ?_,
    fun p q c f hin hf => ?_, fun p q r c hin hr => ?_⟩
  · rw [resolve_output_deduced hout h (ecDeduce_of_relocatable hact hin ht), Res.bind_refuse]
  · rw [resolve_output_deduced hout h (ecDeduce_of_felts hact hin), hf, Res.bind_fail]
  · rw [resolve_output_deduced hout h (ecDeduce_of_felts hact hin), hr, Res.bind_ok, ecCoordinate_eq hoff]
    refine ⟨fun hx hy => ?_, fun w hw hne => ?_, fun w hw hne => ?_⟩
    · obtain ⟨m', filled, atX, atY, others⟩ := fillOutputs_agrees hs hx hy
      exact ⟨m', by rw [filled, Res.bind_ok], atX, atY, others⟩
    · exact congrArg (Res.bind · _) (fillOutputs_conflict_x hw hne)
    · have read_x : cellAt a (7 * k + 5) = a := by
        rcases hoff with hx | hy
        · exact cellAt_eq rfl hx
        · rw [show (⟨a.seg, BitVec.ofNat 32 (7 * k + 6)⟩ : Rel) = a from cellAt_eq rfl hy, h] at hw
          cases hw
      exact congrArg (Res.bind · _) (fillOutputs_conflict_y hs (read_x ▸ h) hw hne)

/-- Settles O46: the write is the deduction and a comparison (`memWrite_output_deduced`). -/
theorem ecOutputWriteMustAgree : Obligations.EcOutputWriteMustAgree := by
  unfold Obligations.EcOutputWriteMustAgree
  intro s m a k v hseg hs hoff h
  have hact := ecActive_of_segment hseg
  have hout := ecOutput_of_offset hseg hoff
  refine ⟨fun hempty => memWrite_output_undefined hs hout h (ecDeduce_none hempty), fun px py qx qy c t hin ht => ?_,
    fun p q c f hin hf => ?_, fun p q r c hin hr => ?_⟩
  · rw [memWrite_output_deduced hs hout h (ecDeduce_of_relocatable hact hin ht), Res.bind_refuse]
  · rw [memWrite_output_deduced hs hout h (ecDeduce_of_felts hact hin), hf, Res.bind_fail]
  · rw [memWrite_output_deduced hs hout h (ecDeduce_of_felts hact hin), hr, Res.bind_ok, ecCoordinate_eq hoff]
    by_cases agrees : v = .felt (if a.off.toNat = 7 * k + 5 then r.x else r.y)
    · rw [if_pos agrees, if_pos agrees.symm]
    · rw [if_neg agrees, if_neg (Ne.symm agrees)]

end Sys2Proof
end

section
/-! Proofs of the family 46_execution: what a VM step does around its instruction (R207 to R211, R234), what the operand
sub-step reads and infers (R212 to R221), how each row of the 64-bit format completes, fails or is refused (R222 to
R233), and the invariant that every step keeps (R209). -/

namespace Sys2Proof.Machine

/-! ### How a VM step begins (R207, sub-steps (a) and (b)) -/

section Begin

variable {s : State} {d : HintDone} {f : Failure} {q : Refuse} {i : Instr} (hr : s.status = .running)
include hr

/-- At PROGRAM_END the step halts before its hints (R208). -/
theorem beginStep_programEnd (hpc : s.pc = s.programEnd) : beginStep s = .ended (s.begin s.mem 0).halt := by
  rw [beginStep, if_pos hr, if_pos hpc]

variable (hpc : s.pc ≠ s.programEnd)
include hpc

/-- A hint step that fails ends the step, with MEM as before it (R210, R234). -/
theorem beginStep_hint_fail (hh : hintStep s = .fail f) :
    beginStep s = .ended ((s.begin s.mem (hintsAtPc s).length).fail f) := by
  rw [beginStep, if_pos hr, if_neg hpc, hh]

/-- A hint step that is refused ends the step, with MEM as before it (R210, R234). -/
theorem beginStep_hint_refuse (hh : hintStep s = .refuse q) :
    beginStep s = .ended ((s.begin s.mem (hintsAtPc s).length).refuse q) := by
  rw [beginStep, if_pos hr, if_neg hpc, hh]

/-- A hint step that signals halt ends the run, with its writes (R275). -/
theorem beginStep_hint_halt (hh : hintStep s = .ok d) (hd : d.halted = true) :
    beginStep s = .ended (s.begin d.mem (hintsAtPc s).length).halt := by
  rw [beginStep, if_pos hr, if_neg hpc, hh]
  exact if_pos hd

/-- An instruction that is fetched and decoded is run from the state after the hints (R211). -/
theorem beginStep_run (hh : hintStep s = .ok d) (hd : d.halted = false)
    (hf : fetchDecode (s.begin d.mem (hintsAtPc s).length) = .ok i) :
    beginStep s = .run i (s.begin d.mem (hintsAtPc s).length) := by
  simp only [beginStep, hr, hpc, hh, hd, hf, if_true, if_false, Bool.false_eq_true]

end Begin

/-- The failure with which a step ends before its instruction is the hint step's or the fetch's (R210, R211). -/
theorem beginStep_failure {s t : State} {f : Failure} (h : beginStep s = .ended t) (hf : t.status = .failed f) :
    hintStep s = .fail f ∨ ∃ u, fetchDecode u = .fail f := by
  unfold beginStep at h
  split at h
  · split at h
    · cases h; cases hf
    · split at h
      · next g hg => cases h; cases hf; exact .inl hg
      · cases h; cases hf
      · split at h
        · cases h; cases hf
        · split at h
          · next g hg => cases h; cases hf; exact .inr ⟨_, hg⟩
          · cases h; cases hf
          · cases h
  · cases h

/-- A VM step that comes to an instruction is that instruction, restored if it aborts (R207, R234). -/
theorem step_run {s t : State} {i : Instr} (hp : s.port = none) (h : beginStep s = .run i t) :
    step s = restoreOutcome s (exec i t) := by
  rw [step, hp, h]

/-- The restoration takes MEM, pc, ap and fp from before the hint step, or the step is not aborted (R234). -/
theorem State.restoreOnAbort_cases (save t : State) :
    save.restoreOnAbort t = t.commit save.mem save.pc save.ap save.fp ∨
      save.restoreOnAbort t = t ∧ (∀ f, t.status ≠ .failed f) ∧ ∀ q, t.status ≠ .refused q := by
  unfold State.restoreOnAbort
  split
  · exact .inl rfl
  · exact .inl rfl
  · next failed refused => exact .inr ⟨rfl, failed, refused⟩

/-! ### The action that ends a hint step (R210) -/

section Actions

variable {s : State} {m : Memory} {x : HintAction} {rest : List HintAction}

theorem runActions_of_fails {f : Failure} (h : ActFails s m x f) : runActions s (x :: rest) m = .fail f := by
  rcases h with ⟨g, rfl, rfl⟩ | ⟨a, v, rfl, hw⟩
  · rfl
  · simp [runActions, memWriteAt, State.operand, hw]

theorem runActions_of_refused {q : Refuse} (h : ActRefused s m x q) : runActions s (x :: rest) m = .refuse q := by
  rcases h with ⟨u, v, rfl, rfl⟩ | ⟨a, v, rfl, hw⟩ | ⟨rfl, full, rfl⟩
  · rfl
  · simp [runActions, memWriteAt, State.operand, hw]
  · simp [runActions, Memory.allocate_refused full]

/-- Behind scripts and actions that go through, the hint step goes on with the next action (R279). -/
theorem hintStep_at_action {before after : List Hint} {o : U32} {acts : List HintAction} {m1 : Memory}
    (hs : hintsAtPc s = before ++ ⟨o, .script (acts ++ x :: rest)⟩ :: after)
    (hb : ScriptsRun s before s.mem m1 false) (ha : ActsRun s acts m1 m false) :
    ∃ k, hintStep s = (runActions s (x :: rest) m).bind k := by
  rw [hintStep, hs, runHints_append hb, if_neg Bool.false_ne_true, runHints, hintActions, runActions_append ha]
  exact ⟨_, rfl⟩

end Actions

/-! ### What the invariant says of STATUS and SIG_TAB (R26, R36) -/

/-- The failure with which a step ends before its instruction carries canonical Felts only (R11). -/
theorem beginStep_failure_canonical {s t : State} {f : Failure} (h : Inv s) (hb : beginStep s = .ended t)
    (hf : t.status = .failed f) : f.canonical s.params.prime = true := by
  rcases beginStep_failure hb hf with hh | ⟨u, hu⟩
  · exact hintStep_fails h.prime h.canonical f hh
  · exact fetchDecode_fails f hu

/-- SIG_SET keeps the form of SIG_TAB (R26, R185). -/
theorem sigSet_wf {tab : Option (List (Nat × Sig))} (h : sigTabWf tab) (off : U32) (sig : Sig) :
    sigTabWf (some (sigSet tab off sig)) := by
  have old : (tab.getD []).Pairwise (fun x y => x.1 < y.1) ∧ ∀ e ∈ tab.getD [], e.1 < 4294967296 := by
    cases tab with
    | none => exact ⟨.nil, List.forall_mem_nil _⟩
    | some l => exact h l rfl
  rintro _ ⟨rfl⟩
  refine ⟨tableInsert_sorted _ _ _ old.1, fun e he => ?_⟩
  rcases mem_tableInsert _ _ _ he with rfl | he
  · exact off.isLt
  · exact old.2 e he

/-- A unit command leaves SIG_TAB or sets one entry of it (R185). -/
theorem exec_command_sigTab {i : Instr} {s t : State} (hi : i.record = none) (ht : exec i s = .next t) :
    t.sigTab = s.sigTab ∨ ∃ off sig, t.sigTab = some (sigSet s.sigTab off sig) := by
  rcases exec_command_next hi ht with ⟨o, rfl⟩ | ⟨f, rfl⟩ | ⟨off, r, q, tab, rfl, hs, rfl⟩
  · exact .inl rfl
  · exact .inl rfl
  · rw [exec_sigSet, execSigSet, hs] at ht
    split at ht
    · cases congrArg State.unitOut (Host.Outcome.next.inj ht)
    · exact .inr ⟨off, ⟨r, q⟩, congrArg State.sigTab (Host.Outcome.next.inj ht.symm)⟩

/-! ### What one operand's read answers (R213, R216) -/

section Read

variable {i : Instruction} {s : State} {m m' : Memory} {a b op0A ra : Rel} {v : MaybeRel}

/-- A cell that is filled, or is no output of the ECU, is read as it is, and nothing is deduced (R213). -/
theorem resolve_undeduced (h : m.peek a = none → ecOutput s.cfg a = none) : resolve s m a = .ok (m.peek a, m) := by
  unfold resolve
  split
  · next v hv => rw [hv]
  · next hv => simp only [h hv, hv]

theorem resolve_filled (h : m.peek a = some v) : resolve s m a = .ok (some v, m) := by
  rw [resolve_undeduced (by simp [h]), h]

/-- A filled op0 is read as it is, whatever the opcode (R213). -/
theorem fetchOp0_filled (h : s.mem.peek op0A = some v) : fetchOp0 i s op0A = .ok (some v, s.mem) :=
  fetchOp0_iff.2 ⟨some v, resolve_filled h, .inl ⟨v, rfl, rfl⟩⟩

/-- Without a Call an empty op0 stays unresolved (R216). -/
theorem fetchOp0_undeduced (hop : i.opcode ≠ .call) (h : s.mem.peek op0A = none → ecOutput s.cfg op0A = none) :
    fetchOp0 i s op0A = .ok (s.mem.peek op0A, s.mem) := by
  refine fetchOp0_iff.2 ⟨_, resolve_undeduced h, ?_⟩
  cases hp : s.mem.peek op0A with
  | none => exact .inr (.inr ⟨rfl, hop, rfl⟩)
  | some v => exact .inl ⟨v, rfl, rfl⟩

/-- For a Call an empty op0 is the return address (R216). -/
theorem fetchOp0_call (hop : i.opcode = .call) (h : s.mem.peek op0A = none → ecOutput s.cfg op0A = none)
    (hra : nextPc i s = .ok ra) :
    fetchOp0 i s op0A = .ok (some ((s.mem.peek op0A).getD (.rel ra)), s.mem) := by
  cases hp : s.mem.peek op0A with
  | none => simp [fetchOp0, resolve_undeduced h, hp, hop, hra]
  | some v => exact fetchOp0_filled hp

/-- For a Call whose op0 is unresolved the return address is computed before op1 is read (R207, R216). -/
theorem fetchOp0_call_unresolved (hop : i.opcode = .call) (h : resolve s s.mem op0A = .ok (none, m)) :
    fetchOp0 i s op0A = (nextPc i s).bind fun t => .ok (some (.rel t), m) := by
  simp [fetchOp0, h, hop]

@[simp] theorem callDst_some : callDst i s (some v) = some v := rfl

theorem callDst_call (hop : i.opcode = .call) : callDst i s none = some (.rel s.fp) := if_pos hop

theorem callDst_other (hop : i.opcode ≠ .call) (d : Option MaybeRel) : callDst i s d = d := by
  cases d with
  | none => exact if_neg hop
  | some v => rfl

/-- Where an output cell of the ECU lies (R203). -/
theorem ecOutput_offset {cfg : BitVec 16} {k : Nat} (h : ecOutput cfg a = some k) :
    ecSegment cfg = some a.seg.toNat ∧ (a.off.toNat = 7 * k + 5 ∨ a.off.toNat = 7 * k + 6) := by
  unfold ecOutput at h
  split at h
  · next hc => cases h; exact ⟨hc.1, by omega⟩
  · cases h

/-- Both cells that a deduction fills are output cells of its instance (R203). -/
theorem ecOutput_cellAt {cfg : BitVec 16} {k o : Nat} (h : ecOutput cfg a = some k)
    (ho : o = 7 * k + 5 ∨ o = 7 * k + 6) :
    ecOutput cfg (cellAt a o) = some k := by
  obtain ⟨hseg, hoff⟩ := ecOutput_offset h
  have a_lt := a.off.isLt
  have offset : (cellAt a o).off.toNat = o := withOff_off (by omega)
  unfold ecOutput
  rw [offset, if_pos ⟨hseg, by omega⟩]
  exact congrArg some (by omega)

/-- A read changes no cell but the outputs of the ECU's instance that it reads (R203). -/
theorem resolve_others {x : Option MaybeRel} (h : resolve s m a = .ok (x, m'))
    (hb : ∀ k, ecOutput s.cfg b = some k → ecOutput s.cfg a ≠ some k) : m'.peek b = m.peek b := by
  rcases resolve_ok h with ⟨-, rfl⟩ | ⟨k, p, m1, -, hk, -, fillX, fillY, -⟩
  · rfl
  · have outside {o : Nat} (ho : o = 7 * k + 5 ∨ o = 7 * k + 6) : b ≠ cellAt a o := by
      rintro rfl
      exact hb k (ecOutput_cellAt hk ho) hk
    obtain ⟨-, -, -, -, othersX⟩ := Memory.assertEq_grows fillX
    obtain ⟨-, -, -, -, othersY⟩ := Memory.assertEq_grows fillY
    exact (othersY b (outside (.inr rfl))).trans (othersX b (outside (.inl rfl)))

/-- After a read that answers a value, the cell holds it (R203, R213). -/
theorem resolve_holds (h : resolve s m a = .ok (some v, m')) : m'.peek a = some v := by
  rcases resolve_ok h with ⟨hv, rfl⟩ | ⟨k, p, m1, -, hk, -, fillX, fillY, hv⟩
  · exact hv.symm
  · obtain ⟨-, -, -, holdsX, -⟩ := Memory.assertEq_grows fillX
    obtain ⟨-, -, keptY, holdsY, -⟩ := Memory.assertEq_grows fillY
    cases hv
    unfold ecCoordinate
    rcases (ecOutput_offset hk).2 with hoff | hoff
    · rw [if_pos (by omega)]
      exact keptY _ _ (cellAt_eq (a := a) rfl hoff ▸ holdsX)
    · rw [if_neg (by omega)]
      exact cellAt_eq (a := a) rfl hoff ▸ holdsY

end Read

/-! ### Inference (R217 to R220) -/

section Infer

variable {i : Instruction} {s : State} {op0A op1A : Rel} {d a b : MaybeRel}

theorem infer_filled : infer i s op0A op1A (some d) (some a) (some b) = .ok (d, a, b, none) := rfl

section AssertEq

variable (hop : i.opcode = .assertEq)
include hop

theorem infer_dst : infer i s op0A op1A none (some a) (some b) = (inferDst i s a b).bind fun d => .ok (d, a, b, none) :=
  if_pos hop

theorem infer_op1 : infer i s op0A op1A (some d) (some a) none =
    (inferOp1 i s d a).bind fun b => .ok (d, a, b, some (op1A, b)) :=
  if_pos hop

theorem infer_op0 : infer i s op0A op1A (some d) none (some b) =
    (inferOp0 i s d b).bind fun a => .ok (d, a, b, some (op0A, a)) :=
  if_pos hop

end AssertEq

/-- With Unconstrained nothing determines an unknown (R219). -/
theorem infer_unconstrained {dst op0 op1 : Option MaybeRel} (hres : i.resLogic = .unconstrained)
    (h : dst = none ∨ op0 = none ∨ op1 = none) : infer i s op0A op1A dst op0 op1 = undefinedHere s := by
  unfold infer
  split
  · simp at h
  · simp only [inferDst, hres]
    split <;> rfl
  · simp only [inferOp1, hres]
    split <;> rfl
  · simp only [inferOp0, hres]
    split <;> rfl
  all_goals rfl

/-- Another opcode than AssertEq infers nothing (R218). -/
theorem infer_other {dst op0 op1 : Option MaybeRel} (hop : i.opcode ≠ .assertEq)
    (h : dst = none ∨ op0 = none ∨ op1 = none) : infer i s op0A op1A dst op0 op1 = undefinedHere s := by
  simp only [infer, if_neg hop]
  split
  · simp at h
  all_goals rfl

/-- Where another opcode than AssertEq has its operands, dst was known (R218). -/
theorem infer_other_dst {dst op0 op1 : Option MaybeRel}
    {v : MaybeRel × MaybeRel × MaybeRel × Option (Rel × MaybeRel)} (hop : i.opcode ≠ .assertEq)
    (h : infer i s op0A op1A dst op0 op1 = .ok v) : dst = some v.1 := by
  cases dst with
  | none => rw [infer_other hop (.inl rfl)] at h; cases h
  | some d =>
    simp only [infer, if_neg hop] at h
    split at h <;> cases h
    assumption

/-- Two unknowns are not inferred (R217). -/
theorem infer_two {dst op0 op1 : Option MaybeRel}
    (h : (dst = none ∧ op0 = none) ∨ (dst = none ∧ op1 = none) ∨ (op0 = none ∧ op1 = none)) :
    infer i s op0A op1A dst op0 op1 = undefinedHere s := by
  rcases h with ⟨rfl, rfl⟩ | ⟨rfl, rfl⟩ | ⟨rfl, rfl⟩
  · cases op1 <;> rfl
  · cases op0 <;> rfl
  · cases dst <;> rfl

end Infer

/-! ### The operand sub-step (R207, sub-steps (c) and (d)) -/

section Operands

variable {i : Instruction} {s : State} {dstA op0A op1A : Rel} {o : Operands}

/-- With existing addresses and no deduction the operand sub-step is the inference from what the cells hold. -/
theorem readOperands_undeduced {x : Option MaybeRel} (hdst : computeAddress s i.dstReg i.offDst = .ok dstA)
    (hop0 : computeAddress s i.op0Reg i.offOp0 = .ok op0A) (hx : fetchOp0 i s op0A = .ok (x, s.mem))
    (hop1 : computeOp1Address s i.op1Src i.offOp1 x = .ok op1A)
    (pd : s.mem.peek dstA = none → ecOutput s.cfg dstA = none)
    (p1 : s.mem.peek op1A = none → ecOutput s.cfg op1A = none) :
    readOperands i s = (infer i s op0A op1A (callDst i s (s.mem.peek dstA)) x (s.mem.peek op1A)).bind fun v =>
      .ok ⟨dstA, op0A, v.1, v.2.1, v.2.2.1, v.2.2.2, s.mem⟩ := by
  simp [readOperands, hdst, hop0, hx, hop1, resolve_undeduced pd, resolve_undeduced p1]

/-- Three filled cells are the operands (R213). -/
theorem readOperands_filled {d a b : MaybeRel} (hdst : computeAddress s i.dstReg i.offDst = .ok dstA)
    (hop0 : computeAddress s i.op0Reg i.offOp0 = .ok op0A)
    (hop1 : computeOp1Address s i.op1Src i.offOp1 (some a) = .ok op1A)
    (hd : s.mem.peek dstA = some d) (ha : s.mem.peek op0A = some a) (hb : s.mem.peek op1A = some b) :
    readOperands i s = .ok ⟨dstA, op0A, d, a, b, none, s.mem⟩ := by
  rw [readOperands_undeduced hdst hop0 (fetchOp0_filled ha) hop1 (by simp [hd]) (by simp [hb]), hd, hb, callDst_some,
    infer_filled, Res.bind_ok]

/-- The dst of a Call is fp or what its cell holds after the reads (R213, R216). -/
theorem readOperands_call_dst (hop : i.opcode = .call) (h : readOperands i s = .ok o) :
    o.dst = .rel s.fp ∨ o.mem.peek o.dstA = some o.dst := by
  obtain ⟨r0, op1A, ⟨xd, md⟩, ⟨x1, m1⟩, v, -, -, -, -, hd, h1, hv, edst, -, -, -, emem⟩ := readOperands_ok h
  obtain ⟨-, -, kept⟩ := resolve_grows h1
  have known : callDst i s xd = some o.dst := edst ▸ infer_other_dst (by simp [hop]) hv
  rw [emem]
  cases xd with
  | none => exact .inl (Option.some.inj ((callDst_call hop).symm.trans known)).symm
  | some d => exact .inr (kept _ _ (Option.some.inj known ▸ resolve_holds hd))

/-- The reads change no cell but the outputs of ECU instances of which an operand is an output (R203). -/
theorem readOperands_others {b : Rel} (h : readOperands i s = .ok o)
    (hdst : ∀ k a, ecOutput s.cfg b = some k → computeAddress s i.dstReg i.offDst = .ok a → ecOutput s.cfg a ≠ some k)
    (hop0 : ∀ k a, ecOutput s.cfg b = some k → computeAddress s i.op0Reg i.offOp0 = .ok a → ecOutput s.cfg a ≠ some k)
    (hop1 : ∀ k op0A x a, ecOutput s.cfg b = some k → computeAddress s i.op0Reg i.offOp0 = .ok op0A →
      fetchOp0 i s op0A = .ok x → computeOp1Address s i.op1Src i.offOp1 x.1 = .ok a → ecOutput s.cfg a ≠ some k) :
    o.mem.peek b = s.mem.peek b := by
  obtain ⟨⟨x0, m0⟩, op1A, ⟨xd, md⟩, ⟨x1, m1⟩, v, ad, a0, h0, a1, hd, h1, -, -, -, -, -, emem⟩ := readOperands_ok h
  obtain ⟨y, hy, -⟩ := fetchOp0_ok h0
  rw [emem]
  calc m1.peek b = md.peek b := resolve_others h1 fun k hk => hop1 k _ _ _ hk a0 h0 a1
    _ = m0.peek b := resolve_others hd fun k hk => hdst k _ hk ad
    _ = s.mem.peek b := resolve_others hy fun k hk => hop0 k _ hk a0

end Operands

/-! ### Writes (R222 to R226) -/

section Writes

variable {i : Instruction} {s : State} {o : Operands} {res : Option MaybeRel} {m m' : Memory} {a b ra : Rel}
  {v : MaybeRel}

/-- After MemWrite the cell holds the value (R67). -/
theorem memWrite_holds (h : memWrite s m a v = .ok m') : m'.peek a = some v := by
  obtain ⟨-, -, -, holds, -⟩ := memWrite_grows h
  exact holds

/-- MemWrite keeps every filled cell (R68). -/
theorem memWrite_keeps (h : memWrite s m a v = .ok m') : KeepsCells m m' := by
  obtain ⟨-, -, kept, -⟩ := memWrite_grows h
  exact kept

/-- MemWrite changes no other cell (R67). -/
theorem memWrite_others (h : memWrite s m a v = .ok m') (hb : b ≠ a) : m'.peek b = m.peek b := by
  obtain ⟨-, -, -, -, others⟩ := memWrite_grows h
  exact others b hb

/-- A write to a cell that holds another value is InconsistentMemory (R67). -/
theorem memWrite_conflict {c : MaybeRel} (h : m.peek a = some c) (hne : c ≠ v) :
    memWrite s m a v = .fail (.inconsistentMemory a c v) := by
  rw [memWrite_filled h, if_neg hne]

/-- AssertEq writes res after the inferred operand (R222, R226). -/
theorem opcodeEffect_assertEq (hop : i.opcode = .assertEq) (hm : writeInferred s o = .ok m) :
    opcodeEffect i s o res = assertEqWrite s o res m := by
  simp [opcodeEffect, hm, hop]

/-- Call writes fp to the dst cell, then the return address to the op0 cell (R223). -/
theorem opcodeEffect_call (hop : i.opcode = .call) (hread : readOperands i s = .ok o) (hra : nextPc i s = .ok ra) :
    opcodeEffect i s o res =
      (memWrite s o.mem o.dstA (.rel s.fp)).bind fun m1 => memWrite s m1 o.op0A (.rel ra) := by
  have uninferred := readOperands_inferred (by simp [hop]) hread
  simp [opcodeEffect, writeInferred, uninferred, hop, callWrites, hra]

/-- After the inferred operand's write its cell holds it (R226). -/
theorem writeInferred_holds (h : writeInferred s o = .ok m) (ho : o.inferred = some (a, v)) : m.peek a = some v := by
  rw [writeInferred, ho] at h
  exact memWrite_holds h

/-- The writes change no cell but the dst cell of AssertEq and Call, the op0 cell of Call and the inferred operand's
(R222 to R226). -/
theorem opcodeEffect_others (h : opcodeEffect i s o res = .ok m)
    (hdst : i.opcode = .assertEq ∨ i.opcode = .call → b ≠ o.dstA) (hop0 : i.opcode = .call → b ≠ o.op0A)
    (hinf : ∀ a v, o.inferred = some (a, v) → b ≠ a) : m.peek b = o.mem.peek b := by
  obtain ⟨m0, h0, h⟩ := Res.bind_eq_ok.1 h
  have inferred : m0.peek b = o.mem.peek b := by
    unfold writeInferred at h0
    split at h0
    · cases h0; rfl
    · next a v hv => exact memWrite_others h0 (hinf a v hv)
  rw [← inferred]
  split at h
  · next hop =>
    cases res with
    | none => cases h
    | some v => exact memWrite_others h (hdst (.inl hop))
  · next hop =>
    obtain ⟨m1, h1, h⟩ := Res.bind_eq_ok.1 h
    obtain ⟨t, -, h⟩ := Res.bind_eq_ok.1 h
    exact (memWrite_others h (hop0 hop)).trans (memWrite_others h1 (hdst (.inr hop)))
  · cases h; rfl
  · cases h; rfl

end Writes

/-! ### Register updates (R227 to R233) -/

section Registers

variable {i : Instruction} {s : State} {o : Operands} {res : Option MaybeRel} {v : MaybeRel} {r fp : Rel}

/-- Behind the last offset the next pc is Overflow (R50, R228). -/
theorem nextPc_overflow (h : 2 ^ 32 ≤ s.pc.off.toNat + i.size.toNat) :
    nextPc i s = .fail (.overflow (.address s.pc (.int i.size))) := by
  have nonneg : 0 ≤ i.size := by unfold Instruction.size; split <;> decide
  have answer := addInt_overflow h
  rwa [Int.toNat_of_nonneg nonneg] at answer

/-- Regular and a JumpIfNotZero on zero go on behind the instruction (R228, R230). -/
theorem pcNext_behind (h : i.pcUpdate = .regular ∨ i.pcUpdate = .jnz ∧ o.dst = .felt Felt.zero) :
    pcNext i s o res = nextPc i s := by
  rcases h with h | ⟨h, zero⟩
  · simp [pcNext, h]
  · simp [pcNext, h, jnzTaken, zero]

/-- JumpRel goes on by res, a taken JumpIfNotZero by op1 (R230, R231). -/
theorem pcNext_by (h : i.pcUpdate = .jumpRel ∧ res = some v ∨
    i.pcUpdate = .jnz ∧ o.dst ≠ .felt Felt.zero ∧ o.op1 = v) : pcNext i s o res = relPlus s s.pc v := by
  rcases h with ⟨h, rfl⟩ | ⟨h, taken, rfl⟩
  · simp [pcNext, h]
  · simp [pcNext, h, jnzTaken, taken]

/-- A Jump to a Felt or out of segment 0 is refused (R229). -/
theorem pcNext_pinned (h : i.pcUpdate = .jump) (hv : ∀ t, v = .rel t → t.seg ≠ 0) :
    pcNext i s o (some v) = .refuse .pcOutOfProgramSegment := by
  cases v with
  | felt x => simp [pcNext, h]
  | rel t => simp only [pcNext, h, if_neg (hv t rfl)]

/-- A Relocatable is no displacement (R49, R231). -/
theorem relPlus_rel (t : Rel) : relPlus s r (.rel t) = .fail (.forbiddenOperation (.rel r) (.rel t)) := rfl

/-- ap beyond the last offset is Overflow (R50, R232). -/
theorem apNext_overflow {n : Nat} (h : i.apUpdate = .add1 ∧ n = 1 ∨ i.apUpdate = .add2 ∧ n = 2)
    (hn : 2 ^ 32 ≤ s.ap.off.toNat + n) : apNext i s res = .fail (.overflow (.address s.ap (.int n))) := by
  rcases h with ⟨h, rfl⟩ | ⟨h, rfl⟩ <;> simp only [apNext, h] <;> exact addInt_overflow hn

theorem apNext_add (h : i.apUpdate = .add) : apNext i s (some v) = relPlus s s.ap v := by simp only [apNext, h]

/-- ap += res without res is UndefinedValue (R232; log 21). -/
theorem apNext_add_none (h : i.apUpdate = .add) : apNext i s none = undefinedHere s := by simp only [apNext, h]

theorem fpNext_regular (h : i.fpUpdate = .regular) : fpNext i s o = .ok s.fp := by rw [fpNext, h]

/-- Ret takes fp from a dst in segment 1 (R233). -/
theorem fpNext_dst (h : i.fpUpdate = .dst) (hd : o.dst = .rel fp) (hseg : fp.seg = 1) : fpNext i s o = .ok fp := by
  simp [fpNext, h, hd, hseg]

/-- A restored fp that is a Felt or out of segment 1 is refused (R233). -/
theorem fpNext_pinned (h : i.fpUpdate = .dst) (hd : ∀ t, o.dst = .rel t → t.seg ≠ 1) :
    fpNext i s o = .refuse .fpOutOfExecutionSegment := by
  cases e : o.dst with
  | felt x => simp [fpNext, h, e]
  | rel t => simp only [fpNext, h, e, if_neg (hd t e)]

/-- A Call with Add2 sets fp to ap + 2 (R233). -/
theorem fpNext_call (h : i.fpUpdate = .apPlus2) (hap : i.apUpdate = .add2) : fpNext i s o = addInt s.ap 2 := by
  simp [fpNext, h, hap]

/-- A Call with another ap update is refused (R233). -/
theorem fpNext_callWithoutAdd2 (h : i.fpUpdate = .apPlus2) (hap : i.apUpdate ≠ .add2) :
    fpNext i s o = .refuse .callWithoutAdd2 := by
  simp [fpNext, h, hap]

/-- Two cells on, as a machine word (R50). -/
theorem advanced_two (h : r.off.toNat + 2 < 2 ^ 32) : Advanced r 2 ⟨r.seg, r.off + 2#32⟩ := by
  refine ⟨h, ?_⟩
  rw [BitVec.ofNat_add, BitVec.ofNat_toNat, BitVec.setWidth_eq]

end Registers

/-! ### Where an instruction stops (R207, R234) -/

/-- An instruction of the 64-bit format commits its body, or fails or is refused as its body does (R234). -/
theorem exec_record_cases {i : Instr} {r : Instruction} {s t : State} (hi : i.record = some r)
    (ht : exec i s = .next t) :
    vmBody r s = .ok t ∨ (∃ f, vmBody r s = .fail f ∧ t = s.fail f) ∨ ∃ q, vmBody r s = .refuse q ∧ t = s.refuse q := by
  rw [exec_record s hi] at ht
  rcases stepOutcome_next s (vmBody r s) with ⟨u, hu, e⟩ | ⟨f, hf, e⟩ | ⟨q, hq, e⟩ <;> cases e.symm.trans ht
  · exact .inl hu
  · exact .inr (.inl ⟨f, hf, rfl⟩)
  · exact .inr (.inr ⟨q, hq, rfl⟩)

/-- A sub-step that fails or is refused ends the instruction so. -/
structure StopsAt {α : Type} (i : Instr) (s : State) (x : Res α) : Prop where
  fail : ∀ f, x = .fail f → exec i s = .next (s.fail f)
  refuse : ∀ q, x = .refuse q → exec i s = .next (s.refuse q)

section Stops

variable {α β : Type} {i : Instr} {r : Instruction} {s : State}

/-- The first sub-step of a chain at which an instruction stops. -/
theorem StopsAt.first {x : Res α} {k : α → Res β} (h : StopsAt i s (x.bind k)) : StopsAt i s x where
  fail f hf := h.fail f (by rw [hf, Res.bind_fail])
  refuse q hq := h.refuse q (by rw [hq, Res.bind_refuse])

/-- The sub-steps behind one that succeeds. -/
theorem StopsAt.next {x : Res α} {k : α → Res β} {a : α} (h : StopsAt i s (x.bind k)) (ha : x = .ok a) :
    StopsAt i s (k a) := by
  rwa [ha, Res.bind_ok] at h

variable (hi : i.record = some r)
include hi

theorem stopsAt_body : StopsAt i s (vmBody r s) := ⟨fun _ => exec_fail hi, fun _ => exec_refuse hi⟩

theorem stopsAt_read : StopsAt i s (readOperands r s) := (stopsAt_body hi).first

section AfterRead

variable {o : Operands} {res : Option MaybeRel} {m : Memory} {npc nap : Rel} (hread : readOperands r s = .ok o)
include hread

theorem stopsAt_res : StopsAt i s (computeRes r s o) := ((stopsAt_body hi).next hread).first

variable (hres : computeRes r s o = .ok res)
include hres

theorem stopsAt_write : StopsAt i s (opcodeEffect r s o res) := (((stopsAt_body hi).next hread).next hres).first

variable (hw : opcodeEffect r s o res = .ok m)
include hw

theorem stopsAt_pc : StopsAt i s (pcNext r s o res) := ((((stopsAt_body hi).next hread).next hres).next hw).first

theorem stopsAt_ap (hpc : pcNext r s o res = .ok npc) : StopsAt i s (apNext r s res) :=
  (((((stopsAt_body hi).next hread).next hres).next hw).next hpc).first

theorem stopsAt_fp (hpc : pcNext r s o res = .ok npc) (hap : apNext r s res = .ok nap) : StopsAt i s (fpNext r s o) :=
  ((((((stopsAt_body hi).next hread).next hres).next hw).next hpc).next hap).first

end AfterRead

section InRead

variable {dstA op0A op1A : Rel} {x d : Option MaybeRel} {m0 m1 : Memory}

theorem stopsAt_dst_address : StopsAt i s (computeAddress s r.dstReg r.offDst) := (stopsAt_read hi).first

variable (hdst : computeAddress s r.dstReg r.offDst = .ok dstA)
include hdst

theorem stopsAt_op0_address : StopsAt i s (computeAddress s r.op0Reg r.offOp0) := ((stopsAt_read hi).next hdst).first

variable (hop0 : computeAddress s r.op0Reg r.offOp0 = .ok op0A)
include hop0

theorem stopsAt_op0 : StopsAt i s (fetchOp0 r s op0A) := (((stopsAt_read hi).next hdst).next hop0).first

variable (hx : fetchOp0 r s op0A = .ok (x, m0))
include hx

theorem stopsAt_op1_address : StopsAt i s (computeOp1Address s r.op1Src r.offOp1 x) :=
  ((((stopsAt_read hi).next hdst).next hop0).next hx).first

variable (hop1 : computeOp1Address s r.op1Src r.offOp1 x = .ok op1A)
include hop1

theorem stopsAt_dst : StopsAt i s (resolve s m0 dstA) :=
  (((((stopsAt_read hi).next hdst).next hop0).next hx).next hop1).first

theorem stopsAt_op1 (hd : resolve s m0 dstA = .ok (d, m1)) : StopsAt i s (resolve s m1 op1A) :=
  ((((((stopsAt_read hi).next hdst).next hop0).next hx).next hop1).next hd).first

end InRead

/-- The inference from what three cells hold that are no outputs of the ECU stops the instruction where it fails. -/
theorem stopsAt_infer {dstA op0A op1A : Rel} {x : Option MaybeRel}
    (hdst : computeAddress s r.dstReg r.offDst = .ok dstA) (hop0 : computeAddress s r.op0Reg r.offOp0 = .ok op0A)
    (hx : fetchOp0 r s op0A = .ok (x, s.mem)) (hop1 : computeOp1Address s r.op1Src r.offOp1 x = .ok op1A)
    (pd : ecOutput s.cfg dstA = none) (p1 : ecOutput s.cfg op1A = none) :
    StopsAt i s (infer r s op0A op1A (callDst r s (s.mem.peek dstA)) x (s.mem.peek op1A)) := by
  have read := stopsAt_read (s := s) hi
  rw [readOperands_undeduced hdst hop0 hx hop1 (fun _ => pd) (fun _ => p1)] at read
  exact read.first

end Stops

/-- An operator that fails is a res that fails, even if nothing uses it (R221). -/
theorem computeRes_fail {r : Instruction} {s : State} {o : Operands} {f : Failure}
    (h : r.resLogic = .add ∧ mrAdd s.params o.op0 o.op1 = .fail f ∨
      r.resLogic = .mul ∧ mrMul s.params o.op0 o.op1 = .fail f) : computeRes r s o = .fail f := by
  rcases h with ⟨hr, hf⟩ | ⟨hr, hf⟩ <;> simp [computeRes, hr, hf]

/-- With Unconstrained there is no res (R221). -/
theorem computeRes_unconstrained {r : Instruction} {s : State} {o : Operands} (h : r.resLogic = .unconstrained) :
    computeRes r s o = .ok none := by
  simp only [computeRes, h]

/-- AssertEq with Unconstrained has nothing to write and fails, even on three filled cells (R222; log 21). -/
theorem exec_assertEq_unconstrained {i : Instr} {r : Instruction} {s : State} {o : Operands} (hi : i.record = some r)
    (hop : r.opcode = .assertEq) (hr : r.resLogic = .unconstrained) (hread : readOperands r s = .ok o)
    (ho : o.inferred = none) : exec i s = .next (s.fail (.undefinedValue (.instruction s.pc))) := by
  refine (stopsAt_write hi hread (computeRes_unconstrained hr)).fail _ ?_
  rw [opcodeEffect_assertEq hop (m := o.mem) (by rw [writeInferred, ho])]
  rfl

section Unresolved

variable {i : Instr} {r : Instruction} {s : State} {dstA op0A op1A : Rel} (hi : i.record = some r)
  (hdst : computeAddress s r.dstReg r.offDst = .ok dstA) (hop0 : computeAddress s r.op0Reg r.offOp0 = .ok op0A)
  (pd : ecOutput s.cfg dstA = none) (p0 : ecOutput s.cfg op0A = none) (p1 : ecOutput s.cfg op1A = none)
include hi hdst hop0 pd p0 p1

/-- Unknowns that are not inferred end another instruction than a Call, and so does AssertEq with Unconstrained (R217 to
R219; log 21). -/
theorem exec_unresolved (hop : r.opcode ≠ .call)
    (hop1 : computeOp1Address s r.op1Src r.offOp1 (s.mem.peek op0A) = .ok op1A)
    (h : (s.mem.peek dstA = none ∧ s.mem.peek op0A = none) ∨ (s.mem.peek dstA = none ∧ s.mem.peek op1A = none) ∨
      (s.mem.peek op0A = none ∧ s.mem.peek op1A = none) ∨
      ((s.mem.peek dstA = none ∨ s.mem.peek op0A = none ∨ s.mem.peek op1A = none) ∧
        (r.opcode ≠ .assertEq ∨ r.resLogic = .unconstrained)) ∨
      (r.opcode = .assertEq ∧ r.resLogic = .unconstrained)) :
    exec i s = .next (s.fail (.undefinedValue (.instruction s.pc))) := by
  have stop := stopsAt_infer hi hdst hop0 (fetchOp0_undeduced hop fun _ => p0) hop1 pd p1
  rw [callDst_other hop] at stop
  rcases h with h | h | h | ⟨h, other | hres⟩ | ⟨assertEq, hres⟩
  · exact stop.fail _ (infer_two (.inl h))
  · exact stop.fail _ (infer_two (.inr (.inl h)))
  · exact stop.fail _ (infer_two (.inr (.inr h)))
  · exact stop.fail _ (infer_other other h)
  · exact stop.fail _ (infer_unconstrained hres h)
  · by_cases h : s.mem.peek dstA = none ∨ s.mem.peek op0A = none ∨ s.mem.peek op1A = none
    · exact stop.fail _ (infer_unconstrained hres h)
    · simp only [not_or, ← ne_eq, Option.ne_none_iff_exists'] at h
      obtain ⟨⟨d, hd⟩, ⟨a, ha⟩, b, hb⟩ := h
      rw [ha] at hop1
      exact exec_assertEq_unconstrained hi assertEq hres (readOperands_filled hdst hop0 hop1 hd ha hb) rfl

/-- A Call without op1 is not resolved (R216, R218; log 21). -/
theorem exec_call_unresolved {ra : Rel} (hop : r.opcode = .call) (hra : nextPc r s = .ok ra)
    (hop1 : computeOp1Address s r.op1Src r.offOp1 (some ((s.mem.peek op0A).getD (.rel ra))) = .ok op1A)
    (hb : s.mem.peek op1A = none) : exec i s = .next (s.fail (.undefinedValue (.instruction s.pc))) := by
  refine (stopsAt_infer hi hdst hop0 (fetchOp0_call hop (fun _ => p0) hra) hop1 pd p1).fail _ ?_
  rw [hb]
  exact infer_other (by simp [hop]) (.inr (.inr rfl))

end Unresolved

/-! ### Rows that complete -/

section Completes

variable {i : Instr} {r : Instruction} {s : State} {o : Operands} {res : Option MaybeRel} {m : Memory}
  {npc nap : Rel} (hi : i.record = some r) (hread : readOperands r s = .ok o) (hres : computeRes r s o = .ok res)
include hi hread hres

/-- An AssertEq that writes and finds its targets moves pc and ap there and keeps fp (R222, R228 to R233). -/
theorem exec_assertEq (hop : r.opcode = .assertEq) (hw : opcodeEffect r s o res = .ok m)
    (hpc : PcTarget r s o res npc) (hap : ApTarget r s res nap) : exec i s = .next (s.commit m npc nap s.fp) := by
  have fp_kept : fpNext r s o = .ok s.fp := fpNext_regular (by rw [record_fpUpdate hi, hop]; rfl)
  exact exec_commit hi (vmBody_eq hread hres hw (pcNext_ok.2 hpc) (apNext_ok.2 hap) fp_kept)

/-- A Call with Add2 that writes its slots and finds its target sets ap and fp to ap + 2 (R223, R233). -/
theorem exec_call (hop : r.opcode = .call) (hadd2 : r.apUpdate = .add2) (hw : opcodeEffect r s o res = .ok m)
    (hpc : PcTarget r s o res npc) (hap : Advanced s.ap 2 nap) : exec i s = .next (s.commit m npc nap nap) := by
  have fpUpdate : r.fpUpdate = .apPlus2 := by rw [record_fpUpdate hi, hop]; rfl
  have ap_next : apNext r s res = .ok nap := apNext_ok.2 (by rw [ApTarget, hadd2]; exact hap)
  have fp_next : fpNext r s o = .ok nap := (fpNext_call fpUpdate hadd2).trans (addInt_nat.2 hap)
  exact exec_commit hi (vmBody_eq hread hres hw (pcNext_ok.2 hpc) ap_next fp_next)

/-- A Ret with its dst in segment 1 that finds its targets moves pc and ap there, takes fp from dst and writes nothing
(R224, R228 to R233). -/
theorem exec_ret {fp : Rel} (hop : r.opcode = .ret) (hd : o.dst = .rel fp) (hseg : fp.seg = 1)
    (hpc : PcTarget r s o res npc) (hap : ApTarget r s res nap) : exec i s = .next (s.commit o.mem npc nap fp) := by
  have fp_next : fpNext r s o = .ok fp := fpNext_dst (by rw [record_fpUpdate hi, hop]; rfl) hd hseg
  exact exec_commit hi (vmBody_eq hread hres (opcodeEffect_none (.inr hop) hread) (pcNext_ok.2 hpc) (apNext_ok.2 hap)
    fp_next)

end Completes

/-! ### A call and its ret (R273) -/

/-- An address is the sum where segment and offset say so: the converse of `addInt_ok` (R50). -/
theorem addInt_eq {r t : Rel} {k : Int} (hseg : t.seg = r.seg) (hoff : (t.off.toNat : Int) = r.off.toNat + k) :
    addInt r k = .ok t := by
  have t_lt := t.off.isLt
  rw [addInt_in_range (by omega) (by omega), ← hoff, Int.toNat_natCast, withOff, ← hseg, BitVec.ofNat_toNat,
    BitVec.setWidth_eq]

/-- What a Call that writes leaves in its two slots (R223). -/
theorem opcodeEffect_call_holds {r : Instruction} {s : State} {o : Operands} {res : Option MaybeRel} {m : Memory}
    (hop : r.opcode = .call) (hw : opcodeEffect r s o res = .ok m) :
    ∃ ra, nextPc r s = .ok ra ∧ m.peek o.dstA = some (.rel s.fp) ∧ m.peek o.op0A = some (.rel ra) := by
  simp only [opcodeEffect, hop] at hw
  obtain ⟨m0, -, hw⟩ := Res.bind_eq_ok.1 hw
  obtain ⟨m1, h1, hw⟩ := Res.bind_eq_ok.1 hw
  obtain ⟨ra, hra, h2⟩ := Res.bind_eq_ok.1 hw
  exact ⟨ra, hra, memWrite_keeps h2 _ _ (memWrite_holds h1), memWrite_holds h2⟩

/-- What a Call that commits leaves: the caller's fp and the return address in its slots, and fp at ap + 2 (R223,
R233). -/
theorem exec_call_committed {i : Instr} {r : Instruction} {s t : State} (hi : i.record = some r)
    (hop : r.opcode = .call) (ht : exec i s = .next t) (hrun : t.status = .running) :
    ∃ dstA op0A ra, computeAddress s r.dstReg r.offDst = .ok dstA ∧ computeAddress s r.op0Reg r.offOp0 = .ok op0A ∧
      Advanced s.pc r.size.toNat ra ∧ addInt s.ap 2 = .ok t.fp ∧
      t.mem.peek dstA = some (.rel s.fp) ∧ t.mem.peek op0A = some (.rel ra) := by
  rcases exec_record_cases hi ht with hb | ⟨f, -, rfl⟩ | ⟨q, -, rfl⟩
  · obtain ⟨o, res, m, npc, nap, nfp, hread, -, hw, -, -, hfp, rfl⟩ := vmBody_ok hb
    obtain ⟨-, -, -, -, -, addr_dst, addr_op0, -⟩ := readOperands_ok hread
    obtain ⟨ra, hra, slot_fp, slot_ra⟩ := opcodeEffect_call_holds hop hw
    have fpUpdate : r.fpUpdate = .apPlus2 := by rw [record_fpUpdate hi, hop]; rfl
    have fp_eq : addInt s.ap 2 = .ok nfp := by
      by_cases hadd2 : r.apUpdate = .add2
      · exact (fpNext_call fpUpdate hadd2).symm.trans hfp
      · cases (fpNext_callWithoutAdd2 fpUpdate hadd2).symm.trans hfp
    exact ⟨o.dstA, o.op0A, ra, addr_dst, addr_op0, nextPc_ok.1 hra, fp_eq, slot_fp, slot_ra⟩
  · cases hrun
  · cases hrun

/-- The fields of the canonical ret: dst at [fp - 2], op0 and op1 at [fp - 1] (R273). -/
abbrev canonicalRetFields : Fields := ⟨0xfffe#16, 0xffff#16, 0xffff#16, .fp, .fp, .fp, .op1⟩

/-- The canonical ret goes to the return address below fp and restores the fp below that (R224, R229, R233). -/
theorem exec_canonicalRet {u : State} {dstA op0A fp ra : Rel} (hdst : addInt u.fp (-2) = .ok dstA)
    (hop0 : addInt u.fp (-1) = .ok op0A) (hfp : u.mem.peek dstA = some (.rel fp))
    (hra : u.mem.peek op0A = some (.rel ra)) (fp_seg : fp.seg = 1) (ra_seg : ra.seg = 0) :
    exec (.ret canonicalRetFields .regular) u = .next (u.commit u.mem ra u.ap fp) := by
  have hread : readOperands (canonicalRetFields.toRecord .jump .regular .ret) u =
      .ok ⟨dstA, op0A, .rel fp, .rel ra, .rel ra, none, u.mem⟩ := readOperands_filled hdst hop0 hop0 hfp hra hra
  exact exec_ret rfl hread rfl rfl rfl fp_seg ⟨rfl, ra_seg⟩ rfl

end Sys2Proof.Machine

namespace Sys2Proof

open Machine

/-! ### What keeps the invariant (R209) -/

section Invariant

variable {s t : State}

theorem Inv.takeRequest (h : Inv s) : Inv s.takeRequest := { h with }

theorem Inv.halt (h : Inv s) : Inv s.halt := { h with status := rfl }

theorem Inv.fail {f : Failure} (h : Inv s) (hf : f.canonical s.params.prime = true) : Inv (s.fail f) :=
  { h with status := hf }

theorem Inv.refuse (h : Inv s) (q : Refuse) : Inv (s.refuse q) := { h with status := rfl }

theorem Inv.answer {o : UnitOutcome} (h : Inv s) (ho : o.canonical s.params.prime = true) : Inv (s.answer o) :=
  { h with unitOut := by rintro _ ⟨rfl⟩; exact ho }

/-- MEM after the hints: extended and canonical (R210). -/
theorem Inv.begin {m : Memory} (h : Inv s) (hext : Extends s.mem m) (hcan : m.canonical s.params.prime) (n : Nat) :
    Inv (s.begin m n) :=
  have ⟨count_le, wf, _⟩ := hext h.mem
  { h with mem := wf, segments := h.segments.trans count_le, canonical := hcan }

/-- A commit of grown, canonical memory and of registers in their segments (R32 to R34, R234). -/
theorem Inv.commit {m : Memory} {pc ap fp : Rel} (h : Inv s) (hg : Grows s.mem m)
    (hcan : m.canonical s.params.prime) (hpc : pc.seg = 0) (hap : ap.seg = 1) (hfp : fp.seg = 1) :
    Inv (s.commit m pc ap fp) :=
  have ⟨count_eq, wf, _⟩ := hg
  { h with
    mem := wf h.mem, segments := h.segments.trans_eq count_eq.symm, canonical := hcan, pinned := ⟨hpc, hap, hfp⟩ }

/-- An abort gives back what the invariant says of MEM and the registers before the step (R234). -/
theorem Inv.restoreOnAbort (hs : Inv s) (ht : Inv t) (hk : ConfigKept s t) : Inv (s.restoreOnAbort t) := by
  rcases s.restoreOnAbort_cases t with e | ⟨e, -⟩ <;> rw [e]
  · exact
      { ht with
        mem := hs.mem, segments := (congrArg initialSegments hk.cfg).trans_le hs.segments,
        canonical := (congrArg (fun p : Params => s.mem.canonical p.prime) hk.params).mpr hs.canonical,
        pinned := hs.pinned }
  · exact ht

/-- A unit command keeps the invariant: it changes the outcome on the port and SIG_TAB (R14, R185). -/
theorem Inv.of_command {i : Instr} (h : Inv s) (hi : i.record = none) (ht : exec i s = .next t) : Inv t := by
  have unitOut := exec_answer h.prime hi ht
  have sigTab : sigTabWf t.sigTab := by
    rcases exec_command_sigTab hi ht with e | ⟨off, sig, e⟩ <;> rw [e]
    · exact h.sigTab
    · exact sigSet_wf h.sigTab off sig
  rcases exec_command_next hi ht with ⟨o, rfl⟩ | ⟨f, rfl⟩ | ⟨off, r, q, tab, -, -, rfl⟩ <;>
    exact { h with unitOut := unitOut, sigTab := sigTab }

/-- An instruction of the 64-bit format keeps the invariant, however it ends (R209, R234). -/
theorem Inv.of_record {i : Instr} {r : Instruction} (h : Inv s) (hi : i.record = some r) (ht : exec i s = .next t) :
    Inv t := by
  rcases exec_record_cases hi ht with hb | ⟨f, hf, rfl⟩ | ⟨q, -, rfl⟩
  · have grows := vmBody_grows hb
    have canonical := vmBody_canonical h.prime h.canonical hb
    obtain ⟨pc_seg, ap_seg, fp_seg⟩ := h.pinned
    obtain ⟨o, res, m, npc, nap, nfp, -, -, -, hpc, hap, hfp, rfl⟩ := vmBody_ok hb
    have nap_seg := (apNext_seg hap).trans ap_seg
    refine h.commit grows canonical ?_ nap_seg ?_
    · exact (pcNext_seg hpc).elim (·.trans pc_seg) id
    · rcases fpNext_seg hfp with e | e | e
      · exact e.trans fp_seg
      · exact e.trans ap_seg
      · exact e
  · exact h.fail (vmBody_fails h.prime h.canonical f hf)
  · exact h.refuse q

theorem Inv.of_exec {i : Instr} (h : Inv s) (ht : exec i s = .next t) : Inv t := by
  cases hi : i.record with
  | some r => exact h.of_record hi ht
  | none => exact h.of_command hi ht

/-- The state from which a step's instruction is run has the invariant (R210). -/
theorem Inv.of_run {i : Instr} (h : Inv s) (hb : beginStep s = .run i t) : Inv t := by
  have running : s.status = .running := beginStep_running (by simp [hb])
  rcases beginStep_cases running with ⟨-, e⟩ | ⟨-, f, n, e⟩ | ⟨-, q, n, e⟩ |
    ⟨-, d, n, -, -, e⟩ | ⟨-, d, n, j, hd, -, -, e⟩ <;> cases e.symm.trans hb
  exact h.begin (hintStep_extends hd) (hintStep_canonical h.prime h.canonical hd) n

/-- A step that ends before its instruction keeps the invariant (R208, R210, R211). -/
theorem Inv.of_ended (h : Inv s) (hb : beginStep s = .ended t) : Inv t := by
  have running : s.status = .running := beginStep_running (by simp [hb])
  have begun (n : Nat) : Inv (s.begin s.mem n) := h.begin (.refl _) h.canonical n
  rcases beginStep_cases running with ⟨-, e⟩ | ⟨-, f, n, e⟩ | ⟨-, q, n, e⟩ |
    ⟨-, d, n, hd, -, e⟩ | ⟨-, d, n, j, -, -, -, e⟩ <;> cases e.symm.trans hb
  · exact (begun 0).halt
  · exact (begun n).fail (beginStep_failure_canonical (s := s) h hb rfl)
  · exact (begun n).refuse q
  · exact (h.begin (hintStep_extends hd) (hintStep_canonical h.prime h.canonical hd) n).halt

end Invariant

/-- Settles O16: a command, a step that ends early and an instruction keep the invariant, and so does the
restoration. -/
theorem stepKeepsInvariant : Obligations.StepKeepsInvariant := by
  unfold Obligations.StepKeepsInvariant
  intro s t h ht
  rcases step_next ht with ⟨q, i, -, -, he⟩ | ⟨q, -, -, rfl⟩ | ⟨-, hb⟩ | ⟨i, u, v, -, hb, he, rfl⟩
  · exact h.takeRequest.of_exec he
  · exact h.takeRequest.answer rfl
  · exact h.of_ended hb
  · exact h.restoreOnAbort ((h.of_run hb).of_exec he) ((ConfigKept.of_run hb).trans (ConfigKept.of_exec he))

/-- Settles O12: the scripts as `runHints` runs them, the action that ends them, and the early ends of a step. -/
theorem runEndsAtProgramEndOrByHint : Obligations.RunEndsAtProgramEndOrByHint := by
  unfold Obligations.RunEndsAtProgramEndOrByHint
  refine ⟨fun s m halted h => ?_, fun s m1 m2 before after o acts rest x hs hb ha => ?_, fun s hp hr =>
    ⟨fun hpc => ?_, fun d hpc hh hd => ?_, fun f hpc hh => ?_, fun q hpc hh => ?_⟩⟩
  · have run := runHints_append (after := []) (n := s.hintRuns) h
    rw [List.append_nil] at run
    rw [hintStep, hintsAtPc, run]
    cases halted <;> rfl
  · obtain ⟨k, hk⟩ := hintStep_at_action hs hb ha
    refine ⟨fun f hf => ?_, fun q hq => ?_⟩
    · rw [hk, runActions_of_fails hf, Res.bind_fail]
    · rw [hk, runActions_of_refused hq, Res.bind_refuse]
  · exact ⟨_, step_ended hp (beginStep_programEnd hr hpc), rfl, rfl, rfl, rfl, rfl⟩
  · exact ⟨_, step_ended hp (beginStep_hint_halt hr hpc hh hd), rfl, rfl, rfl, rfl, rfl⟩
  · exact ⟨_, step_ended hp (beginStep_hint_fail hr hpc hh), rfl, rfl⟩
  · exact ⟨_, step_ended hp (beginStep_hint_refuse hr hpc hh), rfl, rfl⟩

/-- Settles O14: a step that fails or is refused before its instruction has not taken the hints' memory, and one that
aborts in it is restored. -/
theorem abortedStepsCommitNothing : Obligations.AbortedStepsCommitNothing := by
  unfold Obligations.AbortedStepsCommitNothing
  intro s t hp ht aborted
  rcases step_next ht with ⟨q, i, hq, -⟩ | ⟨q, hq, -⟩ | ⟨-, hb⟩ | ⟨i, u, v, -, -, -, rfl⟩
  · cases hp.symm.trans hq
  · cases hp.symm.trans hq
  · have running : s.status = .running := beginStep_running (by simp [hb])
    rcases beginStep_cases running with ⟨-, e⟩ | ⟨-, f, n, e⟩ | ⟨-, q, n, e⟩ |
      ⟨-, d, n, -, -, e⟩ | ⟨-, d, n, j, -, -, -, e⟩ <;> cases e.symm.trans hb
    · exact ⟨rfl, rfl, rfl, rfl⟩
    · exact ⟨rfl, rfl, rfl, rfl⟩
    · exact ⟨rfl, rfl, rfl, rfl⟩
    · simp at aborted
  · rcases s.restoreOnAbort_cases v with e | ⟨e, failed, refused⟩ <;> rw [e] at aborted ⊢
    · exact ⟨rfl, rfl, rfl, rfl⟩
    · exact (aborted.elim (fun ⟨f, h⟩ => failed f h) fun ⟨q, h⟩ => refused q h).elim

/-- Settles O48: the operand sub-step as the inference from what the cells hold (`readOperands_undeduced`). -/
theorem filledOperandsAreRead : Obligations.FilledOperandsAreRead := by
  unfold Obligations.FilledOperandsAreRead
  intro i s dstA op0A op1A d a b hdst hop0
  refine ⟨fun hop1 hd ha hb => ⟨readOperands_filled hdst hop0 hop1 hd ha hb, fun hr => by simp only [computeRes, hr],
      fun hr => by simp only [computeRes, hr], fun hr => by simp only [computeRes, hr], computeRes_unconstrained⟩,
    fun hop ra hd ha hop1 hb => ?_, fun hop hop1 hd pd ha hb => ?_, fun hop hop1 hd ha hb pb => ?_,
    fun hop hop1 hd ha pa hb => ?_⟩
  · have op0 : fetchOp0 i s op0A = .ok (some a, s.mem) := by
      rcases ha with ha | ⟨ha, pa, hsize, rfl, rfl⟩
      · exact fetchOp0_filled ha
      · rw [fetchOp0_call hop (fun _ => pa) (nextPc_ok.2 ⟨hsize, rfl⟩), ha]; rfl
    have dst : callDst i s (s.mem.peek dstA) = some d := by
      rcases hd with hd | ⟨hd, -, rfl⟩ <;> rw [hd]
      · rfl
      · exact callDst_call hop
    have pd : s.mem.peek dstA = none → ecOutput s.cfg dstA = none := by
      rcases hd with hd | ⟨-, pd, -⟩
      · simp [hd]
      · exact fun _ => pd
    rw [readOperands_undeduced hdst hop0 op0 hop1 pd (by simp [hb]), dst, hb, infer_filled, Res.bind_ok]
  · have read := readOperands_undeduced hdst hop0 (fetchOp0_filled ha) hop1 (fun _ => pd) (by simp [hb])
    rw [hd, hb, callDst_other (by simp [hop]), infer_dst hop, Res.bind_assoc] at read
    refine ⟨?_, ?_, ?_⟩ <;> exact fun hr => by simpa [inferDst, hr] using read
  · have read := readOperands_undeduced hdst hop0 (fetchOp0_filled ha) hop1 (by simp [hd]) (fun _ => pb)
    rw [hd, hb, callDst_some, infer_op1 hop, Res.bind_assoc] at read
    refine ⟨?_, ?_, ?_⟩ <;> exact fun hr => by simpa [inferOp1, hr] using read
  · have op0 := fetchOp0_undeduced (i := i) (by simp [hop]) fun _ => pa
    rw [ha] at op0
    have read := readOperands_undeduced hdst hop0 op0 hop1 (by simp [hd]) (by simp [hb])
    rw [hd, hb, callDst_some, infer_op0 hop, Res.bind_assoc] at read
    refine ⟨?_, ?_⟩ <;> exact fun hr => by simpa [inferOp0, hr] using read

/-- Settles O50: the unresolved operands by the inference (`exec_unresolved`, `exec_call_unresolved`), then each
sub-step in its order as a place where the instruction stops (`StopsAt`). -/
theorem unresolvedOperandsFail : Obligations.UnresolvedOperandsFail := by
  unfold Obligations.UnresolvedOperandsFail
  refine ⟨fun i r s dstA op0A op1A hi hdst hop0 pd p0 p1 =>
    ⟨exec_unresolved hi hdst hop0 pd p0 p1, fun ra => exec_call_unresolved hi hdst hop0 pd p0 p1⟩, fun i r s hi =>
    ⟨(stopsAt_dst_address hi).fail, fun dstA hdst => ?_, (stopsAt_read hi).fail, (stopsAt_read hi).refuse,
      fun o hread => ?_⟩⟩
  · refine ⟨(stopsAt_op0_address hi hdst).fail, fun op0A hop0 => ?_⟩
    have op0 := stopsAt_op0 hi hdst hop0
    refine ⟨op0.first.fail, op0.first.refuse, fun m f hop hr hf => ?_, fun x m0 hx => ?_⟩
    · rw [fetchOp0_call_unresolved hop hr] at op0
      exact op0.first.fail f hf
    · rw [← fetchOp0_iff] at hx
      refine ⟨(stopsAt_op1_address hi hdst hop0 hx).fail, fun op1A hop1 => ?_⟩
      have dst := stopsAt_dst hi hdst hop0 hx hop1
      refine ⟨dst.fail, dst.refuse, fun d m1 hd => ?_⟩
      have op1 := stopsAt_op1 hi hdst hop0 hx hop1 hd
      exact ⟨op1.fail, op1.refuse⟩
  · refine ⟨fun f hf => (stopsAt_res hi hread).fail f (computeRes_fail hf), fun res hres => ?_⟩
    have write := stopsAt_write hi hread hres
    refine ⟨write.fail, write.refuse, fun m hw => ?_⟩
    have pc := stopsAt_pc hi hread hres hw
    refine ⟨fun h hover => pc.fail _ ((pcNext_behind h).trans (nextPc_overflow hover)), fun v h => ⟨?_, ?_⟩,
      fun npc hpc => ?_⟩
    · rintro x f rfl hf
      exact pc.fail f ((pcNext_by h).trans hf)
    · rintro t rfl
      exact pc.fail _ ((pcNext_by h).trans (relPlus_rel t))
    · have ap := stopsAt_ap hi hread hres hw (pcNext_ok.2 hpc)
      refine ⟨fun n h hover => ap.fail _ (apNext_overflow h hover), fun h => ⟨?_, ?_, ?_⟩⟩
      · rintro x f rfl hf
        exact ap.fail f ((apNext_add h).trans hf)
      · rintro t rfl
        exact ap.fail _ ((apNext_add h).trans (relPlus_rel t))
      · rintro rfl
        exact ap.fail _ (apNext_add_none h)

/-- Settles O51: the write to dst after the inferred operand's, and the conflict that it finds. -/
theorem assertEqCompletes : Obligations.AssertEqCompletes := by
  unfold Obligations.AssertEqCompletes
  intro f pcu apu s o v m1 r hread hres hm
  have effect : opcodeEffect r s o (some v) = memWrite s m1 o.dstA v := opcodeEffect_assertEq rfl hm
  refine ⟨fun m2 npc nap hw hpc hap => ⟨?_, memWrite_holds hw, fun a w ho => ?_⟩, fun c hc hne => ?_⟩
  · exact exec_assertEq rfl hread hres rfl (effect.trans hw) hpc hap
  · exact memWrite_keeps hw a w (writeInferred_holds hm ho)
  · exact (stopsAt_write rfl hread hres).fail _ (effect.trans (memWrite_conflict hc hne))

/-- Settles O52: a Call's two writes (`opcodeEffect_call`) and its target; the dst of a Call that writes it is fp, which
is not zero. -/
theorem callsComplete : Obligations.CallsComplete := by
  unfold Obligations.CallsComplete
  intro f s pcu apu o res ra r hread hres hsize hra
  have behind : Advanced s.pc r.size.toNat ra := ⟨hsize, hra⟩
  have effect : opcodeEffect r s o res = (memWrite s o.mem o.dstA (.rel s.fp)).bind fun m1 =>
      memWrite s m1 o.op0A (.rel ra) := opcodeEffect_call rfl hread (nextPc_ok.2 behind)
  refine ⟨fun m1 m2 hadd2 hap h1 h2 => ?_, fun i c hi => ⟨fun hc hne => ?_, fun m1 h1 hc hne => ?_⟩⟩
  · subst hadd2
    have writes : opcodeEffect r s o res = .ok m2 := by rw [effect, h1, Res.bind_ok, h2]
    have dst : o.dst = .rel s.fp := by
      refine (readOperands_call_dst rfl hread).elim id fun held => ?_
      exact Option.some.inj ((memWrite_keeps h1 _ _ held).symm.trans (memWrite_holds h1))
    refine ⟨memWrite_keeps h2 _ _ (memWrite_holds h1), memWrite_holds h2, ?_, ?_, ?_, ?_⟩
    · rintro npc rfl rfl hseg
      exact exec_call rfl hread hres rfl rfl writes ⟨rfl, hseg⟩ (advanced_two hap)
    · rintro v npc rfl rfl ht
      exact exec_call rfl hread hres rfl rfl writes ⟨v, rfl, ht⟩ (advanced_two hap)
    · rintro rfl
      exact exec_call rfl hread hres rfl rfl writes behind (advanced_two hap)
    · rintro v npc rfl hv ht
      refine exec_call rfl hread hres rfl rfl writes (pcNext_ok.1 ?_) (advanced_two hap)
      rw [pcNext_by (.inr ⟨rfl, by simp [dst], hv⟩)]
      exact ht
  · refine (stopsAt_write hi hread hres).fail _ ?_
    rw [effect, memWrite_conflict hc hne, Res.bind_fail]
  · refine (stopsAt_write hi hread hres).fail _ ?_
    rw [effect, h1, Res.bind_ok, memWrite_conflict hc hne]

/-- Settles O53: a Ret goes to its pc target and takes fp from dst (`exec_ret`). -/
theorem retsComplete : Obligations.RetsComplete := by
  unfold Obligations.RetsComplete
  intro f apu pcu s o res fp nap r hread hres hd hseg hap
  refine ⟨?_, fun t hpc => exec_ret rfl hread hres rfl hd hseg hpc hap⟩
  rintro t rfl rfl ht
  exact exec_ret rfl hread hres rfl hd hseg ⟨rfl, ht⟩ hap

/-- Settles O55: the jumps are NoOps that find their target (`exec_noOp`). -/
theorem jumpsComplete : Obligations.JumpsComplete := by
  unfold Obligations.JumpsComplete
  refine fun f apu s o nap => ⟨fun t hread hres ht hap => ?_, fun v t hread hres ht hap => ?_, fun t hread hres => ?_⟩
  · exact exec_noOp rfl rfl hread hres ⟨rfl, ht⟩ hap
  · exact exec_noOp rfl rfl hread hres ⟨v, rfl, ht⟩ hap
  · have pc := stopsAt_pc (i := .jmpRel f apu) rfl hread hres (opcodeEffect_none (.inl rfl) hread)
    exact pc.fail _ ((pcNext_by (.inl ⟨rfl, rfl⟩)).trans (relPlus_rel t))

/-- Settles O56: the two ways of JumpIfNotZero (`pcNext_behind`, `pcNext_by`). -/
theorem jnzCompletes : Obligations.JnzCompletes := by
  unfold Obligations.JnzCompletes
  intro f apu s o res r hread hres
  have effect : opcodeEffect r s o res = .ok o.mem := opcodeEffect_none (.inl rfl) hread
  refine ⟨fun nap hap zero hsize => ?_, fun nap v t hap taken hv ht => ?_, fun t taken hv => ?_,
    fun npc hpc hadd hun => ?_⟩
  · refine exec_noOp rfl rfl hread hres (pcNext_ok.1 ?_) hap
    rw [pcNext_behind (.inr ⟨rfl, zero⟩)]
    exact nextPc_ok.2 ⟨hsize, rfl⟩
  · refine exec_noOp rfl rfl hread hres (pcNext_ok.1 ?_) hap
    rw [pcNext_by (.inr ⟨rfl, taken, hv⟩)]
    exact ht
  · exact (stopsAt_pc rfl hread hres effect).fail _ ((pcNext_by (.inr ⟨rfl, taken, hv⟩)).trans (relPlus_rel t))
  · cases hres.symm.trans (computeRes_unconstrained hun)
    exact exec_noOp_ap_fail rfl rfl hread hres hpc (apNext_add_none hadd)

/-- Settles O57: the slots that the call leaves (`exec_call_committed`) lie at fp - 2 and fp - 1 of the callee, where
the ret reads them (`exec_canonicalRet`). -/
theorem retUndoesCall : Obligations.RetUndoesCall := by
  unfold Obligations.RetUndoesCall
  intro i r s t u hi hop hdr hdo h0r h0o hpin _ ht hrun hfp hkeep
  obtain ⟨dstA, op0A, ra, hdst, hop0, ⟨-, rfl⟩, callee, slot_fp, slot_ra⟩ := exec_call_committed hi hop ht hrun
  obtain ⟨pc_seg, -, fp_seg⟩ := hpin
  rw [hdr, hdo] at hdst
  rw [h0r, h0o] at hop0
  obtain ⟨dst_seg, dst_off⟩ : dstA.seg = s.ap.seg ∧ (dstA.off.toNat : Int) = s.ap.off.toNat + 0 := addInt_ok hdst
  obtain ⟨op0_seg, op0_off⟩ : op0A.seg = s.ap.seg ∧ (op0A.off.toNat : Int) = s.ap.off.toNat + 1 := addInt_ok hop0
  obtain ⟨callee_seg, callee_off⟩ := addInt_ok callee
  rw [← hfp] at callee_seg callee_off
  rw [← pc_seg]
  exact exec_canonicalRet (addInt_eq (dst_seg.trans callee_seg.symm) (by omega))
    (addInt_eq (op0_seg.trans callee_seg.symm) (by omega)) (hkeep _ _ slot_fp) (hkeep _ _ slot_ra) fp_seg pc_seg

/-- Settles O58: the refusals of the pc update and of the fp update, behind the sub-steps before them. -/
theorem pinnedTargetsRefused : Obligations.PinnedTargetsRefused := by
  unfold Obligations.PinnedTargetsRefused
  refine fun f apu s o v => ⟨fun hv hread hres => ?_, fun hv opc m hread hres hw => ?_,
    fun hd pcu npc nap res hread hres hpc hap => ?_, fun hadd2 pcu m npc nap res hread hres hw hpc hap => ?_⟩
  · have pc := stopsAt_pc (i := .jmpAbs f apu) rfl hread hres (opcodeEffect_none (.inl rfl) hread)
    exact pc.refuse _ (pcNext_pinned rfl hv)
  · have refused {i : Instr} (hi : i.record = some (f.toRecord .jump apu opc)) :
        exec i s = .next (s.refuse .pcOutOfProgramSegment) :=
      (stopsAt_pc hi hread hres hw).refuse _ (pcNext_pinned rfl hv)
    exact ⟨fun h => refused (h ▸ rfl), fun h => refused (h ▸ rfl), fun h => refused (h ▸ rfl)⟩
  · have refused {i : Instr} (hi : i.record = some (f.toRecord pcu apu .ret)) :
        exec i s = .next (s.refuse .fpOutOfExecutionSegment) :=
      (stopsAt_fp hi hread hres (opcodeEffect_none (.inr rfl) hread) hpc hap).refuse _ (fpNext_pinned rfl hd)
    exact ⟨refused rfl, fun h => refused (h ▸ rfl)⟩
  · have refused {i : Instr} (hi : i.record = some (f.toRecord pcu apu .call)) :
        exec i s = .next (s.refuse .callWithoutAdd2) :=
      (stopsAt_fp hi hread hres hw hpc hap).refuse _ (fpNext_callWithoutAdd2 rfl hadd2)
    exact ⟨refused rfl, fun h => refused (h ▸ rfl), fun h => refused (h ▸ rfl)⟩

/-- Settles O60: the reads change outputs of the ECU only (`readOperands_others`), the writes the cells that the opcode
names (`opcodeEffect_others`). -/
theorem instructionMemoryFrame : Obligations.InstructionMemoryFrame := by
  unfold Obligations.InstructionMemoryFrame
  intro i r s t b hi ht ecDst ecOp0 ecOp1 hdst hop0 hinf
  rcases exec_record_cases hi ht with hb | ⟨f, -, rfl⟩ | ⟨q, -, rfl⟩
  · obtain ⟨o, res, m, npc, nap, nfp, hread, -, hw, -, -, -, rfl⟩ := vmBody_ok hb
    obtain ⟨-, -, -, -, -, addr_dst, addr_op0, -⟩ := readOperands_ok hread
    refine (opcodeEffect_others hw (fun hop => hdst _ hop addr_dst) (fun hop => hop0 _ hop addr_op0)
      fun a v ho => ?_).trans (readOperands_others hread ecDst ecOp0 ecOp1)
    by_cases hop : r.opcode = .assertEq
    · exact hinf o a v hop hread ho
    · cases (readOperands_inferred hop hread).symm.trans ho
  · rfl
  · rfl

/-- Settles O10: the begun step fetches and decodes `i` (`beginStep_run`), and a command is taken off the port. -/
theorem stepRunsDecodedInstruction : Obligations.StepRunsDecodedInstruction := by
  unfold Obligations.StepRunsDecodedInstruction
  refine ⟨fun s d v i hp hr hpc hh hd hv hdec => ?_, fun s q i hp hq => ?_⟩
  · refine step_run hp (beginStep_run hr hpc hh hd ?_)
    rw [fetchDecode_felt (s := s.begin d.mem _) hv]
    unfold decodeWord at hdec
    split at hdec
    · next j hj => cases hdec; exact congrArg (Res.bind · _) (iduDecode_eq_ok hj)
    · cases hdec
  · simp only [step, hp, hq]

/-- Settles O47: each source of op1. -/
theorem op1AddressBySource : Obligations.Op1AddressBySource := by
  unfold Obligations.Op1AddressBySource
  refine fun s off op0 => ⟨rfl, rfl, fun h => ?_, fun h => if_neg h, rfl, fun v => rfl, fun r => rfl⟩
  rw [computeOp1Address, if_pos h, h]

/-- Settles O49: the inference of each unknown (`infer_dst`, `infer_op1`, `infer_op0`) under each result logic. -/
theorem assertEqInfersOneOperand : Obligations.AssertEqInfersOneOperand := by
  unfold Obligations.AssertEqInfersOneOperand
  intro i s op0A op1A d a b hop
  rw [infer_dst hop, infer_op1 hop, infer_op0 hop]
  refine ⟨fun hr => ?_, fun hr => ?_, fun hr => ?_⟩ <;> simp only [inferDst, inferOp1, inferOp0, hr]
  · exact ⟨rfl, rfl, rfl⟩
  · exact ⟨fun v hv => by rw [hv]; rfl, fun v hv => by rw [hv]; rfl, fun v hv => by rw [hv]; rfl⟩
  · exact ⟨fun v hv => by rw [hv]; rfl, fun v hv => by rw [hv]; rfl, fun v hv => by rw [hv]; rfl⟩

end Sys2Proof
end
